-- ==== Sys2Proof/Word.lean ====
section
/-!
DEFINITION. The bit vectors of the block: 32-bit words (descriptor words, pixels, registers; spec/00_scope.md 6.1)
and the 8-bit values of a colour channel and of a table entry.
-/

namespace Sys2Proof

/-- A 32-bit word: a descriptor word, a pixel, a control register (`u32`, `s32` or a binary32 pattern). -/
abbrev Word := BitVec 32

/-- An 8-bit value (`u8`): a colour channel, an entry of LTG or of PLUT. -/
abbrev Byte := BitVec 8

end Sys2Proof
end

