-- ==== Sys2Proof/Syntax.lean ====
section
/-!
DEFINITION. The commands of the block as abstract syntax (spec/30_encoding.md R45): one constructor per row of
spec/opcode_table.json.
-/

namespace Sys2Proof

/-- The three colorInfo gains of INIT, binary32 patterns that no rule reads (R22, R52, R77). -/
structure Gains where
  red : Word
  green : Word
  blue : Word
deriving DecidableEq, Repr

/-- The five commands (R45). -/
inductive Instr where
  /-- INIT (R76): the parameter `p` (a binary32 pattern) and colorInfo: the gains and, if present, the nine words of
  the matrix, row-major (R48). -/
  | init (p : Word) (gains : Gains) (matrix : Option (List Word))
  /-- APPLY (R85): the buffer `[base, base + len)` (u32 each) and its dimensions (s32 each). -/
  | apply (base len width height : Word)
  /-- PMIN (R100). -/
  | pmin
  /-- PMAX (R101). -/
  | pmax
  /-- DEFP (R102): the raw lux reading (s32). -/
  | defp (lux : Word)
deriving DecidableEq, Repr

end Sys2Proof
end

