-- ==== Sys2Proof/WellFormed.lean ====
section
/-!
DEFINITION. The one check a command term must pass: INIT's matrix, where present, has nine words (R45: `Option (F32^9)`;
R48: MX[0] to MX[8]). Every other operand is a whole word and any value of it is an operand (R52).
-/

namespace Sys2Proof

/-- R45, R48: the matrix is absent or has exactly nine words. -/
def matrixWellFormed : Option (List Word) → Bool
  | none => true
  | some m => m.length == 9

/-- The commands that some descriptor encodes. -/
def Instr.wellFormed : Instr → Bool
  | .init _ _ matrix => matrixWellFormed matrix
  | .apply _ _ _ _ => true
  | .pmin => true
  | .pmax => true
  | .defp _ => true

/-- `Instr.wellFormed` as a proposition. -/
abbrev Instr.WellFormed (i : Instr) : Prop := i.wellFormed = true

end Sys2Proof
end

