-- ==== Sys2Proof/Decode.lean ====
section
/-!
DEFINITION. The descriptor decoder (spec/30_encoding.md R46 to R54), total on any list of words and refusing by name;
after it the encoder, written from the same formats; and the host's view of one opcode-table row.
-/

namespace Sys2Proof

/-- Why a list of words is not a command's descriptor. -/
inductive DecodeError where
  /-- No word was presented. -/
  | noHeader
  /-- OPC is 0x00 or 0x06 to 0xFF (R53). -/
  | opcode (opc : Byte)
  /-- Bits 31:9 of the header are not all zero (R53). -/
  | reservedBits
  /-- M = 1 and OPC is not 0x01 (R53). -/
  | matrixOutsideInit
  /-- The header is legal and fewer words were presented than it tells (R54). -/
  | incomplete
deriving DecidableEq, Repr

/-- What a legal header selects: the command and, for INIT, the bit M (R50, R54). -/
inductive HeaderKind where
  | init (matrix : Bool)
  | apply
  | pmin
  | pmax
  | defp
deriving DecidableEq, Repr

/-- The field OPC, `word0[7:0]` (R46). -/
def headerOpc (w : Word) : Byte := w.extractLsb' 0 8

/-- The field M, `word0[8]` (R46). -/
def headerM (w : Word) : Bool := w.getLsbD 8

/-- The bits `word0[31:9]`, which must be zero (R46). -/
def headerZero (w : Word) : BitVec 23 := w.extractLsb' 9 23

/-- A header outside INIT must have M = 0 (R53). -/
def withoutMatrix (w : Word) (k : HeaderKind) : Except DecodeError HeaderKind :=
  if headerM w then .error .matrixOutsideInit else .ok k

/-- The opcode map (R50) with the illegal headers of R53. -/
def headerKind (w : Word) : Except DecodeError HeaderKind :=
  if headerZero w ≠ 0#23 then .error .reservedBits
  else if headerOpc w = 0x01#8 then .ok (.init (headerM w))
  else if headerOpc w = 0x02#8 then withoutMatrix w .apply
  else if headerOpc w = 0x03#8 then withoutMatrix w .pmin
  else if headerOpc w = 0x04#8 then withoutMatrix w .pmax
  else if headerOpc w = 0x05#8 then withoutMatrix w .defp
  else .error (.opcode (headerOpc w))

/-- The descriptor's length in words, the header included (R54). -/
def HeaderKind.length : HeaderKind → Nat
  | .init true => 14
  | .init false => 5
  | .apply => 5
  | .pmin => 1
  | .pmax => 1
  | .defp => 2

/-- The words a descriptor takes from the port, told from the header alone; an illegal header is a one-word
descriptor (R53, R54). -/
def descriptorLength : List Word → Nat
  | [] => 0
  | w :: _ =>
    match headerKind w with
    | .ok k => k.length
    | .error _ => 1

/-- The operand words after the header, one whole word each (R48, R49, R51, R52), and the words that follow. -/
def decodeOperands : HeaderKind → List Word → Except DecodeError (Instr × List Word)
  | .init false, p :: r :: g :: b :: ws => .ok (.init p ⟨r, g, b⟩ none, ws)
  | .init true, p :: r :: g :: b :: ws =>
    if 9 ≤ ws.length then .ok (.init p ⟨r, g, b⟩ (some (ws.take 9)), ws.drop 9) else .error .incomplete
  | .apply, base :: len :: width :: height :: ws => .ok (.apply base len width height, ws)
  | .pmin, ws => .ok (.pmin, ws)
  | .pmax, ws => .ok (.pmax, ws)
  | .defp, lux :: ws => .ok (.defp lux, ws)
  | _, _ => .error .incomplete

/-- The decoder: the command at the head of the presented words and the words that follow it (R46). -/
def decode : List Word → Except DecodeError (Instr × List Word)
  | [] => .error .noHeader
  | w :: ws =>
    match headerKind w with
    | .ok k => decodeOperands k ws
    | .error e => .error e

/-- The descriptor words of a command (R46 to R51). -/
def encode : Instr → List Word
  | .init p gains none => [0x00000001#32, p, gains.red, gains.green, gains.blue]
  | .init p gains (some m) => [0x00000101#32, p, gains.red, gains.green, gains.blue] ++ m
  | .apply base len width height => [0x00000002#32, base, len, width, height]
  | .pmin => [0x00000003#32]
  | .pmax => [0x00000004#32]
  | .defp lux => [0x00000005#32, lux]

/-- The length of the longest descriptor, INIT with its matrix (R54). -/
def longestDescriptor : Nat := 14

/-- The words of an instruction whose low `nbits` bits are `w` and whose other bits are 0, numbered as
spec/opcode_table.json numbers them: bit 0 is bit 0 of word 0, a later word's bits count on. -/
def tableWords (nbits w : Nat) : List Word :=
  (List.range longestDescriptor).map fun k => BitVec.ofNat 32 ((w % 2 ^ nbits) >>> (32 * k))

/-- What the decoder reads from an instruction whose bits are `w` (the host's question about a table row). -/
def decodeTableWord (nbits w : Nat) : Option Instr :=
  match decode (tableWords nbits w) with
  | .ok (i, _) => some i
  | .error _ => none

end Sys2Proof
end

