-- ==== Sys2Proof/Config.lean ====
section
/-!
DEFINITION. What a machine of this kind fixes, and what the spec leaves without a value: the carrier of the real
numbers and the record NUMERICS (spec/00_scope.md R6), the parameters PIXFMT, PLUT_CACHE, NUMERICS and LTG_DEN
(spec/00_scope.md section 4, spec/93_implementation_defined.md U3, U7, U16, U19), and the free values
(`any value` of spec/93_implementation_defined.md), opaque constants with no body.
-/

namespace Sys2Proof

/-- A `Real` of the rules, as plain data: a finite expression over rationals. Each constructor names one operation of
NUMERICS (R6); `Sys2Proof.ExactReal.val` (Safety.lean) is the real number it stands for. -/
inductive ExactReal where
  | rat (q : Rat)
  | add (a b : ExactReal)
  | sub (a b : ExactReal)
  | mul (a b : ExactReal)
  | div (a b : ExactReal)
  | pow (a b : ExactReal)
  | exp2 (a : ExactReal)
  | log2 (a : ExactReal)
deriving DecidableEq, Repr, Inhabited

/-- The record NUMERICS (R6): how each operation on non-integer quantities is carried out, each a total function of
its operands alone. A decimal literal of R5 is the operand `.rat q`. -/
structure Numerics where
  add : ExactReal → ExactReal → ExactReal
  sub : ExactReal → ExactReal → ExactReal
  mul : ExactReal → ExactReal → ExactReal
  div : ExactReal → ExactReal → ExactReal
  pow : ExactReal → ExactReal → ExactReal
  exp2 : ExactReal → ExactReal
  log2 : ExactReal → ExactReal
  lt : ExactReal → ExactReal → Bool
  le : ExactReal → ExactReal → Bool
  clamp : ExactReal → ExactReal → ExactReal → ExactReal
  trunc : ExactReal → Int
  ofInt : Int → ExactReal
  ofF32 : Word → ExactReal
deriving Inhabited

/-- Which NUMERICS the machine has: the reference instance REAL, or another of which nothing is known (R6, U16). -/
inductive NumericsKind where
  | real
  | other
deriving DecidableEq, Repr

/-- Whether APPLY rebuilds PLUT every time or skips the rebuild when PLUT_VALID = 1 (R43, U19). -/
inductive PlutCache where
  | rebuild
  | cache
deriving DecidableEq, Repr

/-- PIXFMT (R7): the bit number of the least significant bit of each 8-bit channel field. -/
structure PixFmt where
  posR : Nat
  posG : Nat
  posB : Nat
  posA : Nat
deriving DecidableEq, Repr

/-- Two 8-bit fields that share no bit. -/
def fieldsDisjoint (p q : Nat) : Bool := p + 8 ≤ q || q + 8 ≤ p

/-- R7: the four fields lie in the word and are disjoint (four disjoint bytes cover the 32 bits). -/
def PixFmt.legal (f : PixFmt) : Bool :=
  f.posR ≤ 24 && f.posG ≤ 24 && f.posB ≤ 24 && f.posA ≤ 24
    && fieldsDisjoint f.posR f.posG && fieldsDisjoint f.posR f.posB && fieldsDisjoint f.posR f.posA
    && fieldsDisjoint f.posG f.posB && fieldsDisjoint f.posG f.posA && fieldsDisjoint f.posB f.posA

/-- The default PIXFMT, 0xAARRGGBB (R7). -/
def PixFmt.argb : PixFmt := { posR := 16, posG := 8, posB := 0, posA := 24 }

/-- The parameters of one machine (00_scope.md section 4). -/
structure Config where
  pixfmt : PixFmt
  plutCache : PlutCache
  numerics : NumericsKind
  ltgDen : Nat
deriving DecidableEq, Repr

/-- The values the spec's test vectors use: PIXFMT 0xAARRGGBB, NUMERICS = REAL, LTG_DEN = 1024; PLUT_CACHE as in the
reference design (R43). -/
def Config.default : Config :=
  { pixfmt := PixFmt.argb, plutCache := .rebuild, numerics := .real, ltgDen := 1024 }

/-- A NUMERICS other than REAL: nothing is known of it (U16). -/
opaque Config.otherNumerics : Numerics

/-- The integer part of an expression outside the operations' domains (a division by 0, a power of a negative base or of 0 to
an exponent that is not positive, the logarithm of a number that is not positive), where no bounds tell one: R6 states no
result there (notes/assumptions/9.md). -/
opaque Config.undefinedFloor : ExactReal → Int

/-- The `u8` that an entry of LTG holds where R61 gives an integer outside 0 to 255 (another NUMERICS, or LTG_DEN below
1024): the spec states none (notes/assumptions/11.md). -/
opaque Config.unstatedByte : Int → Byte

/-- `any value` of a 32-bit register: CrRead(1) while BUSY = 1 or before RESULT was written (U6). -/
opaque Config.freeWord : Nat → Word

/-- Whether PARAM is written after F_OVERLAP, where it was not before. -/
opaque Config.freeParamWritten : Nat → Bool

/-- `any value` of PARAM after F_OVERLAP (U5). -/
opaque Config.freeParam : Nat → Word

/-- `any value` of GAIN_VALID after F_OVERLAP (U5). -/
opaque Config.freeGainValid : Nat → Bool

/-- `any value` of PLUT_VALID after F_OVERLAP (U5). -/
opaque Config.freePlutValid : Nat → Bool

/-- `any value` of entry `i` of GAIN after F_OVERLAP (U5). -/
opaque Config.freeGain : Nat → Nat → ExactReal

/-- Whether entry `i` of GAIN is written after F_OVERLAP, where it was not before. -/
opaque Config.freeGainWritten : Nat → Nat → Bool

/-- `any value` of entry `(i, j)` of PLUT, `j ≤ i`, after F_OVERLAP (U5). -/
opaque Config.freePlut : Nat → Nat → Nat → Byte

/-- Whether entry `(i, j)` of PLUT is written after F_OVERLAP, where it was not before. -/
opaque Config.freePlutWritten : Nat → Nat → Nat → Bool

/-- Whether pixel `n` of an abandoned APPLY's buffer was remapped before the command was abandoned (U5, U18). -/
opaque Config.freeRemapped : Nat → Nat → Bool

/-- `any value` of PIX_IDX after an APPLY was abandoned (U17). -/
opaque Config.freePixIdx : Nat → Nat

/-- `any value` of A_BASE after an APPLY was abandoned (U17). -/
opaque Config.freeBase : Nat → Word

/-- `any value` of A_LEN after an APPLY was abandoned (U17). -/
opaque Config.freeLen : Nat → Word

/-- `any value` of A_W after an APPLY was abandoned (U17). -/
opaque Config.freeWidth : Nat → Word

/-- `any value` of A_H after an APPLY was abandoned (U17). -/
opaque Config.freeHeight : Nat → Word

/-- Whether an abandoned PMIN, PMAX or DEFP wrote RESULT before it was abandoned (R114: "at an unspecified point"). -/
opaque Config.freeResultWritten : Nat → Bool

end Sys2Proof
end

