-- ==== Sys2Proof/Machine/Operands.lean ====
section
/-!
DEFINITION. How operand words are read and results written (spec/30_encoding.md R52): binary32 patterns, two's
complement and unsigned words, and `f32enc` (spec/00_scope.md 6.2). The binary32 layout is from general knowledge
(spec/93_implementation_defined.md G2 to G4).
-/

namespace Sys2Proof.Machine

/-- A `u32` operand: BASE, LEN (R52). -/
def unsigned (w : Word) : Nat := w.toNat

/-- An `s32` operand: WIDTH, HEIGHT, LUX (R52). -/
def signed (w : Word) : Int := w.toInt

/-- The exponent field of a binary32 pattern, bits 30:23 (R52, G4). -/
def f32Exponent (w : Word) : Nat := (w.extractLsb' 23 8).toNat

/-- The fraction field of a binary32 pattern, bits 22:0 (R52, G4). -/
def f32Fraction (w : Word) : Nat := (w.extractLsb' 0 23).toNat

/-- The sign bit of a binary32 pattern. -/
def f32Negative (w : Word) : Bool := w.getLsbD 31

/-- A NaN pattern: exponent all ones and a non-zero fraction (R52). -/
def f32IsNaN (w : Word) : Bool := f32Exponent w == 255 && f32Fraction w != 0

/-- The pattern of +infinity (R70, table 2.3 of spec/95_test_vectors.md). -/
def f32PosInf : Word := 0x7F800000#32

/-- The pattern of -infinity. -/
def f32NegInf : Word := 0xFF800000#32

/-- The rational `2^e` for an integer `e`. -/
def pow2 : Int → Rat
  | .ofNat n => ((2 ^ n : Nat) : Rat)
  | .negSucc n => ((2 ^ (n + 1) : Nat) : Rat)⁻¹

/-- The magnitude of a finite binary32 pattern: subnormal where the exponent field is 0. -/
def f32Magnitude (w : Word) : Rat :=
  if f32Exponent w = 0 then (f32Fraction w : Rat) * pow2 (-149)
  else ((2 ^ 23 + f32Fraction w : Nat) : Rat) * pow2 ((f32Exponent w : Int) - 150)

/-- `of_f32` on a finite pattern: its exact value; +0 and -0 are both 0 (R52). The spec gives `of_f32` no value on an infinity
or a NaN pattern; DESIGN CHOICE, notes/assumptions/13.md: such a pattern has here what the finite formula gives at exponent
field 255. No command reads it: INIT refuses NaN patterns (R76) and TC.LUX takes the infinities apart (R70). -/
def f32Value (w : Word) : Rat := if f32Negative w then -f32Magnitude w else f32Magnitude w

/-- The integer `e` with `2^e ≤ q < 2^(e+1)`, for `q > 0`. -/
def floorLog2 (q : Rat) : Int :=
  let e : Int := (q.num.natAbs.log2 : Int) - (q.den.log2 : Int)
  if pow2 e ≤ q then e else e - 1

/-- The integer nearest `q ≥ 0`, ties to even. -/
def roundHalfEven (q : Rat) : Nat :=
  let n := q.floor.toNat
  let r := q - (n : Rat)
  if r < 1 / 2 then n else if 1 / 2 < r then n + 1 else n + n % 2

/-- The magnitude bits of the binary32 value nearest `a > 0`: the quantum is `2^(e-23)` with `e` the exponent of `a`,
at least -126; a carry out of the fraction raises the exponent, and past the largest finite value lies infinity. -/
def f32MagnitudeBits (a : Rat) : Nat :=
  let e := max (floorLog2 a) (-126)
  min ((e + 126).toNat * 2 ^ 23 + roundHalfEven (a / pow2 (e - 23))) 0x7F800000

/-- The binary32 pattern nearest a rational, ties to even (`f32enc` of spec/00_scope.md 6.2, D18). Of the two zeros,
which are equally near, the spec names none; PRESUMED as binary32 has it, notes/assumptions/13.md: 0 gives +0, and a
number that rounds to zero keeps its sign, so a negative one gives -0. -/
def f32OfRat (q : Rat) : Word :=
  if q = 0 then 0#32
  else if q < 0 then BitVec.ofNat 32 (2 ^ 31 + f32MagnitudeBits (-q))
  else BitVec.ofNat 32 (f32MagnitudeBits q)

end Sys2Proof.Machine
end

