-- ==== Sys2Proof/Machine/Numerics.lean ====
section
/-!
DEFINITION. NUMERICS = REAL (spec/00_scope.md R6): each operation is the exact mathematical function. Operations on
rationals are computed; any other result is kept as the expression it is. A comparison, an integer part or a nearest
binary32 pattern is decided from rational bounds of the expression: fast bounds at 64 bits and on to 2^18 bits, and where
those do not tell, plain bounds without end (notes/assumptions/8.md, 9.md).
-/

namespace Sys2Proof.Machine

/-- Rational bounds of a real number; `none` where no bound is known. -/
structure Bounds where
  lo : Option Rat
  hi : Option Rat
deriving DecidableEq, Repr

/-- Nothing is known. -/
def Bounds.unknown : Bounds := { lo := none, hi := none }

/-- A function of two bounds that are both known. -/
def both (f : Rat → Rat → Rat) : Option Rat → Option Rat → Option Rat
  | some a, some b => some (f a b)
  | _, _ => none

def Bounds.add (a b : Bounds) : Bounds :=
  { lo := both (· + ·) a.lo b.lo, hi := both (· + ·) a.hi b.hi }

def Bounds.sub (a b : Bounds) : Bounds :=
  { lo := both (· - ·) a.lo b.hi, hi := both (· - ·) a.hi b.lo }

/-- Both factors bounded on both sides: the least and the greatest product of their ends; otherwise only the product of
two lower bounds that are not negative. -/
def Bounds.mul (a b : Bounds) : Bounds :=
  match a.lo, a.hi, b.lo, b.hi with
  | some al, some ah, some bl, some bh =>
    { lo := some (min (min (al * bl) (al * bh)) (min (ah * bl) (ah * bh))),
      hi := some (max (max (al * bl) (al * bh)) (max (ah * bl) (ah * bh))) }
  | some al, _, some bl, _ => if 0 ≤ al ∧ 0 ≤ bl then { lo := some (al * bl), hi := none } else .unknown
  | _, _, _, _ => .unknown

/-- Bounds of the reciprocal, where zero is excluded. -/
def Bounds.inv (a : Bounds) : Bounds :=
  match a.lo, a.hi with
  | some l, some h => if 0 < l ∨ h < 0 then { lo := some h⁻¹, hi := some l⁻¹ } else .unknown
  | _, _ => .unknown

/-- Newton's iteration for the `d`-th root of `n`, downwards from a starting value, `fuel` steps at most. -/
def newton (d n : Nat) : Nat → Nat → Nat
  | 0, x => x
  | fuel + 1, x =>
    let y := ((d - 1) * x + n / x ^ (d - 1)) / d
    if y < x then newton d n fuel y else x

/-- A candidate for the integer part of the `d`-th root of `n`. -/
def rootGuess (d n : Nat) : Nat := newton d n (n.log2 + 8) (2 ^ (n.log2 / d + 1))

/-- A number whose `d`-th power is at most `n` (`d ≥ 1`): the candidate, where it is one. -/
def rootLo (d n : Nat) : Nat :=
  let r := rootGuess d n
  if r ^ d ≤ n then r else 0

/-- A number whose `d`-th power is at least `n` (`d ≥ 1`): the candidate or the next, where one of them is. -/
def rootHi (d n : Nat) : Nat :=
  let r := rootGuess d n
  if n ≤ r ^ d then r else if n ≤ (r + 1) ^ d then r + 1 else n

/-- `2^(m / 2^k)` scaled by `2^s`, from the number `2^s` by `k` square roots, each rounded by `root`: the bits of `m`
enter from the least significant. The root of 1 is 1. -/
def exp2Fraction (root : Nat → Nat) (s : Nat) : Nat → Nat → Nat → Nat
  | 0, _, r => r
  | k + 1, m, r =>
    if m % 2 = 0 ∧ r = 2 ^ s then exp2Fraction root s k (m / 2) r
    else exp2Fraction root s k (m / 2) (root (r * 2 ^ (s + m % 2)))

/-- A lower bound of `2^(m / 2^k)`, with `s` bits. -/
def exp2FractionLo (s k m : Nat) : Rat := (exp2Fraction (rootLo 2) s k m (2 ^ s) : Rat) / ((2 ^ s : Nat) : Rat)

/-- An upper bound of `2^(m / 2^k)`, with `s` bits. -/
def exp2FractionHi (s k m : Nat) : Rat := (exp2Fraction (rootHi 2) s k m (2 ^ s) : Rat) / ((2 ^ s : Nat) : Rat)

/-- Bounds of `2^q` with `prec` bits. Far from 0 only a coarse bound is given. -/
def exp2Bounds (prec : Nat) (q : Rat) : Bounds :=
  if (prec : Rat) ≤ q then { lo := some (pow2 prec), hi := none }
  else if q ≤ -(prec : Rat) then { lo := some 0, hi := some (pow2 (-prec)) }
  else
    let n := q.floor
    let f := (q - n) * ((2 ^ prec : Nat) : Rat)
    let m := f.ceil.toNat
    { lo := some (pow2 n * exp2FractionLo prec prec f.floor.toNat),
      hi := some (if m = 2 ^ prec then pow2 (n + 1) else pow2 n * exp2FractionHi prec prec m) }

/-- Bounds of `b^e` with `prec` bits, for a base `b ≥ 0` and an exponent `e ≥ 0`: the root of a power. -/
def powBounds (prec : Nat) (b e : Rat) : Bounds :=
  if b < 0 ∨ e < 0 then .unknown
  else
    let v := (b ^ e.num.toNat * ((2 ^ (e.den * prec) : Nat) : Rat)).floor.toNat
    { lo := some ((rootLo e.den v : Rat) / ((2 ^ prec : Nat) : Rat)),
      hi := some ((rootHi e.den (v + 1) : Rat) / ((2 ^ prec : Nat) : Rat)) }

/-- The leading `k` bits of `log2(x / 2^s)` for `2^s ≤ x < 2^(s+1)`, found by squaring: a candidate only. -/
def log2Digits (s : Nat) : Nat → Nat → Nat → Nat
  | 0, _, acc => acc
  | k + 1, x, acc =>
    let y := x * x / 2 ^ s
    if 2 ^ (s + 1) ≤ y then log2Digits s k (y / 2) (2 * acc + 1) else log2Digits s k y (2 * acc)

/-- Bounds of `log2 q` with `prec` bits, for `q > 0`: a candidate from its digits, widened by two units, each side kept
only if the bounds of `2^x` confirm it. -/
def log2Bounds (prec : Nat) (q : Rat) : Bounds :=
  if q ≤ 0 then .unknown
  else
    let n := floorLog2 q
    let r := q / pow2 n
    let s := 2 * prec + 8
    let m := log2Digits s prec (r * ((2 ^ s : Nat) : Rat)).floor.toNat 0
    let below := m - 2
    let above := m + 2
    { lo := if below < 2 ^ prec ∧ exp2FractionHi s prec below ≤ r
        then some (n + (below : Rat) / ((2 ^ prec : Nat) : Rat)) else some n,
      hi := if above < 2 ^ prec ∧ r ≤ exp2FractionLo s prec above
        then some (n + (above : Rat) / ((2 ^ prec : Nat) : Rat)) else some (n + 1) }

/-- Bounds of `b^e` with `prec` bits, for a base `b ≥ 0`. -/
def ratPowBounds (prec : Nat) (b e : Rat) : Bounds :=
  if 0 ≤ e then powBounds prec b e else (powBounds prec b (-e)).inv

/-- The number whose bounds these are, where they are equal. -/
def Bounds.point (b : Bounds) : Option Rat :=
  match b.lo, b.hi with
  | some l, some h => if l = h then some l else none
  | _, _ => none

/-- How powers of two and logarithms of rationals are bounded, and powers of bounded numbers. -/
structure Elementary where
  exp2 : Rat → Bounds
  log2 : Rat → Bounds
  pow : Bounds → Bounds → Bounds

/-- Bounds of `2^x` from bounds of `x`. -/
def Bounds.exp2 (f : Rat → Bounds) (b : Bounds) : Bounds :=
  { lo := b.lo.bind fun l => (f l).lo, hi := b.hi.bind fun h => (f h).hi }

/-- Bounds of `log2 x` from bounds of `x`, where `x` is seen to be positive. -/
def Bounds.log2 (f : Rat → Bounds) (b : Bounds) : Bounds :=
  match b.lo, b.hi with
  | some l, some h => if 0 < l then { lo := (f l).lo, hi := (f h).hi } else .unknown
  | _, _ => .unknown

/-- Bounds of `x^y`, for `x` near 0 and an exponent of at least `el > 0`: `|x| ≤ m < 1` gives `|x^y| ≤ m^el`. -/
def powNearZero (exp2 log2 : Rat → Bounds) (m el : Rat) : Bounds :=
  if m ≤ 0 then { lo := some 0, hi := some 0 }
  else if m < 1 then
    match (log2 m).hi with
    | some g =>
      match (exp2 (el * g)).hi with
      | some u => { lo := some (-u), hi := some u }
      | none => .unknown
    | none => .unknown
  else .unknown

/-- Bounds of `x^y` from bounds of `x` and `y`: `2^(y * log2 x)` where `x` is seen to be positive. -/
def Bounds.pow (exp2 log2 : Rat → Bounds) (b e : Bounds) : Bounds :=
  match b.lo, b.hi with
  | some l, some h =>
    if 0 < l then (e.mul (b.log2 log2)).exp2 exp2
    else match e.lo with
      | some el => if 0 < el then powNearZero exp2 log2 (max (-l) h) el else .unknown
      | none => .unknown
  | _, _ => .unknown

/-- The fast bounds, with `prec` bits at each root, power of two and logarithm; a rational power as a root of a power. -/
def fastBounds (prec : Nat) : Elementary where
  exp2 := exp2Bounds prec
  log2 := log2Bounds prec
  pow b e :=
    match b.point, e.point with
    | some x, some y => ratPowBounds prec x y
    | _, _ => b.pow (exp2Bounds prec) (log2Bounds prec) e

/-- The greatest `x ≤ r` with `x^d ≤ n` (`d ≥ 1`). -/
def rootBelow (d n : Nat) : Nat → Nat
  | 0 => 0
  | r + 1 => if (r + 1) ^ d ≤ n then r + 1 else rootBelow d n r

/-- Bounds of `2^q` that lie `2^-n` apart: the integer part of the root of a power, scaled. -/
def plainExp2 (n : Nat) (q : Rat) : Bounds :=
  let v := (pow2 (q.num + q.den * n)).floor.toNat
  let r := rootBelow q.den v v
  { lo := some ((r : Rat) / ((2 ^ n : Nat) : Rat)), hi := some (((r + 1 : Nat) : Rat) / ((2 ^ n : Nat) : Rat)) }

/-- Bounds of `log2 q` that lie `2^-n` apart, for `q > 0`: the integer part of the logarithm of a power, scaled. -/
def plainLog2 (n : Nat) (q : Rat) : Bounds :=
  if q ≤ 0 then .unknown
  else
    let m := floorLog2 (q ^ 2 ^ n)
    { lo := some ((m : Rat) / ((2 ^ n : Nat) : Rat)), hi := some (((m + 1 : Int) : Rat) / ((2 ^ n : Nat) : Rat)) }

/-- The plain bounds: slow, and as narrow as wanted as `n` grows. -/
def plainBounds (n : Nat) : Elementary where
  exp2 := plainExp2 n
  log2 := plainLog2 n
  pow b e := b.pow (plainExp2 n) (plainLog2 n) e

/-- Bounds of an expression. -/
def ExactReal.bounds (f : Elementary) : ExactReal → Bounds
  | .rat q => { lo := some q, hi := some q }
  | .add a b => (ExactReal.bounds f a).add (ExactReal.bounds f b)
  | .sub a b => (ExactReal.bounds f a).sub (ExactReal.bounds f b)
  | .mul a b => (ExactReal.bounds f a).mul (ExactReal.bounds f b)
  | .div a b => (ExactReal.bounds f a).mul (ExactReal.bounds f b).inv
  | .pow a b => f.pow (ExactReal.bounds f a) (ExactReal.bounds f b)
  | .exp2 a => (ExactReal.bounds f a).exp2 f.exp2
  | .log2 a => (ExactReal.bounds f a).log2 f.log2

/-- The precisions that are tried, in bits: 64, 128, and on to 2^18. -/
def precisions : List Nat := [64, 128, 256, 512, 1024, 2048, 4096, 8192, 16384, 32768, 65536, 131072, 262144]

/-- Whether the number is negative, where its bounds tell. -/
def Bounds.negative (b : Bounds) : Option Bool :=
  match b.lo, b.hi with
  | some l, some h => if h < 0 then some true else if 0 ≤ l then some false else none
  | some l, none => if 0 ≤ l then some false else none
  | none, some h => if h < 0 then some true else none
  | none, none => none

/-- The value of a monotone function of the number, where it takes the same value at both bounds. -/
def Bounds.constant {α : Type} [DecidableEq α] (f : Rat → α) (b : Bounds) : Option α :=
  match b.lo, b.hi with
  | some l, some h => if f l = f h then some (f l) else none
  | _, _ => none

/-- The first precision that decides a question about an expression decides it. -/
def decideAt {α : Type} (question : Bounds → Option α) (a : ExactReal) : List Nat → Option α
  | [] => none
  | prec :: rest =>
    match question (ExactReal.bounds (fastBounds prec) a) with
    | some v => some v
    | none => decideAt question a rest

/-- What the plain bounds decide of an expression, at level `n` or later: the least fixed point of the search, so nothing
where no level decides. -/
def search {α : Type} (question : Bounds → Option α) (a : ExactReal) (n : Nat) : Option α :=
  match question (ExactReal.bounds (plainBounds n) a) with
  | some v => some v
  | none => search question a (n + 1)
partial_fixpoint

/-- The integer part of a rational toward zero (`trunc`, spec/00_scope.md 6.2). -/
def truncRat (q : Rat) : Int := q.num.tdiv q.den

/-- `a < b`, where the fast bounds decide it. -/
def realLtDecided (a b : ExactReal) : Option Bool :=
  match a, b with
  | .rat x, .rat y => some (decide (x < y))
  | _, _ => decideAt Bounds.negative (.sub a b) precisions

/-- The integer part of `a` toward zero, where the fast bounds decide it. -/
def realTruncDecided (a : ExactReal) : Option Int :=
  match a with
  | .rat q => some (truncRat q)
  | _ => decideAt (Bounds.constant truncRat) a precisions

/-- The binary32 pattern nearest `a`, where the fast bounds decide it. -/
def f32encDecided (a : ExactReal) : Option Word :=
  match a with
  | .rat q => some (f32OfRat q)
  | _ => decideAt (Bounds.constant f32OfRat) a precisions

/-- `a < b` of REAL. Where no bounds ever tell, the two are equal. -/
def realLt (a b : ExactReal) : Bool :=
  match realLtDecided a b with
  | some v => v
  | none => (search Bounds.negative (.sub a b) 0).getD false

/-- `a ≤ b` of REAL. -/
def realLe (a b : ExactReal) : Bool := !realLt b a

def realAdd : ExactReal → ExactReal → ExactReal
  | .rat x, .rat y => .rat (x + y)
  | a, b => .add a b

def realSub : ExactReal → ExactReal → ExactReal
  | .rat x, .rat y => .rat (x - y)
  | a, b => .sub a b

/-- A product with an exact zero is exactly zero. -/
def realMul (a b : ExactReal) : ExactReal :=
  match a, b with
  | .rat x, .rat y => .rat (x * y)
  | a, b => if a = .rat 0 ∨ b = .rat 0 then .rat 0 else .mul a b

/-- A quotient by 0 has no value and stays the expression it is. -/
def realDiv : ExactReal → ExactReal → ExactReal
  | .rat x, .rat y => if y = 0 then .div (.rat x) (.rat y) else .rat (x / y)
  | a, b => .div a b

/-- `pow` of REAL; `1^y = 1`, and `0^y = 0` for a rational `y > 0`. -/
def realPow : ExactReal → ExactReal → ExactReal
  | .rat x, .rat y => if x = 1 then .rat 1 else if x = 0 ∧ 0 < y then .rat 0 else .pow (.rat x) (.rat y)
  | a, b => .pow a b

/-- `exp2` of REAL; a power of two with a small integer exponent is computed. -/
def realExp2 : ExactReal → ExactReal
  | .rat q => if q.den = 1 ∧ q.num.natAbs ≤ 64 then .rat (pow2 q.num) else .exp2 (.rat q)
  | a => .exp2 a

/-- `log2` of REAL; the logarithm of a power of two is computed. -/
def realLog2 : ExactReal → ExactReal
  | .rat q => if 0 < q ∧ q = pow2 (floorLog2 q) then .rat (floorLog2 q) else .log2 (.rat q)
  | a => .log2 a

/-- The integer part of a lower bound, where the bounds lie less than 1 apart. -/
def Bounds.nearInteger (b : Bounds) : Option Int :=
  match b.lo, b.hi with
  | some l, some h => if h - l < 1 then some l.floor else none
  | _, _ => none

/-- The greatest integer that `a` is not below. Outside the domains of R6 there is none to give; DESIGN CHOICE,
notes/assumptions/9.md: where the bounds tell an integer all the same, as they do of a power of a base near 0 that is
negative, that one, and a free value where they do not. -/
def realFloor (a : ExactReal) : Int :=
  match search Bounds.nearInteger a 0 with
  | some n => if realLt a (.rat (n + 1)) then n else n + 1
  | none => Config.undefinedFloor a

/-- `trunc` of REAL; outside the domains of R6 as `realFloor`, what the bounds tell or a free value. -/
def realTrunc (a : ExactReal) : Int :=
  match realTruncDecided a with
  | some n => n
  | none => if realLt a (.rat 0) then -realFloor (realSub (.rat 0) a) else realFloor a

/-- The integer nearest `a ≥ 0`, ties to even. -/
def realRoundHalfEven (a : ExactReal) : Nat :=
  let n := realFloor a
  let r := realSub a (.rat n)
  if realLt r (.rat (1 / 2)) then n.toNat else if realLt (.rat (1 / 2)) r then (n + 1).toNat else (n + n % 2).toNat

/-- The magnitude bits of the binary32 value nearest `a > 0`, as `f32MagnitudeBits` of a rational. -/
def realMagnitudeBits (a : ExactReal) : Nat :=
  let e := max (realFloor (realLog2 a)) (-126)
  min ((e + 126).toNat * 2 ^ 23 + realRoundHalfEven (realDiv a (.rat (pow2 (e - 23))))) 0x7F800000

/-- `f32enc`: the binary32 pattern nearest a real, ties to even (spec/00_scope.md 6.2); a real that rounds to zero keeps its
sign, as in `f32OfRat` (PRESUMED, notes/assumptions/13.md). -/
def f32enc (a : ExactReal) : Word :=
  match f32encDecided a with
  | some w => w
  | none =>
    if realLt a (.rat 0) then BitVec.ofNat 32 (2 ^ 31 + realMagnitudeBits (realSub (.rat 0) a))
    else if realLt (.rat 0) a then BitVec.ofNat 32 (realMagnitudeBits a)
    else 0#32

/-- `clamp(v, lo, hi) = lo if v < lo, else hi if v > hi, else v` (spec/00_scope.md 6.2). -/
def clampBy (lt : ExactReal → ExactReal → Bool) (v lo hi : ExactReal) : ExactReal :=
  if lt v lo then lo else if lt hi v then hi else v

/-- The reference instance of NUMERICS (R6). -/
def Numerics.real : Numerics where
  add := realAdd
  sub := realSub
  mul := realMul
  div := realDiv
  pow := realPow
  exp2 := realExp2
  log2 := realLog2
  lt := realLt
  le := realLe
  clamp := clampBy realLt
  trunc := realTrunc
  ofInt := fun n => .rat n
  ofF32 := fun w => .rat (f32Value w)

/-- The NUMERICS a machine's parameter names (R6, U16). -/
def numericsOf : NumericsKind → Numerics
  | .real => Numerics.real
  | .other => Config.otherNumerics

/-- A decimal constant of R5, `num / den` exactly. -/
def lit (num : Int) (den : Nat) : ExactReal := .rat (mkRat num den)

end Sys2Proof.Machine
end

