-- ==== Sys2Proof/Machine/Gamma.lean ====
section
/-!
DEFINITION. The gamma_expander (spec/40_gamma_expander.md): the contents of GTL and LTG (R60, R61) and the
micro-operations GX.LIN and GX.DELIN (R63, R64) as functions of the tables. GX.BUILD on the state is in Ops.lean.
-/

namespace Sys2Proof.Machine

/-- GAMMA_SIZE (R4). -/
def gammaSize : Nat := 1024

/-- The value of an entry of GTL at the gamma value `g` (R60): the sRGB transfer function. -/
def gtlCurve (N : Numerics) (g : ExactReal) : ExactReal :=
  if N.le g (lit 4045 100000) then N.div g (lit 1292 100)
  else N.pow (N.div (N.add g (lit 55 1000)) (lit 1055 1000)) (lit 24 10)

/-- `GTL[i]` (R60), at the gamma value `i / 255`. -/
def gtlEntry (N : Numerics) (i : Nat) : ExactReal := gtlCurve N (N.div (N.ofInt i) (lit 255 1))

/-- An integer of the rules as the `u8` it is stored in; of one outside 0 to 255 the spec says nothing, and the entry is a
free value (notes/assumptions/11.md). -/
def toByte (n : Int) : Byte := if 0 ≤ n ∧ n ≤ 255 then BitVec.ofInt 8 n else Config.unstatedByte n

/-- `LTG[k]` (R61): index `k` stands for the linear value `k / LTG_DEN`; the last slot is fixed at 255. -/
def ltgEntry (N : Numerics) (ltgDen : Nat) (k : Nat) : Byte :=
  if k = gammaSize then 0xFF#8
  else toByte (N.trunc (N.mul (lit 255 1)
    (N.pow (N.div (N.ofInt k) (N.ofInt ltgDen)) (N.div (lit 1 1) (lit 22 10)))))

/-- A table from the function that gives its entries. -/
def tabulate {α : Type} (n : Nat) (f : Fin n → α) : Vector α n := ⟨⟨List.ofFn f⟩, by simp⟩

/-- All of GTL (R60). -/
def buildGtl (N : Numerics) : Vector ExactReal 256 := tabulate 256 fun i => gtlEntry N i

/-- All of LTG (R61). -/
def buildLtg (N : Numerics) (ltgDen : Nat) : Vector Byte 1025 := tabulate 1025 fun k => ltgEntry N ltgDen k

/-- The entry of a 256-entry table at a `u8` index (R42: always inside the table). -/
def atByte {α : Type} (t : Vector α 256) (j : Byte) : α := t[j.toNat]'j.isLt

/-- GX.LIN (R63). -/
def gxLin (gtl : Vector ExactReal 256) (j : Byte) : ExactReal := atByte gtl j

/-- The entry of LTG at an index that the clamp of R64 has put in 0 to 1024 (an index a NUMERICS other than REAL puts
past the end reads the last slot, notes/assumptions/11.md). -/
def ltgAt (ltg : Vector Byte 1025) (k : Nat) : Byte := ltg[min k gammaSize]'(by unfold gammaSize; omega)

/-- The index into LTG that GX.DELIN forms: scale, clamp, truncate, in this order (R64). -/
def delinIndex (N : Numerics) (v : ExactReal) : Nat :=
  (N.trunc (N.clamp (N.mul v (lit 1025 1)) (lit 0 1) (lit 1024 1))).toNat

/-- GX.DELIN (R64). -/
def gxDelin (N : Numerics) (ltg : Vector Byte 1025) (v : ExactReal) : Byte := ltgAt ltg (delinIndex N v)

end Sys2Proof.Machine
end

