-- ==== Sys2Proof/Machine/State.lean ====
section
/-!
DEFINITION. The state of the block (spec/10_state.md R10 to R19), the recorded fault codes (spec/60_exceptions.md R112),
the host's side of the interface, and the state right after reset (R26).
-/

namespace Sys2Proof.Machine

/-- The reasons for which the machine itself would stop. There is none: every fault of the spec is a code recorded in
STATUS.FAULT, after which the machine goes on to its next state (R113, R114). -/
inductive Fault where
deriving DecidableEq, Repr

/-- The reasons for which a step has no meaning. -/
inductive Refusal where
  /-- Raised by an arm of `exec` whose instruction is not modelled yet. Safe: nothing is claimed of it. -/
  | notModelled (mnemonic : String)
  /-- Raised by the command port: the header is legal and the host presented fewer words than it tells. The spec gives no
  effect (R46, R54 speak of whole descriptors). Safe: nothing is claimed. -/
  | descriptorIncomplete
  /-- Raised by a host read or write, while BUSY = 1, of a word of the buffer that the APPLY issued last names, be it in
  flight, stopped by a fault or abandoned: the model gives the host no such move (R137, U4: `refuse`). Unsafe only as the spec
  says it: claims hold for hosts that wait. -/
  | hostInBuffer
deriving DecidableEq, Repr

/-- The fault recorded in STATUS.FAULT (R112). -/
inductive FaultCode where
  | none
  | illegal
  | overlap
  | param
  | noGain
  | geom
  | unwritten
deriving DecidableEq, Repr

/-- STATUS (R17), control register 0, by fields; the word the host reads is `statusWord` (Flags.lean). Bits 31:8 read as
0 and have no storage. -/
structure Status where
  ready : Bool
  gainValid : Bool
  plutValid : Bool
  busy : Bool
  fault : FaultCode
deriving DecidableEq, Repr

/-- The sequencer registers of an APPLY (R19): PIX_IDX, A_BASE, A_LEN, A_W, A_H. -/
structure Sequencer where
  pixIdx : Nat
  base : Word
  len : Word
  width : Word
  height : Word
deriving DecidableEq, Repr

/-- What the host can do to the block (R46, R57, R130, R16). -/
inductive HostAction where
  /-- Present words at the command port, a header first (R46). -/
  | present (words : List Word)
  /-- `CrRead(n)` (R57). -/
  | crRead (n : Nat)
  /-- The reset event (R130). -/
  | reset
  /-- Read the word of PIXMEM at an index (R16: the host owns it outside an APPLY). -/
  | pixRead (a : Word)
  /-- Write the word of PIXMEM at an index. -/
  | pixWrite (a v : Word)
deriving DecidableEq, Repr

/-- One action of the host. `hasty`: the host did not wait for the reset or the command in progress to end first, against
the duty of R135 where the action presents a command. -/
structure HostEvent where
  act : HostAction
  hasty : Bool
deriving DecidableEq, Repr

/-- What is not state of the block (R10, R22): the parameters, which no step changes; what the host does next; the command
issued and not yet carried out, where the host did not wait; the buffer (base, length) that the command issued last names,
which is not the host's while BUSY = 1 (R38, R137); what the host's last read returned; the counter that the free values are
applied to. -/
structure Env where
  cfg : Config
  port : List HostEvent
  inFlight : Option Instr
  buffer : Option (Word × Word)
  hostData : Word
  freeCount : Nat
deriving DecidableEq, Repr

/-- PIXMEM (R16): the words that differ from what an unlisted word reads as, by word index, indices strictly rising. -/
abbrev Pixmem := List (Nat × Word)

/-- The state of the block, element by element as in the table of R10, and `env`, which is not the block's. `none` in
PARAM, GAIN, PLUT and RESULT is the spec's `unwritten` (spec/00_scope.md 6.3, R24). -/
structure State where
  /-- GTL (R11). -/
  gtl : Vector ExactReal 256
  /-- LTG (R12). -/
  ltg : Vector Byte 1025
  /-- PARAM (R13). -/
  param : Option Word
  /-- GAIN (R14). -/
  gain : Vector (Option ExactReal) 256
  /-- PLUT (R15), `plut[i][j]` with `i` the reference index. -/
  plut : Vector (Vector (Option Byte) 256) 256
  /-- PIXMEM (R16). -/
  pixmem : Pixmem
  /-- STATUS (R17). -/
  status : Status
  /-- RESULT (R18). -/
  result : Option Word
  /-- PIX_IDX, A_BASE, A_LEN, A_W, A_H (R19). -/
  seq : Sequencer
  /-- Not state of the block. -/
  env : Env
deriving DecidableEq, Repr

def State.withGtl (s : State) (v : Vector ExactReal 256) : State := { s with gtl := v }
def State.withLtg (s : State) (v : Vector Byte 1025) : State := { s with ltg := v }
def State.withParam (s : State) (v : Option Word) : State := { s with param := v }
def State.withGain (s : State) (v : Vector (Option ExactReal) 256) : State := { s with gain := v }
def State.withPlut (s : State) (v : Vector (Vector (Option Byte) 256) 256) : State := { s with plut := v }
def State.withPixmem (s : State) (v : Pixmem) : State := { s with pixmem := v }
def State.withStatus (s : State) (v : Status) : State := { s with status := v }
def State.withResult (s : State) (v : Option Word) : State := { s with result := v }
def State.withSeq (s : State) (v : Sequencer) : State := { s with seq := v }
def State.withEnv (s : State) (v : Env) : State := { s with env := v }

/-- STATUS right after reset (R26): READY = 1 and all else 0. -/
def Status.reset : Status :=
  { ready := true, gainValid := false, plutValid := false, busy := false, fault := .none }

/-- The sequencer registers after reset: unspecified (R26, U17), here 0 (notes/assumptions/6.md, DESIGN CHOICE). -/
def Sequencer.reset : Sequencer := { pixIdx := 0, base := 0#32, len := 0#32, width := 0#32, height := 0#32 }

/-- GAIN after reset: every entry unwritten (R26). -/
def gainUnwritten : Vector (Option ExactReal) 256 := tabulate 256 fun _ => none

/-- PLUT after reset: every entry unwritten (R26). -/
def plutUnwritten : Vector (Vector (Option Byte) 256) 256 := tabulate 256 fun _ => tabulate 256 fun _ => none

/-- The block's side of things outside its state when nothing has happened yet (notes/assumptions/1.md, 2.md, 3.md). -/
def Env.reset : Env :=
  { cfg := Config.default, port := [], inFlight := none, buffer := none, hostData := 0#32, freeCount := 0 }

/-- The machine right after reset (R26), with the default parameters and a host that has done nothing. -/
def State.reset : State :=
  { gtl := buildGtl (numericsOf Config.default.numerics),
    ltg := buildLtg (numericsOf Config.default.numerics) Config.default.ltgDen,
    param := none,
    gain := gainUnwritten,
    plut := plutUnwritten,
    pixmem := [],
    status := Status.reset,
    result := none,
    seq := Sequencer.reset,
    env := Env.reset }

end Sys2Proof.Machine
end

