-- ==== Sys2Proof/Machine/Flags.lean ====
section
/-!
DEFINITION. The flag-like state of the block (spec/10_state.md R17, R20, R21): the fault codes' numbers, STATUS as the
32-bit word the host reads, and the named changes of STATUS. The block has no arithmetic condition codes (R20).
-/

namespace Sys2Proof.Machine

/-- The 4-bit code of a fault (R112); 7 to 15 are never recorded. -/
def FaultCode.code : FaultCode → BitVec 4
  | .none => 0
  | .illegal => 1
  | .overlap => 2
  | .param => 3
  | .noGain => 4
  | .geom => 5
  | .unwritten => 6

/-- STATUS as a word (R17): READY bit 0, GAIN_VALID bit 1, PLUT_VALID bit 2, BUSY bit 3, FAULT bits 7:4, zeros. -/
def statusWord (t : Status) : Word :=
  0#24 ++ t.fault.code ++ BitVec.ofBool t.busy ++ BitVec.ofBool t.plutValid ++ BitVec.ofBool t.gainValid
    ++ BitVec.ofBool t.ready

/-- `STATUS.READY <- b`. -/
def State.setReady (s : State) (b : Bool) : State := s.withStatus { s.status with ready := b }

/-- `STATUS.GAIN_VALID <- b`. -/
def State.setGainValid (s : State) (b : Bool) : State := s.withStatus { s.status with gainValid := b }

/-- `STATUS.PLUT_VALID <- b`. -/
def State.setPlutValid (s : State) (b : Bool) : State := s.withStatus { s.status with plutValid := b }

/-- `STATUS.BUSY <- b`. -/
def State.setBusy (s : State) (b : Bool) : State := s.withStatus { s.status with busy := b }

/-- `STATUS.FAULT <- c`. -/
def State.setFault (s : State) (c : FaultCode) : State := s.withStatus { s.status with fault := c }

end Sys2Proof.Machine
end

