-- ==== Sys2Proof/Machine/Ops.lean ====
section
/-!
DEFINITION. The operations that several rules share: the NUMERICS of a state, reads and writes of PIXMEM
(spec/20_memory.md R30), raising a fault and ending a command (spec/60_exceptions.md R113, R119), GX.BUILD
(spec/40_gamma_expander.md R62) and the two halves of reset (spec/70_reset_and_hazards.md R130).
-/

namespace Sys2Proof.Machine

/-- The NUMERICS the machine has (R6). -/
def State.num (s : State) : Numerics := numericsOf s.env.cfg.numerics

/-- What a word of PIXMEM that nothing has written reads as: DESIGN CHOICE, notes/assumptions/5.md. -/
def pixmemUnlisted : Word := 0#32

/-- The word listed at an index, or the unlisted value. -/
def Pixmem.lookup : Pixmem → Nat → Word
  | [], _ => pixmemUnlisted
  | (b, x) :: m, a => if b = a then x else Pixmem.lookup m a

/-- Put an entry in front, unless it says what an unlisted word reads as. -/
def Pixmem.cons (a : Nat) (v : Word) (m : Pixmem) : Pixmem := if v = pixmemUnlisted then m else (a, v) :: m

/-- Replace the word at an index, keeping the canonical form. -/
def Pixmem.store : Pixmem → Nat → Word → Pixmem
  | [], a, v => Pixmem.cons a v []
  | (b, x) :: m, a, v =>
    if a < b then Pixmem.cons a v ((b, x) :: m)
    else if a = b then Pixmem.cons a v m
    else (b, x) :: Pixmem.store m a v

/-- Every index of the rest lies above `a`. -/
def Pixmem.above (a : Nat) : Pixmem → Bool
  | [] => true
  | (b, _) :: _ => a < b

/-- The canonical form: indices strictly rising and inside the index space (R16), no entry equal to what an unlisted
word reads as. -/
def Pixmem.wf : Pixmem → Bool
  | [] => true
  | (a, v) :: m => a < 2 ^ 32 && v != pixmemUnlisted && Pixmem.above a m && Pixmem.wf m

/-- `MemRead(a, 1)` (R30). -/
def memRead (s : State) (a : Word) : Word := Pixmem.lookup s.pixmem a.toNat

/-- `MemWrite(a, 1, v)` (R30). -/
def memWrite (s : State) (a v : Word) : State := s.withPixmem (Pixmem.store s.pixmem a.toNat v)

/-- `raise Fault(code)` (R113): the code is recorded, BUSY stays as it is, the command ends, nothing else changes. -/
def raiseFault {α : Type} (c : FaultCode) (s : State) : Except State α := .error (s.setFault c)

/-- The end of a command: `STATUS.BUSY <- 0` where its rule ran through (R119); where it raised a fault, the state the
fault left (R113). -/
def settle : Except State State → Host.Outcome State Fault Refusal
  | .ok s => .next (s.setBusy false)
  | .error s => .next s

/-- `RESULT <- w` (R18). -/
def writeResult (w : Word) (s : State) : State := s.withResult (some w)

/-- GX.BUILD (R62): all of GTL and LTG. -/
def gxBuild (s : State) : State := (s.withGtl (buildGtl s.num)).withLtg (buildLtg s.num s.env.cfg.ltgDen)

/-- The first half of reset (R130): STATUS <- 0; PARAM, GAIN, PLUT and RESULT become unwritten; a command in flight is
abandoned. PIXMEM is not touched. The sequencer registers, unspecified after reset (R26, U17), become 0: DESIGN CHOICE,
notes/assumptions/6.md. -/
def resetBegin (s : State) : State :=
  { s with
    param := none, gain := gainUnwritten, plut := plutUnwritten, result := none, seq := Sequencer.reset,
    status := { ready := false, gainValid := false, plutValid := false, busy := false, fault := .none },
    env := { s.env with inFlight := none, buffer := none } }

/-- The second half of reset (R130): GX.BUILD, then STATUS.READY <- 1. -/
def resetFinish (s : State) : State := (gxBuild s).setReady true

end Sys2Proof.Machine
end

