-- ==== Sys2Proof/Machine/Meta.lean ====
section
/-!
DEFINITION. The meta accessor commands PMIN, PMAX and DEFP (spec/43_meta_accessor.md R100 to R102).
-/

namespace Sys2Proof.Machine

/-- A query command: RESULT is written and the command ends (R100 to R103). -/
def answer (w : Word) (s : State) : Host.Outcome State Fault Refusal := settle (.ok (writeResult w s))

/-- PMIN (R100). -/
def execPmin (s : State) : Host.Outcome State Fault Refusal := answer 0x00000000#32 s

/-- PMAX (R101). -/
def execPmax (s : State) : Host.Outcome State Fault Refusal := answer 0x00000005#32 s

/-- The real `r` of DEFP (R102): clamp, divide, logarithm, add. -/
def defaultParameter (N : Numerics) (lux : Int) : ExactReal :=
  N.add (N.log2 (N.div (N.clamp (N.ofInt lux) (lit 80 1) (lit 2500 1)) (lit 2500 1))) (lit 5 1)

/-- DEFP (R102). -/
def execDefp (lux : Word) (s : State) : Host.Outcome State Fault Refusal :=
  answer (f32enc (defaultParameter s.num (signed lux))) s

end Sys2Proof.Machine
end

