-- ==== Sys2Proof/Machine/ToneCurve.lean ====
section
/-!
DEFINITION. The tone_curve_compiler (spec/41_tone_curve_compiler.md): TC.LUX (R70), TC.GAIN (R71, R72), TC.COMPILE (R74)
and the command INIT (R76).
-/

namespace Sys2Proof.Machine

/-- LUXMAP, the formula of R70: `2500 * 2^((p-10)/2)` clamped to [80, 2500]. -/
def luxMap (N : Numerics) (p : ExactReal) : ExactReal :=
  N.clamp (N.mul (lit 2500 1) (N.exp2 (N.div (N.sub p (lit 10 1)) (lit 2 1)))) (lit 80 1) (lit 2500 1)

/-- TC.LUX (R70). -/
def tcLux (N : Numerics) (p : Word) : ExactReal :=
  if p = f32PosInf then lit 2500 1 else if p = f32NegInf then lit 80 1 else luxMap N (N.ofF32 p)

/-- The breakpoint `x1 = lux / 10000` (R71). -/
def kneeX (N : Numerics) (lux : ExactReal) : ExactReal := N.div lux (lit 10000 1)

/-- The flat gain `k1 = (0.5 - x1) * 8` (R71). -/
def kneeGain (N : Numerics) (lux : ExactReal) : ExactReal := N.mul (N.sub (lit 1 2) (kneeX N lux)) (lit 8 1)

/-- The ordinate `y1 = k1 * x1` (R71). -/
def kneeY (N : Numerics) (lux : ExactReal) : ExactReal := N.mul (kneeGain N lux) (kneeX N lux)

/-- The second branch of R72, in the order written: `(y1 + (t - x1) * (1 - y1) / (1 - x1)) / t`. -/
def gainLine (N : Numerics) (lux t : ExactReal) : ExactReal :=
  N.div
    (N.add (kneeY N lux)
      (N.div (N.mul (N.sub t (kneeX N lux)) (N.sub (lit 1 1) (kneeY N lux))) (N.sub (lit 1 1) (kneeX N lux))))
    t

/-- The entry of GAIN at a linear value `t` (R72). -/
def gainEntry (N : Numerics) (lux t : ExactReal) : ExactReal :=
  if N.lt t (kneeX N lux) then kneeGain N lux else gainLine N lux t

/-- TC.GAIN (R72): all 256 entries of GAIN. -/
def tcGain (lux : ExactReal) (s : State) : State :=
  s.withGain (tabulate 256 fun i => some (gainEntry s.num lux s.gtl[i]))

/-- The number of leading entries of GAIN that are written. -/
def writtenPrefix (g : Vector (Option ExactReal) 256) : Nat := (g.toList.takeWhile Option.isSome).length

/-- The entry `PLUT[i][j]` of R74, from the gain at `i`. -/
def plutEntry (s : State) (gain : ExactReal) (j : Fin 256) : Byte :=
  gxDelin s.num s.ltg (s.num.mul gain s.gtl[j])

/-- PLUT with its rows below `rows` compiled (R74); entries with `j > i` are not written. -/
def plutCompiled (s : State) (rows : Nat) : Vector (Vector (Option Byte) 256) 256 :=
  tabulate 256 fun i => tabulate 256 fun j =>
    match s.gain[i] with
    | some gain => if i.val < rows ∧ j.val ≤ i.val then some (plutEntry s gain j) else s.plut[i][j]
    | none => s.plut[i][j]

/-- TC.COMPILE (R74): every populated entry, then PLUT_VALID <- 1; F_UNWRITTEN at the first unwritten entry of GAIN
(R24), the rows before it written. -/
def tcCompile (s : State) : Except State State :=
  let rows := writtenPrefix s.gain
  let t := s.withPlut (plutCompiled s rows)
  if rows = 256 then .ok (t.setPlutValid true) else raiseFault .unwritten t

/-- INIT (R76). colorInfo is not read (R77). -/
def execInit (p : Word) (_gains : Gains) (_matrix : Option (List Word)) (s : State) :
    Host.Outcome State Fault Refusal :=
  settle <|
    if f32IsNaN p then raiseFault .param s
    else .ok (((tcGain (tcLux s.num p) (s.withParam (some p))).setGainValid true).setPlutValid false)

end Sys2Proof.Machine
end

