-- ==== Sys2Proof/Machine/Pixel.lean ====
section
/-!
DEFINITION. The pixel processor (spec/42_pixel_lut_remapper.md): PX.REMAP (R87 to R90) and the command APPLY (R85, R86).
-/

namespace Sys2Proof.Machine

/-- ALPHA_OUT (R88): fully opaque, 0xFF (from general knowledge, G1). -/
def alphaOut : Byte := 0xFF#8

/-- The 8-bit field of a pixel word whose least significant bit is bit `pos` (R7, R87). -/
def channel (w : Word) (pos : Nat) : Byte := w.extractLsb' pos 8

/-- A channel value shifted into its field (R87, R93). -/
def field (b : Byte) (pos : Nat) : Word := b.setWidth 32 <<< pos

/-- `max3` (spec/00_scope.md 6.1). -/
def max3 (a b c : Byte) : Byte :=
  let m := if a < b then b else a
  if m < c then c else m

/-- The pixel word with these colour channels and the opaque alpha (R87, R88, R90). -/
def packPixel (f : PixFmt) (r g b : Byte) : Word :=
  field alphaOut f.posA ||| field r f.posR ||| field g f.posG ||| field b f.posB

/-- `PLUT[l][c]`, or nothing where it is unwritten (R24). -/
def plutRead (s : State) (l c : Byte) : Option Byte := atByte (atByte s.plut l) c

/-- The new value of a pixel word (R87), or nothing where it would need an unwritten entry of PLUT. -/
def remapWord (s : State) (w : Word) : Option Word :=
  let f := s.env.cfg.pixfmt
  let r := channel w f.posR
  let g := channel w f.posG
  let b := channel w f.posB
  let l := max3 r g b
  match plutRead s l r, plutRead s l g, plutRead s l b with
  | some r2, some g2, some b2 => some (packPixel f r2 g2 b2)
  | _, _, _ => none

/-- PX.REMAP (R87): one word is read, remapped and written back; F_UNWRITTEN where PLUT is unwritten (R24). -/
def pxRemap (a : Word) (s : State) : Except State State :=
  match remapWord s (memRead s a) with
  | some w => .ok (memWrite s a w)
  | none => raiseFault .unwritten s

/-- `PIX_IDX <- n` (R19). -/
def State.setPixIdx (s : State) (n : Nat) : State := s.withSeq { s.seq with pixIdx := n }

/-- The index of the next pixel's word, `A_BASE + PIX_IDX` (R85, R93). -/
def nextPixel (s : State) : Word := s.seq.base + BitVec.ofNat 32 s.seq.pixIdx

/-- The pixel loop (R86) with `n` pixels to go. -/
def pixelLoop : Nat → State → Except State State
  | 0, s => .ok s
  | n + 1, s =>
    match pxRemap (nextPixel s) s with
    | .ok t => pixelLoop n (t.setPixIdx (t.seq.pixIdx + 1))
    | .error t => .error t

/-- The product `width * height` of R85, over the integers. -/
def pixelCount (width height : Word) : Int := signed width * signed height

/-- The checks of APPLY in the order of R85 and R115: the fault to raise, if any. -/
def applyCheck (base len width height : Word) (s : State) : Option FaultCode :=
  if s.status.gainValid = false then some .noGain
  else if signed width < 0 ∨ signed height < 0 then some .geom
  else if pixelCount width height ≠ (unsigned len : Int) then some .geom
  else if 2 ^ 32 < unsigned base + unsigned len then some .geom
  else none

/-- A_BASE, A_LEN, A_W, A_H latched from the descriptor (R19, R85). That they and PIX_IDX keep their last values after the APPLY
completes is DESIGN CHOICE (U17, notes/assumptions/6.md). -/
def latchApply (base len width height : Word) (s : State) : State :=
  s.withSeq { s.seq with base := base, len := len, width := width, height := height }

/-- The table build of APPLY: skipped only where PLUT_CACHE allows it and PLUT_VALID = 1 (R43, R85). -/
def compileIfNeeded (s : State) : Except State State :=
  if s.env.cfg.plutCache = .rebuild ∨ s.status.plutValid = false then tcCompile s else .ok s

/-- APPLY after its checks (R85). -/
def applyBody (base len width height : Word) (s : State) : Except State State :=
  match compileIfNeeded (latchApply base len width height s) with
  | .ok t => pixelLoop (pixelCount width height).toNat (t.setPixIdx 0)
  | .error t => .error t

/-- APPLY (R85). -/
def execApply (base len width height : Word) (s : State) : Host.Outcome State Fault Refusal :=
  settle <|
    match applyCheck base len width height s with
    | some c => raiseFault c s
    | none => applyBody base len width height s

end Sys2Proof.Machine
end

