-- ==== Sys2Proof/Machine/Dispatch.lean ====
section
/-!
DEFINITION. One arm per command: its rule, run after the issue checks of R114 have passed.
-/

namespace Sys2Proof.Machine

def exec (i : Instr) (s : State) : Host.Outcome State Fault Refusal :=
  match i with
  | .init p gains matrix => Sys2Proof.Machine.execInit p gains matrix s
  | .apply base len width height => Sys2Proof.Machine.execApply base len width height s
  | .pmin => Sys2Proof.Machine.execPmin s
  | .pmax => Sys2Proof.Machine.execPmax s
  | .defp lux => Sys2Proof.Machine.execDefp lux s

end Sys2Proof.Machine
end

