-- ==== Sys2Proof/Machine/HostPort.lean ====
section
/-!
DEFINITION. Command issue (spec/60_exceptions.md R114), what becomes of a command in flight that is abandoned (R114, R132),
CrRead (spec/30_encoding.md R57), the host's access to PIXMEM (spec/10_state.md R16), and one step of the machine with its
host: the host's next action, or the sequencer's own.
-/

namespace Sys2Proof.Machine

/-- The host's remaining actions become `port`. -/
def State.setPort (s : State) (port : List HostEvent) : State := s.withEnv { s.env with port := port }

/-- The command in flight becomes `i`. -/
def State.setInFlight (s : State) (i : Option Instr) : State := s.withEnv { s.env with inFlight := i }

/-- The buffer of the command issued last becomes `b`. -/
def State.setBuffer (s : State) (b : Option (Word × Word)) : State := s.withEnv { s.env with buffer := b }

/-- The buffer a command names: APPLY's `[base, base + len)` (R30, R85); no other command names one. -/
def bufferOf : Instr → Option (Word × Word)
  | .init _ _ _ => none
  | .apply base len _ _ => some (base, len)
  | .pmin => none
  | .pmax => none
  | .defp _ => none

/-- The host's last read returned `w`. -/
def State.setHostData (s : State) (w : Word) : State := s.withEnv { s.env with hostData := w }

/-- The free values of this step are used up. -/
def State.nextFree (s : State) : State := s.withEnv { s.env with freeCount := s.env.freeCount + 1 }

/-- The presented words that a descriptor did not take stay presented. -/
def State.keepWords (s : State) (ws : List Word) : State :=
  if ws = [] then s else s.setPort ({ act := .present ws, hasty := false } :: s.env.port)

/-- Whether the host's next action does not wait for the command just issued (R135). -/
def State.nextHasty (s : State) : Bool :=
  match s.env.port with
  | [] => false
  | e :: _ => e.hasty

/-- Whether an outcome is a state with a fault recorded. -/
def faulted : Host.Outcome State Fault Refusal → Bool
  | .next t => t.status.fault != .none
  | .fault _ => true
  | .refused _ => true

/-- Start a legal command (R114): BUSY <- 1 and run its rule, one transition as the host sees it (R9). The buffer it names is
not the host's from here on while BUSY = 1 (R38, R137). Where the host's next action does not wait, a command that raises no
fault is left in flight (notes/assumptions/10.md). -/
def startCommand (i : Instr) (s : State) : Host.Outcome State Fault Refusal :=
  let t := (s.setBusy true).setBuffer (bufferOf i)
  if t.nextHasty && !faulted (exec i t) then .next (t.setInFlight (some i)) else exec i t

/-- The words of an abandoned APPLY's buffer (U5, U18): each its old or its remapped value. -/
def abandonPixels (free : Nat → Bool) (base : Word) : Nat → State → State
  | 0, s => s
  | n + 1, s =>
    let t := abandonPixels free base n s
    let a := base + BitVec.ofNat 32 n
    match remapWord t (memRead t a) with
    | some w => if free n then memWrite t a w else t
    | none => t

/-- The state with PLUT as the APPLY in flight uses it (R85). -/
def plutInUse (s : State) : State :=
  match compileIfNeeded s with
  | .ok t => t
  | .error t => t

/-- The value a command in flight was about to write into RESULT, if it was. -/
def pendingResult (i : Instr) (s : State) : Option Word :=
  match exec i s with
  | .next t => t.result
  | .fault _ => none
  | .refused _ => none

/-- The sequencer registers that an abandoned APPLY leaves: any value (R19, U17), since no rule says how far it had latched and
advanced them; DEDUCED, notes/assumptions/6.md. -/
def seqFree (s : State) : Sequencer :=
  { pixIdx := Config.freePixIdx s.env.freeCount, base := Config.freeBase s.env.freeCount,
    len := Config.freeLen s.env.freeCount, width := Config.freeWidth s.env.freeCount,
    height := Config.freeHeight s.env.freeCount }

/-- A command in flight is abandoned at an unspecified point (R114, R130): what it had written of the buffer or of RESULT
by then is a free choice (notes/assumptions/11.md), and an APPLY leaves free values in the sequencer registers (`seqFree`).
The other commands do not use those registers, and keeping them is the model's choice (DESIGN CHOICE,
notes/assumptions/6.md). -/
def abandonCommand (s : State) : State :=
  match s.env.inFlight with
  | some (.apply base len _ _) =>
    (s.withPixmem (abandonPixels (Config.freeRemapped s.env.freeCount) base (unsigned len) (plutInUse s)).pixmem).withSeq
      (seqFree s)
  | some i => if Config.freeResultWritten s.env.freeCount then s.withResult (pendingResult i s) else s
  | none => s

/-- An element whose content F_OVERLAP leaves unspecified: any value; one that was unwritten may also stay so, one that was
written stays written, since only reset un-writes (R114, R130, R132). -/
def anyContent {α : Type} (v : α) (written : Bool) : Option α → Option α
  | some _ => some v
  | none => if written then some v else none

/-- GAIN after F_OVERLAP (U5). -/
def gainFree (s : State) : Vector (Option ExactReal) 256 :=
  tabulate 256 fun i =>
    anyContent (Config.freeGain s.env.freeCount i.val) (Config.freeGainWritten s.env.freeCount i.val) s.gain[i]

/-- PLUT after F_OVERLAP: every populated entry any value, the others as ever (U5, R15). -/
def plutFree (s : State) : Vector (Vector (Option Byte) 256) 256 :=
  tabulate 256 fun i => tabulate 256 fun j =>
    if j.val ≤ i.val then
      anyContent (Config.freePlut s.env.freeCount i.val j.val) (Config.freePlutWritten s.env.freeCount i.val j.val)
        s.plut[i][j]
    else s.plut[i][j]

/-- PARAM, GAIN, PLUT, GAIN_VALID and PLUT_VALID after F_OVERLAP: any value (R114, U5). -/
def unspecify (s : State) : State :=
  { s with
    param := anyContent (Config.freeParam s.env.freeCount) (Config.freeParamWritten s.env.freeCount) s.param,
    gain := gainFree s,
    plut := plutFree s,
    status := { s.status with
      gainValid := Config.freeGainValid s.env.freeCount, plutValid := Config.freePlutValid s.env.freeCount } }

/-- F_OVERLAP (R114): the command in flight is abandoned, the fault is recorded, BUSY stays 1. What PIX_IDX, A_BASE, A_LEN, A_W
and A_H hold then is said at `abandonCommand` (R19, U17, notes/assumptions/6.md). -/
def overlap (s : State) : State := (((unspecify (abandonCommand s)).setFault .overlap).setInFlight none).nextFree

/-- Issue (R114) of the presented words: dropped where a fault is recorded, F_OVERLAP where BUSY = 1, F_ILLEGAL for an
illegal header, else the command starts. READY = 1 here (R131: `hostStep`). Of a legal header with fewer words than it tells
the spec says nothing; DESIGN CHOICE, notes/assumptions/3.md: the checks of FAULT and BUSY come first, as R114 orders them, so
those words are dropped or record F_OVERLAP as a whole descriptor would, and are refused only where they would be decoded. -/
def issue (ws : List Word) (s : State) : Host.Outcome State Fault Refusal :=
  if ws = [] then .next s
  else if s.status.fault ≠ .none then .next (s.keepWords (ws.drop (descriptorLength ws)))
  else if s.status.busy then .next (overlap (s.keepWords (ws.drop (descriptorLength ws))))
  else match decode ws with
    | .ok (i, rest) => startCommand i (s.keepWords rest)
    | .error .incomplete => .refused .descriptorIncomplete
    | .error _ => settle (raiseFault .illegal (((s.keepWords (ws.drop 1)).setBusy true).setBuffer none))

/-- The value CrRead(n) returns (R57, R21): STATUS, RESULT, or 0; any value where RESULT is not readable (U6). -/
def crValue (n : Nat) (s : State) : Word :=
  match n with
  | 0 => statusWord s.status
  | 1 => if s.status.busy then Config.freeWord s.env.freeCount else s.result.getD (Config.freeWord s.env.freeCount)
  | _ => 0#32

/-- Whether a word is not the host's (R38, R137): it belongs to the buffer of the APPLY issued last, and BUSY = 1, so that
its completion cannot have been observed. That holds of an APPLY in flight, of one that its own fault stopped, and of one
that F_OVERLAP abandoned. A descriptor that is dropped starts no command and names no buffer (DESIGN CHOICE,
notes/assumptions/14.md). -/
def inBuffer (a : Word) (s : State) : Bool :=
  match s.env.buffer with
  | some (base, len) => s.status.busy && unsigned base ≤ unsigned a && unsigned a < unsigned base + unsigned len
  | none => false

/-- One action of the host, taken from the queue. -/
def hostAct (act : HostAction) (s : State) : Host.Outcome State Fault Refusal :=
  match act with
  | .present ws => issue ws s
  | .crRead n => .next ((s.setHostData (crValue n s)).nextFree)
  | .reset => .next ((resetBegin (abandonCommand s)).nextFree)
  | .pixRead a => if inBuffer a s then .refused .hostInBuffer else .next (s.setHostData (memRead s a))
  | .pixWrite a v => if inBuffer a s then .refused .hostInBuffer else .next (memWrite s a v)

/-- The sequencer's own step: end a reset (R130), carry out the command in flight, or nothing to do. -/
def progress (s : State) : Host.Outcome State Fault Refusal :=
  if s.status.ready = false then .next (resetFinish s)
  else match s.env.inFlight with
    | some i => exec i (s.setInFlight none)
    | none => .next s

/-- Whether a reset or a command is in progress. -/
def State.active (s : State) : Bool := !s.status.ready || s.env.inFlight.isSome

/-- Whether an action presents words at the command port. -/
def HostAction.presents : HostAction → Bool
  | .present _ => true
  | _ => false

/-- Whether an action of the host comes only after the reset or command in progress: the host waits for it, or the port
does not accept the words while READY = 0 (R114, R131). -/
def mustWait (e : HostEvent) (s : State) : Bool :=
  (s.active && !e.hasty) || (!s.status.ready && e.act.presents)

/-- One step of the machine with its host. -/
def hostStep (s : State) : Host.Outcome State Fault Refusal :=
  match s.env.port with
  | [] => progress s
  | e :: rest => if mustWait e s then progress s else hostAct e.act (s.setPort rest)

/-- The state in which the host has presented one instruction of the opcode table and nothing else: its low `nbits` bits
`w`, the bits above them 0, as many words as the longest descriptor has. -/
def presentTableWord (s : State) (nbits w : Nat) : State :=
  s.setPort [{ act := .present (tableWords nbits w), hasty := false }]

end Sys2Proof.Machine
end

