-- ==== Sys2Proof/Machine/Step.lean ====
section
/-!
DEFINITION. One step of the machine, and the state with one instruction of the opcode table presented next.
-/

namespace Sys2Proof.Machine

/-- One step: the host's next action or the sequencer's own (`hostStep`). A command that the host presents and waits for is
issued and carried out in one step (R9, R114). -/
def step (s : State) : Host.Outcome State Fault Refusal := hostStep s

/-- `s` with one instruction presented at the command port, where `step` takes its next instruction from. -/
def State.withFetchWord (s : State) (nbits w : Nat) : State := presentTableWord s nbits w

end Sys2Proof.Machine
end

