-- ==== Sys2Proof/Safety.lean ====
section
/-!
DEFINITION. The terms in which claims about the machine are made: the real number an `ExactReal` stands for, when a state
can take a command, and the invariants of the state between steps (spec/10_state.md R15, R16, R27).
-/

namespace Sys2Proof

/-- The real number a `Real` of the rules stands for (R6: under REAL each operation is the exact function). -/
noncomputable def ExactReal.val : ExactReal → ℝ
  | .rat q => q
  | .add a b => a.val + b.val
  | .sub a b => a.val - b.val
  | .mul a b => a.val * b.val
  | .div a b => a.val / b.val
  | .pow a b => a.val ^ b.val
  | .exp2 a => 2 ^ a.val
  | .log2 a => Real.logb 2 a.val

/-- Every operation of the expression has its operands in the domain that R6 gives it: no division by 0, no power of a
negative base (nor of 0 to an exponent that is not positive), a logarithm of a positive number only. -/
def ExactReal.Defined : ExactReal → Prop
  | .rat _ => True
  | .add a b => a.Defined ∧ b.Defined
  | .sub a b => a.Defined ∧ b.Defined
  | .mul a b => a.Defined ∧ b.Defined
  | .div a b => a.Defined ∧ b.Defined ∧ b.val ≠ 0
  | .pow a b => a.Defined ∧ b.Defined ∧ (0 < a.val ∨ (a.val = 0 ∧ 0 < b.val))
  | .exp2 a => a.Defined
  | .log2 a => a.Defined ∧ 0 < a.val

/-- `trunc` of spec/00_scope.md 6.2 on the real numbers: the integer part toward zero. -/
noncomputable def truncReal (x : ℝ) : ℤ := if 0 ≤ x then ⌊x⌋ else ⌈x⌉

end Sys2Proof

namespace Sys2Proof.Machine

/-- The command port takes a descriptor (R114): READY = 1, no fault recorded, no command in flight. -/
def Idle (s : State) : Prop :=
  s.status.ready = true ∧ s.status.fault = .none ∧ s.status.busy = false ∧ s.env.inFlight = none

/-- GTL and LTG hold the values of R60 and R61 (R27 item 1). -/
def TablesBuilt (s : State) : Prop :=
  s.gtl = buildGtl s.num ∧ s.ltg = buildLtg s.num s.env.cfg.ltgDen

/-- Every entry of GAIN is written (R14). -/
def GainWritten (s : State) : Prop := ∀ i : Fin 256, (s.gain[i]).isSome = true

/-- Every populated entry of PLUT is written (R15). -/
def PlutWritten (s : State) : Prop := ∀ i j : Fin 256, j ≤ i → (s.plut[i][j]).isSome = true

/-- PARAM is written and GAIN is TC.GAIN(TC.LUX(PARAM)) (R27 item 2). -/
def GainOfParam (s : State) : Prop :=
  ∃ p, s.param = some p ∧ ∀ i : Fin 256, s.gain[i] = some (gainEntry s.num (tcLux s.num p) s.gtl[i])

/-- PLUT is the compile of the current GAIN (R27 item 3). -/
def PlutOfGain (s : State) : Prop :=
  ∀ i j : Fin 256, j ≤ i → ∃ g, s.gain[i] = some g ∧ s.plut[i][j] = some (plutEntry s g j)

/-- The entries of PLUT above the diagonal hold no value (R15). -/
def Triangular (s : State) : Prop := ∀ i j : Fin 256, i < j → s.plut[i][j] = none

/-- R27 items 1 to 3, in the states reached without a fault. -/
def Coherent (s : State) : Prop :=
  (s.status.ready = true → TablesBuilt s) ∧
  (s.status.ready = true → s.status.fault = .none → s.status.gainValid = true → GainOfParam s) ∧
  (s.status.ready = true → s.status.fault = .none → s.status.plutValid = true →
    s.status.gainValid = true ∧ PlutOfGain s) ∧
  (s.status.ready = false → s.status.gainValid = false ∧ s.status.plutValid = false)

/-- BUSY is 1 exactly while a command is in flight or a fault stopped it (R17, R113, R119); a command is in flight only
in a ready block without a fault, and the buffer on record is the one it names (R38). -/
def Sequenced (s : State) : Prop :=
  (s.env.inFlight.isSome = true → s.status.ready = true ∧ s.status.fault = .none ∧ s.status.busy = true) ∧
  (s.status.busy = true → s.env.inFlight.isSome = true ∨ s.status.fault ≠ .none) ∧
  (s.status.fault ≠ .none → s.status.ready = true ∧ s.status.busy = true) ∧
  (∀ i, s.env.inFlight = some i → s.env.buffer = bufferOf i)

/-- The host waits for the block before each of its remaining actions (R135), and nothing is in flight. -/
def Waiting (s : State) : Prop := s.env.inFlight = none ∧ ∀ e ∈ s.env.port, e.hasty = false

/-! ### Descriptors and buffers -/

/-- R53: OPC is 0x00 or 0x06 to 0xFF, or bits 31:9 are not all zero, or M = 1 and OPC is not 0x01. -/
def IllegalHeader (w : Word) : Prop :=
  (w.toNat % 256 = 0 ∨ 6 ≤ w.toNat % 256) ∨ w.toNat / 512 ≠ 0 ∨ (w.getLsbD 8 = true ∧ w.toNat % 256 ≠ 1)

/-- The word is one of the buffer `[base, base + len)` (R30). -/
def InBuffer (base len a : Word) : Prop := base.toNat ≤ a.toNat ∧ a.toNat < base.toNat + len.toNat

/-- R85, R110: what an APPLY needs to run through: an INIT completed, dimensions that are not negative, a length equal to
their product, a buffer inside the index space. -/
def Accepted (base len width height : Word) (s : State) : Prop :=
  s.status.gainValid = true ∧ 0 ≤ width.toInt ∧ 0 ≤ height.toInt ∧ width.toInt * height.toInt = (len.toNat : ℤ) ∧
    base.toNat + len.toNat ≤ 2 ^ 32

/-- The machine with another setting of PLUT_CACHE (R43). -/
def State.withPlutCache (s : State) (c : PlutCache) : State :=
  s.withEnv { s.env with cfg := { s.env.cfg with plutCache := c } }

/-- The machine has the reference arithmetic and the spec's LTG_DEN (R6, R61). -/
def Reference (s : State) : Prop := s.env.cfg.numerics = .real ∧ s.env.cfg.ltgDen = 1024

/-! ### The rules over the real numbers -/

/-- `clamp` of spec/00_scope.md 6.2. -/
noncomputable def clampReal (v lo hi : ℝ) : ℝ := if v < lo then lo else if hi < v then hi else v

/-- The knee constants `k1` and `y1` of R71 from `x1`. -/
noncomputable def kneeGainReal (x1 : ℝ) : ℝ := (0.5 - x1) * 8

noncomputable def kneeYReal (x1 : ℝ) : ℝ := kneeGainReal x1 * x1

/-- The gain at the linear value `t` (R72). -/
noncomputable def gainReal (lux t : ℝ) : ℝ :=
  if t < lux / 10000 then kneeGainReal (lux / 10000)
  else (kneeYReal (lux / 10000)
    + (t - lux / 10000) * (1 - kneeYReal (lux / 10000)) / (1 - lux / 10000)) / t

/-- The sRGB transfer function (R60). -/
noncomputable def gtlReal (g : ℝ) : ℝ := if g ≤ 0.04045 then g / 12.92 else ((g + 0.055) / 1.055) ^ (2.4 : ℝ)

end Sys2Proof.Machine
end

