-- ==== Sys2Proof/Certificates/Slice0/Obligations.lean ====
section
/-!
DEFINITION. The statements for the provers, from the numbered rules of spec/. OBLIGATIONS.json lists them; the witnesses of
their hypotheses stand in Sys2Proof/Tests/Slice0.lean. A statement about `step` speaks of the host through the model's own
queue of host actions and its mark `hasty` (notes/assumptions/3.md, 10.md).
-/

open Sys2Proof Sys2Proof.Machine

/-! ### Encoding (spec/30_encoding.md) -/

/-- R46 to R52: every command, with every operand at every value, is read back from its descriptor, and the words after
the descriptor are left. -/
def Obligations.DecodeEncodeAgree : Prop :=
  ∀ (i : Instr) (rest : List Word), i.WellFormed → decode (encode i ++ rest) = .ok (i, rest)

/-- R46 to R53: words that decode are exactly the descriptor of the command they decode to, so no bit of them is dropped. -/
def Obligations.EncodeDecodeAgree : Prop :=
  ∀ (ws rest : List Word) (i : Instr), decode ws = .ok (i, rest) → i.WellFormed ∧ ws = encode i ++ rest

/-- R54: the length is told from the header alone and is 1, 2, 5 or 14; for a legal header OPC gives the format and, in
format I, M adds the nine matrix words. -/
def Obligations.LengthFromHeader : Prop :=
  (∀ (w : Word) (ws ws' : List Word), descriptorLength (w :: ws) = descriptorLength (w :: ws')) ∧
  (∀ (w : Word) (ws : List Word), descriptorLength (w :: ws) ∈ [1, 2, 5, 14]) ∧
  (∀ (w : Word) (ws : List Word), ¬ IllegalHeader w → descriptorLength (w :: ws) =
    if w.toNat % 256 = 1 then (if w.getLsbD 8 then 5 + 9 else 5)
    else if w.toNat % 256 = 2 then 5 else if w.toNat % 256 = 5 then 2 else 1) ∧
  (∀ (i : Instr) (rest : List Word), i.WellFormed → descriptorLength (encode i ++ rest) = (encode i).length)

/-- R53: the illegal headers are exactly those named there; one is a one-word descriptor and raises F_ILLEGAL with BUSY
set and no other effect on the block, the words after it staying presented; a header that is not illegal spells a command,
whatever its operand words, once they are presented. -/
def Obligations.IllegalHeaders : Prop :=
  (∀ (w : Word) (ws : List Word), IllegalHeader w →
    (∃ e, decode (w :: ws) = .error e ∧ e ≠ .incomplete ∧ e ≠ .noHeader) ∧ descriptorLength (w :: ws) = 1) ∧
  (∀ (w : Word) (ws : List Word), ¬ IllegalHeader w → descriptorLength (w :: ws) ≤ (w :: ws).length →
    ∃ i, decode (w :: ws) = .ok (i, (w :: ws).drop (descriptorLength (w :: ws)))) ∧
  (∀ (s : State) (w : Word) (ws : List Word) (h : Bool) (events : List HostEvent),
    Idle s → IllegalHeader w → s.env.port = ⟨.present (w :: ws), h⟩ :: events →
    step s = .next { s with
      status := { s.status with busy := true, fault := .illegal },
      env := { s.env with port := if ws = [] then events else ⟨.present ws, false⟩ :: events, buffer := none } })

/-- R46 to R53 with the table of spec/95_test_vectors.md 2.10: a word of each command, and illegal headers. -/
def Obligations.SpecWordsDecode : Prop :=
  decode [0x00000001#32, 0x3F000000#32, 0x3F800000#32, 0x40000000#32, 0x7FC00000#32]
    = .ok (.init 0x3F000000#32 ⟨0x3F800000#32, 0x40000000#32, 0x7FC00000#32⟩ none, []) ∧
  decode [0x00000101#32, 0x40A00000#32, 0x3FC00000#32, 0x3F800000#32, 0x3F000000#32, 1#32, 2#32, 3#32, 4#32, 5#32, 6#32, 7#32,
      8#32, 9#32]
    = .ok (.init 0x40A00000#32 ⟨0x3FC00000#32, 0x3F800000#32, 0x3F000000#32⟩
        (some [1#32, 2#32, 3#32, 4#32, 5#32, 6#32, 7#32, 8#32, 9#32]), []) ∧
  decode [0x00000002#32, 0x00000100#32, 0x00000004#32, 0xFFFFFFFE#32, 0x00000002#32]
    = .ok (.apply 0x00000100#32 0x00000004#32 0xFFFFFFFE#32 0x00000002#32, []) ∧
  decode [0x00000003#32] = .ok (.pmin, []) ∧
  decode [0x00000004#32] = .ok (.pmax, []) ∧
  decode [0x00000005#32, 0x000003E8#32] = .ok (.defp 0x000003E8#32, []) ∧
  decode [0x00000000#32] = .error (.opcode 0x00#8) ∧
  decode [0x00000006#32] = .error (.opcode 0x06#8) ∧
  decode [0x00000102#32] = .error .matrixOutsideInit ∧
  decode [0x00000201#32] = .error .reservedBits ∧
  decode [0x80000001#32] = .error .reservedBits

/-! ### Issue and the step (spec/60_exceptions.md R113 to R116, spec/00_scope.md R9) -/

/-- R114: presented words that decode to a command start it. BUSY is set, the buffer it names is put on record, and the step is the command's rule, unless the
host's next action does not wait and the command raises no fault: then the command is in flight. -/
def Obligations.StepRunsDecodedCommand : Prop :=
  ∀ (s : State) (ws rest : List Word) (h : Bool) (events : List HostEvent) (i : Instr),
    Idle s → s.env.port = ⟨.present ws, h⟩ :: events → decode ws = .ok (i, rest) →
    let t := (((s.setPort events).keepWords rest).setBusy true).setBuffer (bufferOf i)
    (t.nextHasty = false → step s = exec i t) ∧
    (t.nextHasty = true → faulted (exec i t) = true → step s = exec i t) ∧
    (t.nextHasty = true → faulted (exec i t) = false → step s = .next (t.setInFlight (some i)))

/-- R9: the command in flight is carried out by its rule in one transition, as soon as the host has nothing more to do
before it. -/
def Obligations.CommandInFlightRuns : Prop :=
  ∀ (s : State) (i : Instr), s.status.ready = true → s.env.inFlight = some i → s.nextHasty = false →
    step s = exec i (s.setInFlight none)

/-- R9, R17, R119: a host that reads STATUS between the issue and the completion of a command sees BUSY = 1 and FAULT = 0
and changes nothing by it: the command ends in the state it would have ended in had the host waited, but for what the host
read. -/
def Obligations.BusySeenInFlight : Prop :=
  ∀ (s u : State) (i : Instr) (events : List HostEvent),
    Idle s → i.WellFormed → s.env.port = ⟨.present (encode i), false⟩ :: ⟨.crRead 0, true⟩ :: events →
    (s.setPort events).nextHasty = false →
    exec i (((s.setPort events).setBusy true).setBuffer (bufferOf i)) = .next u → u.status.fault = .none →
    ∃ s1 s2, step s = .next s1 ∧ step s1 = .next s2 ∧
      s2.env.hostData = statusWord { s.status with busy := true } ∧
      step s2 = .next { u with env := { u.env with hostData := s2.env.hostData, freeCount := s2.env.freeCount } }

/-- R113: a block with nothing to do (no command, no reset, no host action) makes no step of its own, stopped by a fault or
not. -/
def Obligations.NothingToDo : Prop :=
  ∀ s : State, s.status.ready = true → s.env.inFlight = none → s.env.port = [] → step s = .next s

/-- R114, R116: after a recorded fault a descriptor is dropped; no state of the block changes. The model's own reading, not the
spec's: that presented words which are no whole descriptor are dropped as well, and that the words after a descriptor stay
presented in the host's queue (DESIGN CHOICE, notes/assumptions/3.md). -/
def Obligations.DroppedAfterFault : Prop :=
  ∀ (s : State) (ws : List Word) (h : Bool) (events : List HostEvent),
    s.status.ready = true → s.status.fault ≠ .none → s.env.inFlight = none → ws ≠ [] →
    s.env.port = ⟨.present ws, h⟩ :: events →
    step s = .next ((s.setPort events).keepWords (ws.drop (descriptorLength ws)))

/-- R114: a descriptor presented while a command is in flight records F_OVERLAP and is dropped. BUSY stays 1, the command is
abandoned, GTL, LTG and the parameters stay, entries of PLUT above the diagonal hold no value, what was
written of GAIN stays written (R132), and a word of PIXMEM changes only if it belongs to the buffer of the APPLY that was in
flight, then to its remapped value. The model's own reading: that what was written of PARAM and PLUT stays written too, and
that RESULT is as before or as the abandoned PMIN, PMAX or DEFP would have left it (DEDUCED, notes/assumptions/11.md); that
words which are no whole descriptor record F_OVERLAP as well (DESIGN CHOICE, notes/assumptions/3.md); and that the buffer on
record stays that of the abandoned command also where the dropped words are an APPLY's descriptor (DESIGN CHOICE,
notes/assumptions/14.md). -/
def Obligations.OverlapRecorded : Prop :=
  ∀ (s : State) (i : Instr) (ws : List Word) (events : List HostEvent),
    Sequenced s → Pixmem.wf s.pixmem = true → Triangular s → s.env.inFlight = some i →
    (∀ base len width height, i = .apply base len width height → base.toNat + len.toNat ≤ 2 ^ 32) →
    ws ≠ [] → s.env.port = ⟨.present ws, true⟩ :: events →
    ∃ t, step s = .next t ∧
      t.status.fault = .overlap ∧ t.status.busy = true ∧ t.status.ready = true ∧
      t.env.inFlight = none ∧ t.env.cfg = s.env.cfg ∧ t.env.buffer = s.env.buffer ∧
      t.env.port = (if ws.drop (descriptorLength ws) = [] then events
        else ⟨.present (ws.drop (descriptorLength ws)), false⟩ :: events) ∧
      t.gtl = s.gtl ∧ t.ltg = s.ltg ∧ Triangular t ∧
      (s.param.isSome = true → t.param.isSome = true) ∧
      (∀ k : Fin 256, (s.gain[k]).isSome = true → (t.gain[k]).isSome = true) ∧
      (∀ k j : Fin 256, (s.plut[k][j]).isSome = true → (t.plut[k][j]).isSome = true) ∧
      (t.result = s.result ∨
        (i = .pmin ∨ i = .pmax ∨ ∃ lux, i = .defp lux) ∧ ∃ u, exec i s = .next u ∧ t.result = u.result) ∧
      (∀ a, memRead t a = memRead s a ∨
        ∃ base len width height, i = .apply base len width height ∧ InBuffer base len a ∧
          remapWord (plutInUse s) (memRead s a) = some (memRead t a))

/-- R114: with a host that waits for the block before each of its actions, F_OVERLAP cannot occur. -/
def Obligations.NoOverlapForWaitingHost : Prop :=
  ∀ s t : State, Sequenced s → Waiting s → s.status.fault ≠ .overlap → step s = .next t →
    Waiting t ∧ t.status.fault ≠ .overlap

/-- R115, R116: a recorded fault is kept by every step but the reset event, with BUSY = 1. The model's own reading: the buffer
on record is kept too, also where an APPLY's descriptor is dropped, which takes no words from the host (DESIGN CHOICE,
notes/assumptions/14.md). -/
def Obligations.FirstFaultKept : Prop :=
  ∀ s t : State, Sequenced s → s.status.fault ≠ .none →
    (∀ h events, s.env.port ≠ ⟨.reset, h⟩ :: events) → step s = .next t →
    t.status.fault = s.status.fault ∧ t.status.busy = true ∧ t.env.buffer = s.env.buffer

/-- R117: a command that faults changes STATUS.FAULT and nothing else (F_UNWRITTEN, which no run reaches, apart). -/
def Obligations.FaultsArePrecise : Prop :=
  ∀ (i : Instr) (s t : State), exec i s = .next t → s.status.fault = .none → t.status.fault ≠ .none →
    t.status.fault ≠ .unwritten →
    t = { s with status := { s.status with fault := t.status.fault } }

/-- R113: no command stops the machine: its rule always answers a next state. -/
def Obligations.EveryCommandAnswers : Prop := ∀ (i : Instr) (s : State), ∃ t, exec i s = .next t

/-- The model's own (notes/assumptions/3.md): a legal header with fewer words than it tells is refused by name. -/
def Obligations.IncompleteDescriptorRefused : Prop :=
  ∀ (s : State) (w : Word) (ws : List Word) (h : Bool) (events : List HostEvent),
    Idle s → ¬ IllegalHeader w → (w :: ws).length < descriptorLength (w :: ws) →
    s.env.port = ⟨.present (w :: ws), h⟩ :: events → step s = .refused .descriptorIncomplete

/-- R38, R137, U4: while BUSY = 1 the host has no move on the words of the buffer of the APPLY issued last, be it in flight
or stopped by a fault; a word outside it is the host's. -/
def Obligations.BufferIsTheBlocks : Prop :=
  ∀ (s : State) (base len a v : Word) (h : Bool) (events : List HostEvent),
    s.status.ready = true → s.status.busy = true → s.env.buffer = some (base, len) →
    (h = true ∨ s.env.inFlight = none) →
    (s.env.port = ⟨.pixRead a, h⟩ :: events →
      (InBuffer base len a → step s = .refused .hostInBuffer) ∧
      (¬ InBuffer base len a → step s = .next ((s.setPort events).setHostData (memRead s a)))) ∧
    (s.env.port = ⟨.pixWrite a v, h⟩ :: events →
      (InBuffer base len a → step s = .refused .hostInBuffer) ∧
      (¬ InBuffer base len a → step s = .next (memWrite (s.setPort events) a v)))

/-! ### Reset (spec/10_state.md R26, spec/70_reset_and_hazards.md R130 to R132) -/

/-- R26: the state after reset holds the values the spec gives (the words of PIXMEM and the sequencer registers, which the
spec gives none, apart). -/
def Obligations.ResetValues : Prop :=
  statusWord State.reset.status = 0x00000001#32 ∧
  State.reset.param = none ∧ State.reset.result = none ∧
  (∀ i : Fin 256, State.reset.gain[i] = none) ∧
  (∀ i j : Fin 256, State.reset.plut[i][j] = none) ∧
  (∀ i : Fin 256, State.reset.gtl[i] = gtlEntry Numerics.real i) ∧
  (∀ k : Fin 1025, State.reset.ltg[k] = ltgEntry Numerics.real 1024 k) ∧
  State.reset.env.inFlight = none

/-- R130: the reset event clears STATUS, un-writes PARAM, GAIN, PLUT and RESULT, abandons the command in flight and, unless
that is an APPLY, touches no word of PIXMEM; then GX.BUILD fills the tables and READY is 1, and nothing else changes. -/
def Obligations.ResetEvent : Prop :=
  ∀ (s : State) (h : Bool) (events : List HostEvent),
    s.env.port = ⟨.reset, h⟩ :: events → (h = true ∨ s.active = false) →
    ∃ t, step s = .next t ∧
      statusWord t.status = 0x00000000#32 ∧ t.param = none ∧ t.result = none ∧
      (∀ i : Fin 256, t.gain[i] = none) ∧ (∀ i j : Fin 256, t.plut[i][j] = none) ∧
      t.env.inFlight = none ∧ t.env.buffer = none ∧ t.env.port = events ∧
      ((∀ base len width height, s.env.inFlight ≠ some (.apply base len width height)) → t.pixmem = s.pixmem) ∧
      (t.nextHasty = false → ∃ u, step t = .next u ∧ statusWord u.status = 0x00000001#32 ∧ TablesBuilt u ∧
        u = { t with gtl := u.gtl, ltg := u.ltg, status := u.status })

/-- R132: a reset during an APPLY in flight leaves each word of its buffer either old or remapped, and every other word as
it was. -/
def Obligations.ResetDuringApply : Prop :=
  ∀ (s : State) (base len width height : Word) (events : List HostEvent),
    Pixmem.wf s.pixmem = true → base.toNat + len.toNat ≤ 2 ^ 32 →
    s.env.inFlight = some (.apply base len width height) → s.env.port = ⟨.reset, true⟩ :: events →
    ∃ t, step s = .next t ∧
      ∀ a, memRead t a = memRead s a ∨
        (InBuffer base len a ∧ remapWord (plutInUse s) (memRead s a) = some (memRead t a))

/-- R131: while READY = 0 the port takes no descriptor, presented in haste or not: the step ends the reset and the words
stay presented. -/
def Obligations.PortClosedDuringReset : Prop :=
  ∀ (s : State) (ws : List Word) (h : Bool) (events : List HostEvent),
    s.status.ready = false → s.env.port = ⟨.present ws, h⟩ :: events →
    ∃ t, step s = .next t ∧ t.status.ready = true ∧ TablesBuilt t ∧ t.env = s.env ∧
      t = { s with gtl := t.gtl, ltg := t.ltg, status := { s.status with ready := true } }

/-! ### Control registers (spec/10_state.md R17, R21, spec/30_encoding.md R57) -/

/-- R57, R21: a control register read returns STATUS, RESULT (BUSY = 0 and RESULT written) or 0, and changes no state of the
block; no condition on a register read in haste while a command or a reset is in progress. -/
def Obligations.ControlRegisterReads : Prop :=
  ∀ (s : State) (n : Nat) (h : Bool) (events : List HostEvent),
    s.env.port = ⟨.crRead n, h⟩ :: events → (h = true ∨ s.active = false) →
    ∃ t, step s = .next t ∧ t = { s with env := t.env } ∧
      t.env.port = events ∧ t.env.inFlight = s.env.inFlight ∧ t.env.buffer = s.env.buffer ∧ t.env.cfg = s.env.cfg ∧
      (n = 0 → t.env.hostData = statusWord s.status) ∧
      (∀ w, n = 1 → s.status.busy = false → s.result = some w → t.env.hostData = w) ∧
      (2 ≤ n → t.env.hostData = 0#32)

/-- R17, R112: the fields of STATUS in the word the host reads: READY bit 0, GAIN_VALID bit 1, PLUT_VALID bit 2, BUSY bit 3,
the fault code bits 7:4, zeros above; and the numbers of the codes. -/
def Obligations.StatusLayout : Prop :=
  (∀ t : Status, (statusWord t).getLsbD 0 = t.ready ∧ (statusWord t).getLsbD 1 = t.gainValid ∧
    (statusWord t).getLsbD 2 = t.plutValid ∧ (statusWord t).getLsbD 3 = t.busy ∧
    (statusWord t).extractLsb' 4 4 = t.fault.code ∧ (statusWord t).extractLsb' 8 24 = 0#24) ∧
  FaultCode.none.code = 0#4 ∧ FaultCode.illegal.code = 1#4 ∧ FaultCode.overlap.code = 2#4 ∧ FaultCode.param.code = 3#4 ∧
  FaultCode.noGain.code = 4#4 ∧ FaultCode.geom.code = 5#4 ∧ FaultCode.unwritten.code = 6#4

/-! ### PIXMEM (spec/20_memory.md) -/

/-- R30: a word the host writes is what it reads at that index, and every other word is as before (in a block that is doing
nothing, at words that are the host's). -/
def Obligations.HostWriteThenRead : Prop :=
  ∀ (s : State) (a b v : Word) (events : List HostEvent),
    s.active = false → Pixmem.wf s.pixmem = true →
    (∀ base len, s.status.busy = true → s.env.buffer = some (base, len) → ¬ InBuffer base len a ∧ ¬ InBuffer base len b) →
    s.env.port = ⟨.pixWrite a v, false⟩ :: ⟨.pixRead b, false⟩ :: events →
    ∃ t u, step s = .next t ∧ step t = .next u ∧ u.env.hostData = (if b = a then v else memRead s b)

/-- Every step keeps PIXMEM in its canonical form (the model's own form, notes/assumptions/4.md). -/
def Obligations.StepKeepsPixmemForm : Prop :=
  ∀ s t : State, Pixmem.wf s.pixmem = true → step s = .next t → Pixmem.wf t.pixmem = true

/-- R33: INIT, PMIN, PMAX and DEFP leave PIXMEM as it is, and so does the end of a reset. -/
def Obligations.OnlyApplyTouchesPixmem : Prop :=
  (∀ (i : Instr) (s t : State), (∀ base len width height, i ≠ .apply base len width height) →
    exec i s = .next t → t.pixmem = s.pixmem) ∧
  (∀ s t : State, s.status.ready = false → s.nextHasty = false → step s = .next t → t.pixmem = s.pixmem)

/-! ### Invariants (spec/10_state.md R11, R12, R15, R24, R27) -/

/-- R27, with R15 and the sequencing of R17: the invariants hold right after reset. -/
def Obligations.ResetMeetsInvariants : Prop :=
  Coherent State.reset ∧ Sequenced State.reset ∧ Triangular State.reset ∧ Waiting State.reset ∧
    Pixmem.wf State.reset.pixmem = true

/-- R27 items 1 to 3: every step keeps the tables, the gain curve and the pixel table coherent. -/
def Obligations.StepKeepsCoherence : Prop :=
  ∀ s t : State, Sequenced s → Coherent s → step s = .next t → Coherent t

/-- R17, R113, R119: every step keeps BUSY and FAULT in step with the command in flight. -/
def Obligations.StepKeepsSequencing : Prop :=
  ∀ s t : State, Sequenced s → step s = .next t → Sequenced t

/-- R15: no step writes an entry of PLUT above the diagonal. -/
def Obligations.StepKeepsTriangle : Prop :=
  ∀ s t : State, Triangular s → step s = .next t → Triangular t

/-- R24: F_UNWRITTEN is not reached: no step from a coherent state records it. -/
def Obligations.NoUnwrittenRead : Prop :=
  ∀ s t : State, Sequenced s → Coherent s → s.status.fault ≠ .unwritten → step s = .next t →
    t.status.fault ≠ .unwritten

/-- R11, R12: GTL and LTG are constants once READY = 1; only the end of a reset writes them. No step changes a parameter. -/
def Obligations.TablesAreConstants : Prop :=
  ∀ s t : State, step s = .next t →
    (s.status.ready = true → t.gtl = s.gtl ∧ t.ltg = s.ltg) ∧ t.env.cfg = s.env.cfg

/-! ### INIT (spec/41_tone_curve_compiler.md) -/

/-- R76: INIT with a parameter that is no NaN pattern stores it, writes all of GAIN by TC.GAIN of TC.LUX, sets GAIN_VALID,
clears PLUT_VALID and BUSY, and changes nothing else; with a NaN pattern it raises F_PARAM and changes nothing else. -/
def Obligations.InitCommand : Prop :=
  ∀ (p : Word) (gains : Gains) (matrix : Option (List Word)) (s : State),
    (¬ (p.toNat / 2 ^ 23 % 256 = 255 ∧ p.toNat % 2 ^ 23 ≠ 0) →
      ∃ t, exec (.init p gains matrix) s = .next t ∧
        t.param = some p ∧
        (∀ i : Fin 256, t.gain[i] = some (gainEntry s.num (tcLux s.num p) s.gtl[i])) ∧
        t.status = { s.status with gainValid := true, plutValid := false, busy := false } ∧
        t = { s with param := t.param, gain := t.gain, status := t.status }) ∧
    (p.toNat / 2 ^ 23 % 256 = 255 ∧ p.toNat % 2 ^ 23 ≠ 0 →
      exec (.init p gains matrix) s = .next { s with status := { s.status with fault := .param } })

/-- R77: every pattern in the gain and matrix words and both settings of M give the same result: issuing INIT with one
colorInfo or another ends in the same state. -/
def Obligations.ColorInfoIgnored : Prop :=
  ∀ (s : State) (p : Word) (gains gains' : Gains) (matrix matrix' : Option (List Word)) (events : List HostEvent),
    Idle s → (Instr.init p gains matrix).WellFormed → (Instr.init p gains' matrix').WellFormed →
    (s.setPort events).nextHasty = false →
    step (s.setPort (⟨.present (encode (.init p gains matrix)), false⟩ :: events)) =
      step (s.setPort (⟨.present (encode (.init p gains' matrix')), false⟩ :: events))

/-- R52: how a parameter pattern is read: sign, exponent field and fraction of binary32, and +0 and -0 both as 0. -/
def Obligations.ParameterReading : Prop :=
  ∀ p : Word, p.toNat / 2 ^ 23 % 256 ≠ 255 →
    ((f32Value p : ℚ) : ℝ) =
      (if p.getLsbD 31 then -1 else 1) *
        (if p.toNat / 2 ^ 23 % 256 = 0 then ((p.toNat % 2 ^ 23 : ℕ) : ℝ) * 2 ^ (-149 : ℤ)
         else (2 ^ 23 + ((p.toNat % 2 ^ 23 : ℕ) : ℝ)) * 2 ^ ((p.toNat / 2 ^ 23 % 256 : ℕ) - 150 : ℤ)) ∧
    (p = 0x00000000#32 ∨ p = 0x80000000#32 → f32Value p = 0)

/-- R70: TC.LUX is `2500 * 2^((p-10)/2)` clamped to [80, 2500], 2500 at +infinity and 80 at -infinity. -/
def Obligations.LuxFormula : Prop :=
  (tcLux Numerics.real 0x7F800000#32).val = 2500 ∧ (tcLux Numerics.real 0xFF800000#32).val = 80 ∧
  (∀ p : Word, p.toNat / 2 ^ 23 % 256 ≠ 255 →
    (tcLux Numerics.real p).val = clampReal (2500 * (2 : ℝ) ^ ((((f32Value p : ℚ) : ℝ) - 10) / 2)) 80 2500) ∧
  (∀ p : Word, (tcLux Numerics.real p).Defined)

/-- R72: an entry of GAIN is the value of the gain curve at the entry's linear value; and of GTL's entries this holds for
every parameter. -/
def Obligations.GainFormula : Prop :=
  (∀ lux t : ExactReal, lux.Defined → t.Defined → (gainEntry Numerics.real lux t).val = gainReal lux.val t.val) ∧
  (∀ (p : Word) (i : Fin 256),
    (gainEntry Numerics.real (tcLux Numerics.real p) (buildGtl Numerics.real)[i]).Defined ∧
    (gainEntry Numerics.real (tcLux Numerics.real p) (buildGtl Numerics.real)[i]).val =
      gainReal (tcLux Numerics.real p).val (gtlReal ((i.val : ℝ) / 255)))

/-- R73 items 1 to 4, of the entries that TC.GAIN computes: at the breakpoint the gain is the flat gain; at full intensity it
is 1; it never rises with the linear value and is never below 1; on the flat branch it falls as lux rises. Then of the GAIN
that INIT writes, for every parameter: entry 255 is 1, the entries do not rise with the index and are at least 1, and the
entries up to 21 are the flat gain, which does not rise with the parameter. -/
def Obligations.GainCurveShape : Prop :=
  (∀ lux : ExactReal, lux.Defined → 80 ≤ lux.val → lux.val ≤ 2500 →
    (∀ t : ExactReal, t.Defined → t.val = lux.val / 10000 →
      (gainEntry Numerics.real lux t).val = kneeGainReal (lux.val / 10000)) ∧
    (∀ t : ExactReal, t.Defined → t.val = 1 → (gainEntry Numerics.real lux t).val = 1) ∧
    (∀ t t' : ExactReal, t.Defined → t'.Defined → 0 ≤ t.val → t.val ≤ t'.val → t'.val ≤ 1 →
      (gainEntry Numerics.real lux t').val ≤ (gainEntry Numerics.real lux t).val ∧
        1 ≤ (gainEntry Numerics.real lux t').val)) ∧
  (∀ lux lux' t : ExactReal, lux.Defined → lux'.Defined → t.Defined → lux.val < lux'.val → t.val < lux.val / 10000 →
    (gainEntry Numerics.real lux' t).val < (gainEntry Numerics.real lux t).val) ∧
  (∀ p : Word,
    let entry := fun i : Fin 256 => (gainEntry Numerics.real (tcLux Numerics.real p) (buildGtl Numerics.real)[i]).val
    entry 255 = 1 ∧ (∀ i j : Fin 256, i ≤ j → entry j ≤ entry i ∧ 1 ≤ entry j) ∧
    (∀ i : Fin 256, i.val ≤ 21 → entry i = kneeGainReal ((tcLux Numerics.real p).val / 10000) ∧
      ∀ p' : Word, p.toNat / 2 ^ 23 % 256 ≠ 255 → p'.toNat / 2 ^ 23 % 256 ≠ 255 → f32Value p ≤ f32Value p' →
        (gainEntry Numerics.real (tcLux Numerics.real p') (buildGtl Numerics.real)[i]).val ≤ entry i))

/-! ### The tables (spec/40_gamma_expander.md) -/

/-- R60: every entry of GTL is the sRGB transfer function at `i / 255`. -/
def Obligations.GtlFormula : Prop :=
  ∀ i : Fin 256, (buildGtl Numerics.real)[i].val = gtlReal ((i.val : ℝ) / 255)

/-- R66: GTL is strictly increasing from 0 to 1. -/
def Obligations.GtlIncreasing : Prop :=
  (∀ i j : Fin 256, i < j → (buildGtl Numerics.real)[i].val < (buildGtl Numerics.real)[j].val) ∧
  (buildGtl Numerics.real)[(0 : Fin 256)].val = 0 ∧ (buildGtl Numerics.real)[(255 : Fin 256)].val = 1 ∧
  (∀ i : Fin 256, 0 ≤ (buildGtl Numerics.real)[i].val ∧ (buildGtl Numerics.real)[i].val ≤ 1)

/-- R61: the entries of LTG below the last are `trunc(255 * pow(k / 1024, 1/2.2))`, the last is 255. -/
def Obligations.LtgFormula : Prop :=
  (∀ k : Fin 1025, k.val < 1024 →
    (((buildLtg Numerics.real 1024)[k].toNat : ℕ) : ℤ) = ⌊255 * ((k.val : ℝ) / 1024) ^ ((1 : ℝ) / 2.2)⌋) ∧
  (buildLtg Numerics.real 1024)[(1024 : Fin 1025)] = 255#8

/-- R67: LTG rises from 0 to 255, and exactly the values named there never occur. -/
def Obligations.LtgMonotone : Prop :=
  (∀ k k' : Fin 1025, k ≤ k' → (buildLtg Numerics.real 1024)[k].toNat ≤ (buildLtg Numerics.real 1024)[k'].toNat) ∧
  (buildLtg Numerics.real 1024)[(0 : Fin 1025)] = 0#8 ∧ (buildLtg Numerics.real 1024)[(1024 : Fin 1025)] = 255#8 ∧
  (∀ v : Byte, (∃ k : Fin 1025, (buildLtg Numerics.real 1024)[k] = v) ↔
    v.toNat ∉ [1, 2, 3, 4, 5, 6, 7, 8, 9, 11, 12, 13, 15, 16, 18, 19, 21, 23, 25, 27, 30, 34])

/-- R64: GX.DELIN scales by 1025, clamps to [0, 1024], truncates and indexes LTG. -/
def Obligations.DelinFormula : Prop :=
  ∀ (ltg : Vector Byte 1025) (v : ExactReal), v.Defined →
    ∃ k : Fin 1025, (k.val : ℤ) = ⌊clampReal (v.val * 1025) 0 1024⌋ ∧ gxDelin Numerics.real ltg v = ltg[k]

/-- R68: GX.DELIN keeps order. -/
def Obligations.DelinMonotone : Prop :=
  ∀ v v' : ExactReal, v.Defined → v'.Defined → v.val ≤ v'.val →
    (gxDelin Numerics.real (buildLtg Numerics.real 1024) v).toNat
      ≤ (gxDelin Numerics.real (buildLtg Numerics.real 1024) v').toNat

/-- R65: the round trip through GTL and LTG returns the original only at 0, 80 to 95, 98 and 255, differs by at most 7,
which it does at 10, and gives the values named there. -/
def Obligations.RoundTripNotIdentity : Prop :=
  let roundTrip := fun i : Fin 256 =>
    (gxDelin Numerics.real (buildLtg Numerics.real 1024) (gxLin (buildGtl Numerics.real) (BitVec.ofFin i))).toNat
  (∀ i : Fin 256,
    (roundTrip i = i.val ↔ i.val = 0 ∨ (80 ≤ i.val ∧ i.val ≤ 95) ∨ i.val = 98 ∨ i.val = 255) ∧
    roundTrip i ≤ i.val + 7 ∧ i.val ≤ roundTrip i + 7) ∧
  roundTrip 10 = 17 ∧ roundTrip 50 = 52 ∧ roundTrip 100 = 99 ∧ roundTrip 128 = 127 ∧ roundTrip 200 = 198 ∧
  roundTrip 254 = 253 ∧ roundTrip 255 = 255 ∧ roundTrip 0 = 0 ∧ roundTrip 1 = 0 ∧ roundTrip 2 = 0 ∧ roundTrip 3 = 0

/-- R6: under REAL each operation is the exact mathematical function, wherever its operands are in its domain: `lt`, `le`,
`clamp` and `trunc` answer what is true of the real numbers, and the results of the other operations stand for the real
results. Whatever the fast bounds decide is right even outside the domains. -/
def Obligations.RealIsExact : Prop :=
  (∀ (a b : ExactReal) (v : Bool), realLtDecided a b = some v → (v = true ↔ a.val < b.val)) ∧
  (∀ (a : ExactReal) (n : ℤ), realTruncDecided a = some n → n = truncReal a.val) ∧
  (∀ a b : ExactReal, a.Defined → b.Defined →
    (Numerics.real.lt a b = true ↔ a.val < b.val) ∧ (Numerics.real.le a b = true ↔ a.val ≤ b.val) ∧
    (Numerics.real.add a b).val = a.val + b.val ∧ (Numerics.real.sub a b).val = a.val - b.val ∧
    (Numerics.real.mul a b).val = a.val * b.val ∧ (b.val ≠ 0 → (Numerics.real.div a b).val = a.val / b.val) ∧
    (0 < a.val → (Numerics.real.pow a b).val = a.val ^ b.val) ∧
    (a.val = 0 → 0 < b.val → (Numerics.real.pow a b).val = 0) ∧
    (Numerics.real.exp2 a).val = 2 ^ a.val ∧ (0 < a.val → (Numerics.real.log2 a).val = Real.logb 2 a.val)) ∧
  (∀ v lo hi : ExactReal, v.Defined → lo.Defined → hi.Defined →
    (Numerics.real.clamp v lo hi).val = clampReal v.val lo.val hi.val) ∧
  (∀ a : ExactReal, a.Defined → Numerics.real.trunc a = truncReal a.val)

/-! ### APPLY (spec/42_pixel_lut_remapper.md) -/

/-- R85, R115: the checks of APPLY in their order: each faults where it is the first to fail, and changes nothing but FAULT. -/
def Obligations.ApplyChecks : Prop :=
  ∀ (base len width height : Word) (s : State),
    (s.status.gainValid = false →
      exec (.apply base len width height) s = .next { s with status := { s.status with fault := .noGain } }) ∧
    (s.status.gainValid = true → width.toInt < 0 ∨ height.toInt < 0 →
      exec (.apply base len width height) s = .next { s with status := { s.status with fault := .geom } }) ∧
    (s.status.gainValid = true → 0 ≤ width.toInt → 0 ≤ height.toInt →
      width.toInt * height.toInt ≠ (len.toNat : ℤ) →
      exec (.apply base len width height) s = .next { s with status := { s.status with fault := .geom } }) ∧
    (s.status.gainValid = true → 0 ≤ width.toInt → 0 ≤ height.toInt →
      width.toInt * height.toInt = (len.toNat : ℤ) → 2 ^ 32 < base.toNat + len.toNat →
      exec (.apply base len width height) s = .next { s with status := { s.status with fault := .geom } })

/-- R94, R74, R85: after an accepted APPLY every entry of PLUT with `j ≤ i` is the compile of the current GAIN (where the
table is kept, because it was that already, R27), every word of the buffer is remapped through that table and every other word
is as before; PLUT_VALID is set, BUSY is cleared, and nothing else changes (the sequencer registers, whose values between
commands the spec does not give, apart). -/
def Obligations.ApplyRemapsBuffer : Prop :=
  ∀ (base len width height : Word) (s : State),
    Accepted base len width height s → GainWritten s → Pixmem.wf s.pixmem = true →
    (s.env.cfg.plutCache = .rebuild ∨ s.status.plutValid = false ∨ PlutOfGain s) →
    ∃ t, exec (.apply base len width height) s = .next t ∧
      (∀ i j : Fin 256, j ≤ i → ∃ g, s.gain[i] = some g ∧
        t.plut[i][j] = some (gxDelin s.num s.ltg (s.num.mul g (gxLin s.gtl (BitVec.ofFin j))))) ∧
      (∀ i j : Fin 256, i < j → t.plut[i][j] = s.plut[i][j]) ∧
      (∀ a, InBuffer base len a → some (memRead t a) = remapWord (s.withPlut t.plut) (memRead s a)) ∧
      (∀ a, ¬ InBuffer base len a → memRead t a = memRead s a) ∧
      t.status = { s.status with plutValid := true, busy := false } ∧
      t = { s with plut := t.plut, pixmem := t.pixmem, status := t.status, seq := t.seq }

/-- R43, R94: with PLUT_CACHE = cache and PLUT_VALID = 1 an accepted APPLY remaps its buffer through the PLUT it finds and
does not write PLUT. -/
def Obligations.ApplyWithCachedTable : Prop :=
  ∀ (base len width height : Word) (s : State),
    Accepted base len width height s → PlutWritten s → Pixmem.wf s.pixmem = true →
    s.env.cfg.plutCache = .cache → s.status.plutValid = true →
    ∃ t, exec (.apply base len width height) s = .next t ∧
      (∀ a, InBuffer base len a → some (memRead t a) = remapWord s (memRead s a)) ∧
      (∀ a, ¬ InBuffer base len a → memRead t a = memRead s a) ∧
      t.status = { s.status with busy := false } ∧
      t = { s with pixmem := t.pixmem, status := t.status, seq := t.seq }

/-- R43: the setting of PLUT_CACHE is not observable: from a coherent state APPLY ends in the same state under both. -/
def Obligations.CacheUnobservable : Prop :=
  ∀ (base len width height : Word) (s : State),
    Coherent s → s.status.ready = true → s.status.fault = .none →
    ∃ t : State, exec (.apply base len width height) (s.withPlutCache .rebuild) = .next (t.withPlutCache .rebuild) ∧
      exec (.apply base len width height) (s.withPlutCache .cache) = .next (t.withPlutCache .cache)

/-- R87, R88, R90: PX.REMAP of a word, for every legal PIXFMT: each colour field becomes the entry of PLUT in the row of the
maximum, the alpha field becomes 0xFF. -/
def Obligations.RemapChannels : Prop :=
  ∀ (s : State) (w : Word) (r2 g2 b2 : Byte), s.env.cfg.pixfmt.legal = true →
    let f := s.env.cfg.pixfmt
    let r := channel w f.posR
    let g := channel w f.posG
    let b := channel w f.posB
    let l := max3 r g b
    s.plut[l.toFin][r.toFin] = some r2 → s.plut[l.toFin][g.toFin] = some g2 → s.plut[l.toFin][b.toFin] = some b2 →
    ∃ w2, remapWord s w = some w2 ∧ channel w2 f.posR = r2 ∧ channel w2 f.posG = g2 ∧ channel w2 f.posB = b2 ∧
      channel w2 f.posA = 0xFF#8

/-- R87, R88: the input alpha is not read: words with the same colour fields have the same remapped value, under any legal
PIXFMT. -/
def Obligations.AlphaNotRead : Prop :=
  ∀ (s : State) (w v : Word), s.env.cfg.pixfmt.legal = true →
    (∀ n, n < 32 → (n < s.env.cfg.pixfmt.posA ∨ s.env.cfg.pixfmt.posA + 8 ≤ n) → w.getLsbD n = v.getLsbD n) →
    remapWord s w = remapWord s v

/-- R89: the reference index is the greatest of the channels, and PX.REMAP reads entries of PLUT with `j ≤ i` only: a word's
remapped value is the same for any two tables that agree there. -/
def Obligations.ReadsInsideTriangle : Prop :=
  (∀ r g b : Byte, r.toNat ≤ (max3 r g b).toNat ∧ g.toNat ≤ (max3 r g b).toNat ∧ b.toNat ≤ (max3 r g b).toNat ∧
    (max3 r g b = r ∨ max3 r g b = g ∨ max3 r g b = b)) ∧
  (∀ (s : State) (plut : Vector (Vector (Option Byte) 256) 256) (w : Word),
    (∀ i j : Fin 256, j ≤ i → plut[i][j] = s.plut[i][j]) → remapWord (s.withPlut plut) w = remapWord s w)

/-- R74, R91: with the reference arithmetic and built tables the compiled entry at channel 0 is 0 whatever the gain, so
black stays black; the compiled entry at channel 255 is 255 for a gain of real value 1, and so for the gain that INIT writes
at entry 255 for any parameter, so white stays white. -/
def Obligations.BlackAndWhite : Prop :=
  ∀ (s : State), Reference s → TablesBuilt s →
    (∀ g : ExactReal, plutEntry s g 0 = 0#8 ∧ (g.Defined → g.val = 1 → plutEntry s g 255 = 255#8)) ∧
    (∀ p : Word, plutEntry s (gainEntry s.num (tcLux s.num p) s.gtl[(255 : Fin 256)]) 255 = 255#8)

/-- R92: the pixel (10, 10, 10) becomes (33, 33, 33) at parameter 0 and (32, 32, 32) at parameter 5: the diagonal entry
compiled from the gain INIT writes. -/
def Obligations.GreyTenScenarios : Prop :=
  ∀ s : State, Reference s → TablesBuilt s →
    plutEntry s (gainEntry s.num (tcLux s.num 0x00000000#32) s.gtl[(10 : Fin 256)]) 10 = 33#8 ∧
    plutEntry s (gainEntry s.num (tcLux s.num 0x40A00000#32) s.gtl[(10 : Fin 256)]) 10 = 32#8

/-! ### The meta accessor (spec/43_meta_accessor.md) -/

/-- R100, R101, R103: PMIN and PMAX write 0 and 5 into RESULT, clear BUSY and change nothing else, in every state. -/
def Obligations.RangeQueries : Prop :=
  ∀ s : State,
    exec .pmin s = .next { s with result := some 0x00000000#32, status := { s.status with busy := false } } ∧
    exec .pmax s = .next { s with result := some 0x00000005#32, status := { s.status with busy := false } }

/-- R102, R103: DEFP writes the binary32 encoding of its real into RESULT, clears BUSY and changes nothing else; the real is
`log2(c / 2500) + 5` with `c` the reading clamped to [80, 2500], more than 0 and at most 5. -/
def Obligations.DefaultParameter : Prop :=
  (∀ (lux : Word) (s : State),
    exec (.defp lux) s = .next { s with
      result := some (f32enc (defaultParameter s.num lux.toInt)), status := { s.status with busy := false } }) ∧
  (∀ lux : Word, (defaultParameter Numerics.real lux.toInt).Defined ∧
    (defaultParameter Numerics.real lux.toInt).val = Real.logb 2 (clampReal (lux.toInt : ℝ) 80 2500 / 2500) + 5 ∧
    0 < (defaultParameter Numerics.real lux.toInt).val ∧ (defaultParameter Numerics.real lux.toInt).val ≤ 5)

/-- R102: every reading of 2500 or more gives exactly 5, every reading of 80 or less the pattern 0x3D0C25C7. -/
def Obligations.DefaultParameterEnds : Prop :=
  ∀ (lux : Word) (s : State), s.env.cfg.numerics = .real →
    (2500 ≤ lux.toInt → exec (.defp lux) s = .next { s with
      result := some 0x40A00000#32, status := { s.status with busy := false } }) ∧
    (lux.toInt ≤ 80 → exec (.defp lux) s = .next { s with
      result := some 0x3D0C25C7#32, status := { s.status with busy := false } })

/-- `f32enc` of spec/00_scope.md 6.2 gives back every finite pattern but -0 from its own value. That a zero encodes as +0,
and the layout of binary32, are general knowledge (PRESUMED, notes/assumptions/13.md). -/
def Obligations.EncodeFiniteBack : Prop :=
  ∀ w : Word, w.toNat / 2 ^ 23 % 256 ≠ 255 → w ≠ 0x80000000#32 → f32enc (.rat (f32Value w)) = w

/-- `f32enc` of spec/00_scope.md 6.2: the nearest finite pattern, ties to even, for every real below the point from which
binary32 rounds to infinity. The layout of binary32 and that bound are general knowledge (PRESUMED,
notes/assumptions/13.md). -/
def Obligations.EncodeNearestEven : Prop :=
  ∀ a : ExactReal, a.Defined → |a.val| < 2 ^ 128 - 2 ^ 103 →
    (f32enc a).toNat / 2 ^ 23 % 256 ≠ 255 ∧
    ∀ v : Word, v.toNat / 2 ^ 23 % 256 ≠ 255 →
      |((f32Value (f32enc a) : ℚ) : ℝ) - a.val| ≤ |((f32Value v : ℚ) : ℝ) - a.val| ∧
      (|((f32Value (f32enc a) : ℚ) : ℝ) - a.val| = |((f32Value v : ℚ) : ℝ) - a.val| →
        f32Value v ≠ f32Value (f32enc a) → (f32enc a).getLsbD 0 = false)
end

