-- ==== Sys2Proof/Laws/State.lean ====
section
/-!
SUPPORT. One lemma per field per update of the state, and per named change of STATUS: what each leaves and what it sets.
-/

namespace Sys2Proof.Machine

@[simp] theorem State.withGtl_gtl (s : State) (v : Vector ExactReal 256) : (s.withGtl v).gtl = v := rfl
@[simp] theorem State.withGtl_ltg (s : State) (v : Vector ExactReal 256) : (s.withGtl v).ltg = s.ltg := rfl
@[simp] theorem State.withGtl_param (s : State) (v : Vector ExactReal 256) : (s.withGtl v).param = s.param := rfl
@[simp] theorem State.withGtl_gain (s : State) (v : Vector ExactReal 256) : (s.withGtl v).gain = s.gain := rfl
@[simp] theorem State.withGtl_plut (s : State) (v : Vector ExactReal 256) : (s.withGtl v).plut = s.plut := rfl
@[simp] theorem State.withGtl_pixmem (s : State) (v : Vector ExactReal 256) : (s.withGtl v).pixmem = s.pixmem := rfl
@[simp] theorem State.withGtl_status (s : State) (v : Vector ExactReal 256) : (s.withGtl v).status = s.status := rfl
@[simp] theorem State.withGtl_result (s : State) (v : Vector ExactReal 256) : (s.withGtl v).result = s.result := rfl
@[simp] theorem State.withGtl_seq (s : State) (v : Vector ExactReal 256) : (s.withGtl v).seq = s.seq := rfl
@[simp] theorem State.withGtl_env (s : State) (v : Vector ExactReal 256) : (s.withGtl v).env = s.env := rfl

@[simp] theorem State.withLtg_gtl (s : State) (v : Vector Byte 1025) : (s.withLtg v).gtl = s.gtl := rfl
@[simp] theorem State.withLtg_ltg (s : State) (v : Vector Byte 1025) : (s.withLtg v).ltg = v := rfl
@[simp] theorem State.withLtg_param (s : State) (v : Vector Byte 1025) : (s.withLtg v).param = s.param := rfl
@[simp] theorem State.withLtg_gain (s : State) (v : Vector Byte 1025) : (s.withLtg v).gain = s.gain := rfl
@[simp] theorem State.withLtg_plut (s : State) (v : Vector Byte 1025) : (s.withLtg v).plut = s.plut := rfl
@[simp] theorem State.withLtg_pixmem (s : State) (v : Vector Byte 1025) : (s.withLtg v).pixmem = s.pixmem := rfl
@[simp] theorem State.withLtg_status (s : State) (v : Vector Byte 1025) : (s.withLtg v).status = s.status := rfl
@[simp] theorem State.withLtg_result (s : State) (v : Vector Byte 1025) : (s.withLtg v).result = s.result := rfl
@[simp] theorem State.withLtg_seq (s : State) (v : Vector Byte 1025) : (s.withLtg v).seq = s.seq := rfl
@[simp] theorem State.withLtg_env (s : State) (v : Vector Byte 1025) : (s.withLtg v).env = s.env := rfl

@[simp] theorem State.withParam_gtl (s : State) (v : Option Word) : (s.withParam v).gtl = s.gtl := rfl
@[simp] theorem State.withParam_ltg (s : State) (v : Option Word) : (s.withParam v).ltg = s.ltg := rfl
@[simp] theorem State.withParam_param (s : State) (v : Option Word) : (s.withParam v).param = v := rfl
@[simp] theorem State.withParam_gain (s : State) (v : Option Word) : (s.withParam v).gain = s.gain := rfl
@[simp] theorem State.withParam_plut (s : State) (v : Option Word) : (s.withParam v).plut = s.plut := rfl
@[simp] theorem State.withParam_pixmem (s : State) (v : Option Word) : (s.withParam v).pixmem = s.pixmem := rfl
@[simp] theorem State.withParam_status (s : State) (v : Option Word) : (s.withParam v).status = s.status := rfl
@[simp] theorem State.withParam_result (s : State) (v : Option Word) : (s.withParam v).result = s.result := rfl
@[simp] theorem State.withParam_seq (s : State) (v : Option Word) : (s.withParam v).seq = s.seq := rfl
@[simp] theorem State.withParam_env (s : State) (v : Option Word) : (s.withParam v).env = s.env := rfl

@[simp] theorem State.withGain_gtl (s : State) (v : Vector (Option ExactReal) 256) : (s.withGain v).gtl = s.gtl := rfl
@[simp] theorem State.withGain_ltg (s : State) (v : Vector (Option ExactReal) 256) : (s.withGain v).ltg = s.ltg := rfl
@[simp] theorem State.withGain_param (s : State) (v : Vector (Option ExactReal) 256) : (s.withGain v).param = s.param := rfl
@[simp] theorem State.withGain_gain (s : State) (v : Vector (Option ExactReal) 256) : (s.withGain v).gain = v := rfl
@[simp] theorem State.withGain_plut (s : State) (v : Vector (Option ExactReal) 256) : (s.withGain v).plut = s.plut := rfl
@[simp] theorem State.withGain_pixmem (s : State) (v : Vector (Option ExactReal) 256) : (s.withGain v).pixmem = s.pixmem := rfl
@[simp] theorem State.withGain_status (s : State) (v : Vector (Option ExactReal) 256) : (s.withGain v).status = s.status := rfl
@[simp] theorem State.withGain_result (s : State) (v : Vector (Option ExactReal) 256) : (s.withGain v).result = s.result := rfl
@[simp] theorem State.withGain_seq (s : State) (v : Vector (Option ExactReal) 256) : (s.withGain v).seq = s.seq := rfl
@[simp] theorem State.withGain_env (s : State) (v : Vector (Option ExactReal) 256) : (s.withGain v).env = s.env := rfl

@[simp] theorem State.withPlut_gtl (s : State) (v : Vector (Vector (Option Byte) 256) 256) : (s.withPlut v).gtl = s.gtl := rfl
@[simp] theorem State.withPlut_ltg (s : State) (v : Vector (Vector (Option Byte) 256) 256) : (s.withPlut v).ltg = s.ltg := rfl
@[simp] theorem State.withPlut_param (s : State) (v : Vector (Vector (Option Byte) 256) 256) : (s.withPlut v).param = s.param := rfl
@[simp] theorem State.withPlut_gain (s : State) (v : Vector (Vector (Option Byte) 256) 256) : (s.withPlut v).gain = s.gain := rfl
@[simp] theorem State.withPlut_plut (s : State) (v : Vector (Vector (Option Byte) 256) 256) : (s.withPlut v).plut = v := rfl
@[simp] theorem State.withPlut_pixmem (s : State) (v : Vector (Vector (Option Byte) 256) 256) : (s.withPlut v).pixmem = s.pixmem := rfl
@[simp] theorem State.withPlut_status (s : State) (v : Vector (Vector (Option Byte) 256) 256) : (s.withPlut v).status = s.status := rfl
@[simp] theorem State.withPlut_result (s : State) (v : Vector (Vector (Option Byte) 256) 256) : (s.withPlut v).result = s.result := rfl
@[simp] theorem State.withPlut_seq (s : State) (v : Vector (Vector (Option Byte) 256) 256) : (s.withPlut v).seq = s.seq := rfl
@[simp] theorem State.withPlut_env (s : State) (v : Vector (Vector (Option Byte) 256) 256) : (s.withPlut v).env = s.env := rfl

@[simp] theorem State.withPixmem_gtl (s : State) (v : Pixmem) : (s.withPixmem v).gtl = s.gtl := rfl
@[simp] theorem State.withPixmem_ltg (s : State) (v : Pixmem) : (s.withPixmem v).ltg = s.ltg := rfl
@[simp] theorem State.withPixmem_param (s : State) (v : Pixmem) : (s.withPixmem v).param = s.param := rfl
@[simp] theorem State.withPixmem_gain (s : State) (v : Pixmem) : (s.withPixmem v).gain = s.gain := rfl
@[simp] theorem State.withPixmem_plut (s : State) (v : Pixmem) : (s.withPixmem v).plut = s.plut := rfl
@[simp] theorem State.withPixmem_pixmem (s : State) (v : Pixmem) : (s.withPixmem v).pixmem = v := rfl
@[simp] theorem State.withPixmem_status (s : State) (v : Pixmem) : (s.withPixmem v).status = s.status := rfl
@[simp] theorem State.withPixmem_result (s : State) (v : Pixmem) : (s.withPixmem v).result = s.result := rfl
@[simp] theorem State.withPixmem_seq (s : State) (v : Pixmem) : (s.withPixmem v).seq = s.seq := rfl
@[simp] theorem State.withPixmem_env (s : State) (v : Pixmem) : (s.withPixmem v).env = s.env := rfl

@[simp] theorem State.withStatus_gtl (s : State) (v : Status) : (s.withStatus v).gtl = s.gtl := rfl
@[simp] theorem State.withStatus_ltg (s : State) (v : Status) : (s.withStatus v).ltg = s.ltg := rfl
@[simp] theorem State.withStatus_param (s : State) (v : Status) : (s.withStatus v).param = s.param := rfl
@[simp] theorem State.withStatus_gain (s : State) (v : Status) : (s.withStatus v).gain = s.gain := rfl
@[simp] theorem State.withStatus_plut (s : State) (v : Status) : (s.withStatus v).plut = s.plut := rfl
@[simp] theorem State.withStatus_pixmem (s : State) (v : Status) : (s.withStatus v).pixmem = s.pixmem := rfl
@[simp] theorem State.withStatus_status (s : State) (v : Status) : (s.withStatus v).status = v := rfl
@[simp] theorem State.withStatus_result (s : State) (v : Status) : (s.withStatus v).result = s.result := rfl
@[simp] theorem State.withStatus_seq (s : State) (v : Status) : (s.withStatus v).seq = s.seq := rfl
@[simp] theorem State.withStatus_env (s : State) (v : Status) : (s.withStatus v).env = s.env := rfl

@[simp] theorem State.withResult_gtl (s : State) (v : Option Word) : (s.withResult v).gtl = s.gtl := rfl
@[simp] theorem State.withResult_ltg (s : State) (v : Option Word) : (s.withResult v).ltg = s.ltg := rfl
@[simp] theorem State.withResult_param (s : State) (v : Option Word) : (s.withResult v).param = s.param := rfl
@[simp] theorem State.withResult_gain (s : State) (v : Option Word) : (s.withResult v).gain = s.gain := rfl
@[simp] theorem State.withResult_plut (s : State) (v : Option Word) : (s.withResult v).plut = s.plut := rfl
@[simp] theorem State.withResult_pixmem (s : State) (v : Option Word) : (s.withResult v).pixmem = s.pixmem := rfl
@[simp] theorem State.withResult_status (s : State) (v : Option Word) : (s.withResult v).status = s.status := rfl
@[simp] theorem State.withResult_result (s : State) (v : Option Word) : (s.withResult v).result = v := rfl
@[simp] theorem State.withResult_seq (s : State) (v : Option Word) : (s.withResult v).seq = s.seq := rfl
@[simp] theorem State.withResult_env (s : State) (v : Option Word) : (s.withResult v).env = s.env := rfl

@[simp] theorem State.withSeq_gtl (s : State) (v : Sequencer) : (s.withSeq v).gtl = s.gtl := rfl
@[simp] theorem State.withSeq_ltg (s : State) (v : Sequencer) : (s.withSeq v).ltg = s.ltg := rfl
@[simp] theorem State.withSeq_param (s : State) (v : Sequencer) : (s.withSeq v).param = s.param := rfl
@[simp] theorem State.withSeq_gain (s : State) (v : Sequencer) : (s.withSeq v).gain = s.gain := rfl
@[simp] theorem State.withSeq_plut (s : State) (v : Sequencer) : (s.withSeq v).plut = s.plut := rfl
@[simp] theorem State.withSeq_pixmem (s : State) (v : Sequencer) : (s.withSeq v).pixmem = s.pixmem := rfl
@[simp] theorem State.withSeq_status (s : State) (v : Sequencer) : (s.withSeq v).status = s.status := rfl
@[simp] theorem State.withSeq_result (s : State) (v : Sequencer) : (s.withSeq v).result = s.result := rfl
@[simp] theorem State.withSeq_seq (s : State) (v : Sequencer) : (s.withSeq v).seq = v := rfl
@[simp] theorem State.withSeq_env (s : State) (v : Sequencer) : (s.withSeq v).env = s.env := rfl

@[simp] theorem State.withEnv_gtl (s : State) (v : Env) : (s.withEnv v).gtl = s.gtl := rfl
@[simp] theorem State.withEnv_ltg (s : State) (v : Env) : (s.withEnv v).ltg = s.ltg := rfl
@[simp] theorem State.withEnv_param (s : State) (v : Env) : (s.withEnv v).param = s.param := rfl
@[simp] theorem State.withEnv_gain (s : State) (v : Env) : (s.withEnv v).gain = s.gain := rfl
@[simp] theorem State.withEnv_plut (s : State) (v : Env) : (s.withEnv v).plut = s.plut := rfl
@[simp] theorem State.withEnv_pixmem (s : State) (v : Env) : (s.withEnv v).pixmem = s.pixmem := rfl
@[simp] theorem State.withEnv_status (s : State) (v : Env) : (s.withEnv v).status = s.status := rfl
@[simp] theorem State.withEnv_result (s : State) (v : Env) : (s.withEnv v).result = s.result := rfl
@[simp] theorem State.withEnv_seq (s : State) (v : Env) : (s.withEnv v).seq = s.seq := rfl
@[simp] theorem State.withEnv_env (s : State) (v : Env) : (s.withEnv v).env = v := rfl

@[simp] theorem State.setReady_gtl (s : State) (b : Bool) : (s.setReady b).gtl = s.gtl := rfl
@[simp] theorem State.setReady_ltg (s : State) (b : Bool) : (s.setReady b).ltg = s.ltg := rfl
@[simp] theorem State.setReady_param (s : State) (b : Bool) : (s.setReady b).param = s.param := rfl
@[simp] theorem State.setReady_gain (s : State) (b : Bool) : (s.setReady b).gain = s.gain := rfl
@[simp] theorem State.setReady_plut (s : State) (b : Bool) : (s.setReady b).plut = s.plut := rfl
@[simp] theorem State.setReady_pixmem (s : State) (b : Bool) : (s.setReady b).pixmem = s.pixmem := rfl
@[simp] theorem State.setReady_status (s : State) (b : Bool) : (s.setReady b).status = { s.status with ready := b } := rfl
@[simp] theorem State.setReady_result (s : State) (b : Bool) : (s.setReady b).result = s.result := rfl
@[simp] theorem State.setReady_seq (s : State) (b : Bool) : (s.setReady b).seq = s.seq := rfl
@[simp] theorem State.setReady_env (s : State) (b : Bool) : (s.setReady b).env = s.env := rfl

@[simp] theorem State.setGainValid_gtl (s : State) (b : Bool) : (s.setGainValid b).gtl = s.gtl := rfl
@[simp] theorem State.setGainValid_ltg (s : State) (b : Bool) : (s.setGainValid b).ltg = s.ltg := rfl
@[simp] theorem State.setGainValid_param (s : State) (b : Bool) : (s.setGainValid b).param = s.param := rfl
@[simp] theorem State.setGainValid_gain (s : State) (b : Bool) : (s.setGainValid b).gain = s.gain := rfl
@[simp] theorem State.setGainValid_plut (s : State) (b : Bool) : (s.setGainValid b).plut = s.plut := rfl
@[simp] theorem State.setGainValid_pixmem (s : State) (b : Bool) : (s.setGainValid b).pixmem = s.pixmem := rfl
@[simp] theorem State.setGainValid_status (s : State) (b : Bool) : (s.setGainValid b).status = { s.status with gainValid := b } := rfl
@[simp] theorem State.setGainValid_result (s : State) (b : Bool) : (s.setGainValid b).result = s.result := rfl
@[simp] theorem State.setGainValid_seq (s : State) (b : Bool) : (s.setGainValid b).seq = s.seq := rfl
@[simp] theorem State.setGainValid_env (s : State) (b : Bool) : (s.setGainValid b).env = s.env := rfl

@[simp] theorem State.setPlutValid_gtl (s : State) (b : Bool) : (s.setPlutValid b).gtl = s.gtl := rfl
@[simp] theorem State.setPlutValid_ltg (s : State) (b : Bool) : (s.setPlutValid b).ltg = s.ltg := rfl
@[simp] theorem State.setPlutValid_param (s : State) (b : Bool) : (s.setPlutValid b).param = s.param := rfl
@[simp] theorem State.setPlutValid_gain (s : State) (b : Bool) : (s.setPlutValid b).gain = s.gain := rfl
@[simp] theorem State.setPlutValid_plut (s : State) (b : Bool) : (s.setPlutValid b).plut = s.plut := rfl
@[simp] theorem State.setPlutValid_pixmem (s : State) (b : Bool) : (s.setPlutValid b).pixmem = s.pixmem := rfl
@[simp] theorem State.setPlutValid_status (s : State) (b : Bool) : (s.setPlutValid b).status = { s.status with plutValid := b } := rfl
@[simp] theorem State.setPlutValid_result (s : State) (b : Bool) : (s.setPlutValid b).result = s.result := rfl
@[simp] theorem State.setPlutValid_seq (s : State) (b : Bool) : (s.setPlutValid b).seq = s.seq := rfl
@[simp] theorem State.setPlutValid_env (s : State) (b : Bool) : (s.setPlutValid b).env = s.env := rfl

@[simp] theorem State.setBusy_gtl (s : State) (b : Bool) : (s.setBusy b).gtl = s.gtl := rfl
@[simp] theorem State.setBusy_ltg (s : State) (b : Bool) : (s.setBusy b).ltg = s.ltg := rfl
@[simp] theorem State.setBusy_param (s : State) (b : Bool) : (s.setBusy b).param = s.param := rfl
@[simp] theorem State.setBusy_gain (s : State) (b : Bool) : (s.setBusy b).gain = s.gain := rfl
@[simp] theorem State.setBusy_plut (s : State) (b : Bool) : (s.setBusy b).plut = s.plut := rfl
@[simp] theorem State.setBusy_pixmem (s : State) (b : Bool) : (s.setBusy b).pixmem = s.pixmem := rfl
@[simp] theorem State.setBusy_status (s : State) (b : Bool) : (s.setBusy b).status = { s.status with busy := b } := rfl
@[simp] theorem State.setBusy_result (s : State) (b : Bool) : (s.setBusy b).result = s.result := rfl
@[simp] theorem State.setBusy_seq (s : State) (b : Bool) : (s.setBusy b).seq = s.seq := rfl
@[simp] theorem State.setBusy_env (s : State) (b : Bool) : (s.setBusy b).env = s.env := rfl

@[simp] theorem State.setFault_gtl (s : State) (b : FaultCode) : (s.setFault b).gtl = s.gtl := rfl
@[simp] theorem State.setFault_ltg (s : State) (b : FaultCode) : (s.setFault b).ltg = s.ltg := rfl
@[simp] theorem State.setFault_param (s : State) (b : FaultCode) : (s.setFault b).param = s.param := rfl
@[simp] theorem State.setFault_gain (s : State) (b : FaultCode) : (s.setFault b).gain = s.gain := rfl
@[simp] theorem State.setFault_plut (s : State) (b : FaultCode) : (s.setFault b).plut = s.plut := rfl
@[simp] theorem State.setFault_pixmem (s : State) (b : FaultCode) : (s.setFault b).pixmem = s.pixmem := rfl
@[simp] theorem State.setFault_status (s : State) (b : FaultCode) : (s.setFault b).status = { s.status with fault := b } := rfl
@[simp] theorem State.setFault_result (s : State) (b : FaultCode) : (s.setFault b).result = s.result := rfl
@[simp] theorem State.setFault_seq (s : State) (b : FaultCode) : (s.setFault b).seq = s.seq := rfl
@[simp] theorem State.setFault_env (s : State) (b : FaultCode) : (s.setFault b).env = s.env := rfl

/-- NUMERICS depends on the parameters alone. -/
theorem State.num_congr {s t : State} (h : s.env.cfg = t.env.cfg) : s.num = t.num := by simp [State.num, h]

@[simp] theorem State.withGtl_num (s : State) (v : Vector ExactReal 256) : (s.withGtl v).num = s.num := rfl
@[simp] theorem State.withLtg_num (s : State) (v : Vector Byte 1025) : (s.withLtg v).num = s.num := rfl
@[simp] theorem State.withParam_num (s : State) (v : Option Word) : (s.withParam v).num = s.num := rfl
@[simp] theorem State.withGain_num (s : State) (v : Vector (Option ExactReal) 256) : (s.withGain v).num = s.num := rfl
@[simp] theorem State.withPlut_num (s : State) (v : Vector (Vector (Option Byte) 256) 256) : (s.withPlut v).num = s.num := rfl
@[simp] theorem State.withPixmem_num (s : State) (v : Pixmem) : (s.withPixmem v).num = s.num := rfl
@[simp] theorem State.withStatus_num (s : State) (v : Status) : (s.withStatus v).num = s.num := rfl
@[simp] theorem State.withResult_num (s : State) (v : Option Word) : (s.withResult v).num = s.num := rfl
@[simp] theorem State.withSeq_num (s : State) (v : Sequencer) : (s.withSeq v).num = s.num := rfl
@[simp] theorem State.setReady_num (s : State) (b : Bool) : (s.setReady b).num = s.num := rfl
@[simp] theorem State.setGainValid_num (s : State) (b : Bool) : (s.setGainValid b).num = s.num := rfl
@[simp] theorem State.setPlutValid_num (s : State) (b : Bool) : (s.setPlutValid b).num = s.num := rfl
@[simp] theorem State.setBusy_num (s : State) (b : Bool) : (s.setBusy b).num = s.num := rfl
@[simp] theorem State.setFault_num (s : State) (b : FaultCode) : (s.setFault b).num = s.num := rfl

end Sys2Proof.Machine
end

