-- ==== Sys2Proof/Laws/Host.lean ====
section
/-!
SUPPORT. What the changes of the host's side of a state and of PIX_IDX leave and set.
-/

namespace Sys2Proof.Machine

@[simp] theorem State.setPort_gtl (s : State) (v : List HostEvent) : (s.setPort v).gtl = s.gtl := rfl
@[simp] theorem State.setPort_ltg (s : State) (v : List HostEvent) : (s.setPort v).ltg = s.ltg := rfl
@[simp] theorem State.setPort_param (s : State) (v : List HostEvent) : (s.setPort v).param = s.param := rfl
@[simp] theorem State.setPort_gain (s : State) (v : List HostEvent) : (s.setPort v).gain = s.gain := rfl
@[simp] theorem State.setPort_plut (s : State) (v : List HostEvent) : (s.setPort v).plut = s.plut := rfl
@[simp] theorem State.setPort_pixmem (s : State) (v : List HostEvent) : (s.setPort v).pixmem = s.pixmem := rfl
@[simp] theorem State.setPort_status (s : State) (v : List HostEvent) : (s.setPort v).status = s.status := rfl
@[simp] theorem State.setPort_result (s : State) (v : List HostEvent) : (s.setPort v).result = s.result := rfl
@[simp] theorem State.setPort_seq (s : State) (v : List HostEvent) : (s.setPort v).seq = s.seq := rfl
@[simp] theorem State.setPort_env (s : State) (v : List HostEvent) : (s.setPort v).env = { s.env with port := v } := rfl
@[simp] theorem State.setPort_num (s : State) (v : List HostEvent) : (s.setPort v).num = s.num := rfl

@[simp] theorem State.setInFlight_gtl (s : State) (v : Option Instr) : (s.setInFlight v).gtl = s.gtl := rfl
@[simp] theorem State.setInFlight_ltg (s : State) (v : Option Instr) : (s.setInFlight v).ltg = s.ltg := rfl
@[simp] theorem State.setInFlight_param (s : State) (v : Option Instr) : (s.setInFlight v).param = s.param := rfl
@[simp] theorem State.setInFlight_gain (s : State) (v : Option Instr) : (s.setInFlight v).gain = s.gain := rfl
@[simp] theorem State.setInFlight_plut (s : State) (v : Option Instr) : (s.setInFlight v).plut = s.plut := rfl
@[simp] theorem State.setInFlight_pixmem (s : State) (v : Option Instr) : (s.setInFlight v).pixmem = s.pixmem := rfl
@[simp] theorem State.setInFlight_status (s : State) (v : Option Instr) : (s.setInFlight v).status = s.status := rfl
@[simp] theorem State.setInFlight_result (s : State) (v : Option Instr) : (s.setInFlight v).result = s.result := rfl
@[simp] theorem State.setInFlight_seq (s : State) (v : Option Instr) : (s.setInFlight v).seq = s.seq := rfl
@[simp] theorem State.setInFlight_env (s : State) (v : Option Instr) : (s.setInFlight v).env = { s.env with inFlight := v } := rfl
@[simp] theorem State.setInFlight_num (s : State) (v : Option Instr) : (s.setInFlight v).num = s.num := rfl

@[simp] theorem State.setBuffer_gtl (s : State) (v : Option (Word × Word)) : (s.setBuffer v).gtl = s.gtl := rfl
@[simp] theorem State.setBuffer_ltg (s : State) (v : Option (Word × Word)) : (s.setBuffer v).ltg = s.ltg := rfl
@[simp] theorem State.setBuffer_param (s : State) (v : Option (Word × Word)) : (s.setBuffer v).param = s.param := rfl
@[simp] theorem State.setBuffer_gain (s : State) (v : Option (Word × Word)) : (s.setBuffer v).gain = s.gain := rfl
@[simp] theorem State.setBuffer_plut (s : State) (v : Option (Word × Word)) : (s.setBuffer v).plut = s.plut := rfl
@[simp] theorem State.setBuffer_pixmem (s : State) (v : Option (Word × Word)) : (s.setBuffer v).pixmem = s.pixmem := rfl
@[simp] theorem State.setBuffer_status (s : State) (v : Option (Word × Word)) : (s.setBuffer v).status = s.status := rfl
@[simp] theorem State.setBuffer_result (s : State) (v : Option (Word × Word)) : (s.setBuffer v).result = s.result := rfl
@[simp] theorem State.setBuffer_seq (s : State) (v : Option (Word × Word)) : (s.setBuffer v).seq = s.seq := rfl
@[simp] theorem State.setBuffer_env (s : State) (v : Option (Word × Word)) : (s.setBuffer v).env = { s.env with buffer := v } := rfl
@[simp] theorem State.setBuffer_num (s : State) (v : Option (Word × Word)) : (s.setBuffer v).num = s.num := rfl

@[simp] theorem State.setHostData_gtl (s : State) (v : Word) : (s.setHostData v).gtl = s.gtl := rfl
@[simp] theorem State.setHostData_ltg (s : State) (v : Word) : (s.setHostData v).ltg = s.ltg := rfl
@[simp] theorem State.setHostData_param (s : State) (v : Word) : (s.setHostData v).param = s.param := rfl
@[simp] theorem State.setHostData_gain (s : State) (v : Word) : (s.setHostData v).gain = s.gain := rfl
@[simp] theorem State.setHostData_plut (s : State) (v : Word) : (s.setHostData v).plut = s.plut := rfl
@[simp] theorem State.setHostData_pixmem (s : State) (v : Word) : (s.setHostData v).pixmem = s.pixmem := rfl
@[simp] theorem State.setHostData_status (s : State) (v : Word) : (s.setHostData v).status = s.status := rfl
@[simp] theorem State.setHostData_result (s : State) (v : Word) : (s.setHostData v).result = s.result := rfl
@[simp] theorem State.setHostData_seq (s : State) (v : Word) : (s.setHostData v).seq = s.seq := rfl
@[simp] theorem State.setHostData_env (s : State) (v : Word) : (s.setHostData v).env = { s.env with hostData := v } := rfl
@[simp] theorem State.setHostData_num (s : State) (v : Word) : (s.setHostData v).num = s.num := rfl

@[simp] theorem State.nextFree_gtl (s : State) : s.nextFree.gtl = s.gtl := rfl
@[simp] theorem State.nextFree_ltg (s : State) : s.nextFree.ltg = s.ltg := rfl
@[simp] theorem State.nextFree_param (s : State) : s.nextFree.param = s.param := rfl
@[simp] theorem State.nextFree_gain (s : State) : s.nextFree.gain = s.gain := rfl
@[simp] theorem State.nextFree_plut (s : State) : s.nextFree.plut = s.plut := rfl
@[simp] theorem State.nextFree_pixmem (s : State) : s.nextFree.pixmem = s.pixmem := rfl
@[simp] theorem State.nextFree_status (s : State) : s.nextFree.status = s.status := rfl
@[simp] theorem State.nextFree_result (s : State) : s.nextFree.result = s.result := rfl
@[simp] theorem State.nextFree_seq (s : State) : s.nextFree.seq = s.seq := rfl
@[simp] theorem State.nextFree_env (s : State) : s.nextFree.env = { s.env with freeCount := s.env.freeCount + 1 } := rfl
@[simp] theorem State.nextFree_num (s : State) : s.nextFree.num = s.num := rfl

@[simp] theorem State.setPixIdx_gtl (s : State) (n : Nat) : (s.setPixIdx n).gtl = s.gtl := rfl
@[simp] theorem State.setPixIdx_ltg (s : State) (n : Nat) : (s.setPixIdx n).ltg = s.ltg := rfl
@[simp] theorem State.setPixIdx_param (s : State) (n : Nat) : (s.setPixIdx n).param = s.param := rfl
@[simp] theorem State.setPixIdx_gain (s : State) (n : Nat) : (s.setPixIdx n).gain = s.gain := rfl
@[simp] theorem State.setPixIdx_plut (s : State) (n : Nat) : (s.setPixIdx n).plut = s.plut := rfl
@[simp] theorem State.setPixIdx_pixmem (s : State) (n : Nat) : (s.setPixIdx n).pixmem = s.pixmem := rfl
@[simp] theorem State.setPixIdx_status (s : State) (n : Nat) : (s.setPixIdx n).status = s.status := rfl
@[simp] theorem State.setPixIdx_result (s : State) (n : Nat) : (s.setPixIdx n).result = s.result := rfl
@[simp] theorem State.setPixIdx_seq (s : State) (n : Nat) : (s.setPixIdx n).seq = { s.seq with pixIdx := n } := rfl
@[simp] theorem State.setPixIdx_env (s : State) (n : Nat) : (s.setPixIdx n).env = s.env := rfl
@[simp] theorem State.setPixIdx_num (s : State) (n : Nat) : (s.setPixIdx n).num = s.num := rfl

/-- What stays presented concerns the host's queue only. -/
theorem State.keepWords_eq (s : State) (ws : List Word) :
    s.keepWords ws = s.setPort (if ws = [] then s.env.port else { act := .present ws, hasty := false } :: s.env.port) := by
  unfold State.keepWords
  split <;> simp_all [State.setPort, State.withEnv]

@[simp] theorem State.keepWords_gtl (s : State) (ws : List Word) : (s.keepWords ws).gtl = s.gtl := by simp [State.keepWords_eq]
@[simp] theorem State.keepWords_ltg (s : State) (ws : List Word) : (s.keepWords ws).ltg = s.ltg := by simp [State.keepWords_eq]
@[simp] theorem State.keepWords_param (s : State) (ws : List Word) : (s.keepWords ws).param = s.param := by simp [State.keepWords_eq]
@[simp] theorem State.keepWords_gain (s : State) (ws : List Word) : (s.keepWords ws).gain = s.gain := by simp [State.keepWords_eq]
@[simp] theorem State.keepWords_plut (s : State) (ws : List Word) : (s.keepWords ws).plut = s.plut := by simp [State.keepWords_eq]
@[simp] theorem State.keepWords_pixmem (s : State) (ws : List Word) : (s.keepWords ws).pixmem = s.pixmem := by simp [State.keepWords_eq]
@[simp] theorem State.keepWords_status (s : State) (ws : List Word) : (s.keepWords ws).status = s.status := by simp [State.keepWords_eq]
@[simp] theorem State.keepWords_result (s : State) (ws : List Word) : (s.keepWords ws).result = s.result := by simp [State.keepWords_eq]
@[simp] theorem State.keepWords_seq (s : State) (ws : List Word) : (s.keepWords ws).seq = s.seq := by simp [State.keepWords_eq]
@[simp] theorem State.keepWords_cfg (s : State) (ws : List Word) : (s.keepWords ws).env.cfg = s.env.cfg := by simp [State.keepWords_eq]
@[simp] theorem State.keepWords_inFlight (s : State) (ws : List Word) : (s.keepWords ws).env.inFlight = s.env.inFlight := by simp [State.keepWords_eq]
@[simp] theorem State.keepWords_buffer (s : State) (ws : List Word) : (s.keepWords ws).env.buffer = s.env.buffer := by simp [State.keepWords_eq]
@[simp] theorem State.keepWords_hostData (s : State) (ws : List Word) : (s.keepWords ws).env.hostData = s.env.hostData := by simp [State.keepWords_eq]
@[simp] theorem State.keepWords_freeCount (s : State) (ws : List Word) : (s.keepWords ws).env.freeCount = s.env.freeCount := by simp [State.keepWords_eq]

end Sys2Proof.Machine
end

