-- ==== Sys2Proof/Laws/Memory.lean ====
section
/-!
SUPPORT. PIXMEM (spec/20_memory.md R30): a word read after it was written is the word written, no other word changes, and
every write keeps the canonical form.
-/

namespace Sys2Proof.Machine

/-- A word below every listed index is unlisted. -/
theorem Pixmem.lookup_of_above {m : Pixmem} {a : Nat} (hm : Pixmem.wf m = true) (ha : Pixmem.above a m = true) :
    Pixmem.lookup m a = pixmemUnlisted := by
  induction m with
  | nil => rfl
  | cons e m ih =>
    obtain ⟨b, x⟩ := e
    simp only [Pixmem.wf, Pixmem.above, Bool.and_eq_true, decide_eq_true_eq] at hm ha
    simp only [Pixmem.lookup]
    rw [if_neg (by omega)]
    refine ih hm.2 ?_
    cases m with
    | nil => rfl
    | cons e' m' =>
      obtain ⟨c, y⟩ := e'
      simp only [Pixmem.above, decide_eq_true_eq] at hm ⊢
      omega

theorem Pixmem.above_mono {m : Pixmem} {a b : Nat} (h : Pixmem.above b m = true) (hab : a ≤ b) :
    Pixmem.above a m = true := by
  cases m with
  | nil => rfl
  | cons e m =>
    obtain ⟨c, y⟩ := e
    simp only [Pixmem.above, decide_eq_true_eq] at h ⊢
    omega

/-- Looking up in a memory with an entry put in front. -/
theorem Pixmem.lookup_cons {m : Pixmem} {a : Nat} (v : Word) (b : Nat) (hm : Pixmem.wf m = true)
    (ha : Pixmem.above a m = true) :
    Pixmem.lookup (Pixmem.cons a v m) b = if b = a then v else Pixmem.lookup m b := by
  unfold Pixmem.cons
  by_cases hv : v = pixmemUnlisted
  · rw [if_pos hv]
    split
    · subst_vars; exact Pixmem.lookup_of_above hm ha
    · rfl
  · rw [if_neg hv]
    simp only [Pixmem.lookup, eq_comm]

theorem Pixmem.wf_cons {m : Pixmem} {a : Nat} {v : Word} (hm : Pixmem.wf m = true) (ha : Pixmem.above a m = true)
    (hlt : a < 2 ^ 32) : Pixmem.wf (Pixmem.cons a v m) = true := by
  unfold Pixmem.cons
  split
  · exact hm
  · simp_all [Pixmem.wf]

theorem Pixmem.above_cons {m : Pixmem} {a c : Nat} {v : Word} (hc : c < a) (hm : Pixmem.above c m = true) :
    Pixmem.above c (Pixmem.cons a v m) = true := by
  unfold Pixmem.cons
  split
  · exact hm
  · simpa [Pixmem.above] using hc

theorem Pixmem.above_store {m : Pixmem} {a c : Nat} {v : Word} (hc : c < a) (hm : Pixmem.above c m = true)
    (hw : Pixmem.wf m = true) : Pixmem.above c (Pixmem.store m a v) = true := by
  cases m with
  | nil => exact Pixmem.above_cons hc rfl
  | cons e m =>
    obtain ⟨b, x⟩ := e
    simp only [Pixmem.store]
    split
    · exact Pixmem.above_cons hc hm
    · split
      · simp only [Pixmem.wf, Pixmem.above, Bool.and_eq_true, decide_eq_true_eq] at hw hm
        exact Pixmem.above_cons hc (Pixmem.above_mono hw.1.2 (by omega))
      · exact hm

/-- A write keeps the canonical form. -/
theorem Pixmem.wf_store {m : Pixmem} {a : Nat} (v : Word) (hm : Pixmem.wf m = true) (ha : a < 2 ^ 32) :
    Pixmem.wf (Pixmem.store m a v) = true := by
  induction m with
  | nil => exact Pixmem.wf_cons rfl rfl ha
  | cons e m ih =>
    obtain ⟨b, x⟩ := e
    have hm' := hm
    simp only [Pixmem.wf, Bool.and_eq_true, decide_eq_true_eq] at hm'
    obtain ⟨⟨⟨hb, hx⟩, habove⟩, hwf⟩ := hm'
    simp only [Pixmem.store]
    split
    · rename_i hab
      exact Pixmem.wf_cons hm (by simpa [Pixmem.above] using hab) ha
    · split
      · subst_vars; exact Pixmem.wf_cons hwf habove ha
      · simp only [Pixmem.wf, Bool.and_eq_true, decide_eq_true_eq]
        exact ⟨⟨⟨hb, hx⟩, Pixmem.above_store (by omega) habove hwf⟩, ih hwf⟩

/-- A read after a write: the word written at its index, the old word everywhere else. -/
theorem Pixmem.lookup_store {m : Pixmem} {a : Nat} (v : Word) (b : Nat) (hm : Pixmem.wf m = true) :
    Pixmem.lookup (Pixmem.store m a v) b = if b = a then v else Pixmem.lookup m b := by
  induction m with
  | nil => exact Pixmem.lookup_cons v b rfl rfl
  | cons e m ih =>
    obtain ⟨c, x⟩ := e
    have hm' := hm
    simp only [Pixmem.wf, Bool.and_eq_true, decide_eq_true_eq] at hm'
    obtain ⟨⟨⟨hc, hx⟩, habove⟩, hwf⟩ := hm'
    simp only [Pixmem.store]
    split
    · rename_i hac
      exact Pixmem.lookup_cons v b hm (by simpa [Pixmem.above] using hac)
    · split
      · subst_vars
        rw [Pixmem.lookup_cons v b hwf habove]
        simp only [Pixmem.lookup, eq_comm (a := b)]
        split <;> simp_all
      · simp only [Pixmem.lookup]
        rw [ih hwf]
        split <;> rename_i h1
        · rw [if_neg (by omega)]
        · rfl

/-- The memory of a state right after reset is in canonical form. -/
theorem State.reset_pixmem_wf : Pixmem.wf State.reset.pixmem = true := rfl

theorem memWrite_pixmem_wf {s : State} (a v : Word) (h : Pixmem.wf s.pixmem = true) :
    Pixmem.wf (memWrite s a v).pixmem = true := Pixmem.wf_store v h a.isLt

end Sys2Proof.Machine
end

