-- ==== Sys2Proof/Laws/Ops.lean ====
section
/-!
SUPPORT. What each shared operation does, said once: memory access, raising a fault, ending a command, GX.BUILD and the two
halves of reset.
-/

namespace Sys2Proof.Machine

theorem memWrite_eq (s : State) (a v : Word) :
    memWrite s a v = s.withPixmem (Pixmem.store s.pixmem a.toNat v) := rfl

@[simp] theorem memWrite_gtl (s : State) (a v : Word) : (memWrite s a v).gtl = s.gtl := rfl
@[simp] theorem memWrite_ltg (s : State) (a v : Word) : (memWrite s a v).ltg = s.ltg := rfl
@[simp] theorem memWrite_param (s : State) (a v : Word) : (memWrite s a v).param = s.param := rfl
@[simp] theorem memWrite_gain (s : State) (a v : Word) : (memWrite s a v).gain = s.gain := rfl
@[simp] theorem memWrite_plut (s : State) (a v : Word) : (memWrite s a v).plut = s.plut := rfl
@[simp] theorem memWrite_status (s : State) (a v : Word) : (memWrite s a v).status = s.status := rfl
@[simp] theorem memWrite_result (s : State) (a v : Word) : (memWrite s a v).result = s.result := rfl
@[simp] theorem memWrite_seq (s : State) (a v : Word) : (memWrite s a v).seq = s.seq := rfl
@[simp] theorem memWrite_env (s : State) (a v : Word) : (memWrite s a v).env = s.env := rfl
@[simp] theorem memWrite_num (s : State) (a v : Word) : (memWrite s a v).num = s.num := rfl

theorem memRead_congr {s t : State} (h : s.pixmem = t.pixmem) (a : Word) : memRead s a = memRead t a := by
  simp [memRead, h]

/-- A command that answers a next state either ran through its rule, BUSY then 0, or raised a fault. -/
theorem settle_next {r : Except State State} {t : State} (h : settle r = .next t) :
    (∃ u, r = .ok u ∧ t = u.setBusy false) ∨ r = .error t := by
  cases r with
  | ok u => exact .inl ⟨u, rfl, by simpa [settle] using h.symm⟩
  | error u => exact .inr (by simpa [settle] using h)

/-- A command always answers a next state. -/
theorem settle_isNext (r : Except State State) : ∃ t, settle r = .next t := by
  cases r <;> exact ⟨_, rfl⟩

@[simp] theorem settle_ok (s : State) : settle (.ok s) = .next (s.setBusy false) := rfl

@[simp] theorem settle_error (s : State) : settle (.error s) = .next s := rfl

@[simp] theorem settle_raise (c : FaultCode) (s : State) : settle (raiseFault c s) = .next (s.setFault c) := rfl

@[simp] theorem gxBuild_gtl (s : State) : (gxBuild s).gtl = buildGtl s.num := rfl

@[simp] theorem gxBuild_ltg (s : State) : (gxBuild s).ltg = buildLtg s.num s.env.cfg.ltgDen := rfl

/-- The second half of reset fills the tables and sets READY; nothing else changes. -/
theorem resetFinish_eq (s : State) :
    resetFinish s =
      { s with
        gtl := buildGtl s.num, ltg := buildLtg s.num s.env.cfg.ltgDen,
        status := { s.status with ready := true } } := by
  simp only [resetFinish, gxBuild, State.setReady, State.withStatus, State.withLtg, State.withGtl]

end Sys2Proof.Machine
end

