-- ==== Sys2Proof/Laws/Tables.lean ====
section
/-!
SUPPORT. The entries of a table built by a function, and of the tables the micro-operations build.
-/

namespace Sys2Proof.Machine

@[simp] theorem tabulate_getElem {α : Type} (n : Nat) (f : Fin n → α) (i : Nat) (h : i < n) :
    (tabulate n f)[i] = f ⟨i, h⟩ := by simp [tabulate]

@[simp] theorem tabulate_getElem_fin {α : Type} (n : Nat) (f : Fin n → α) (i : Fin n) :
    (tabulate n f)[i] = f i := by simp [tabulate]

@[simp] theorem buildGtl_getElem (N : Numerics) (i : Fin 256) : (buildGtl N)[i] = gtlEntry N i := by
  simp [buildGtl]

@[simp] theorem buildLtg_getElem (N : Numerics) (den : Nat) (k : Fin 1025) :
    (buildLtg N den)[k] = ltgEntry N den k := by
  simp [buildLtg]

@[simp] theorem gainUnwritten_getElem (i : Fin 256) : gainUnwritten[i] = none := by simp [gainUnwritten]

@[simp] theorem plutUnwritten_getElem (i j : Fin 256) : plutUnwritten[i][j] = none := by simp [plutUnwritten]

/-- A `u8` index is the entry at the same number. -/
theorem atByte_eq {α : Type} (t : Vector α 256) (j : Byte) : atByte t j = t[j.toFin] := rfl

@[simp] theorem atByte_tabulate {α : Type} (f : Fin 256 → α) (j : Byte) : atByte (tabulate 256 f) j = f j.toFin := by
  simp [atByte_eq]

@[simp] theorem tcGain_gain (lux : ExactReal) (s : State) (i : Fin 256) :
    (tcGain lux s).gain[i] = some (gainEntry s.num lux s.gtl[i]) := by
  simp [tcGain, State.withGain]

/-- All entries of GAIN are written exactly if the written prefix is the whole table. -/
theorem writtenPrefix_eq_iff (g : Vector (Option ExactReal) 256) :
    writtenPrefix g = 256 ↔ ∀ i : Fin 256, (g[i]).isSome = true := by
  have hlen : g.toList.length = 256 := by simp
  unfold writtenPrefix
  constructor
  · intro h i
    have hall : g.toList.takeWhile Option.isSome = g.toList := by
      refine List.IsPrefix.eq_of_length (List.takeWhile_prefix _) (by omega)
    have hmem : g[i] ∈ g.toList.takeWhile Option.isSome := by
      rw [hall]; simp
    exact List.mem_takeWhile_imp hmem
  · intro h
    have : g.toList.takeWhile Option.isSome = g.toList := by
      rw [List.takeWhile_eq_self_iff]
      intro x hx
      simp only [Vector.mem_toList_iff] at hx
      obtain ⟨i, hi, rfl⟩ := Vector.getElem_of_mem hx
      exact h ⟨i, hi⟩
    rw [this, hlen]

/-- TC.COMPILE with GAIN wholly written: every populated entry from its gain, the others kept, PLUT_VALID set. -/
theorem tcCompile_of_written (s : State) (h : ∀ i : Fin 256, (s.gain[i]).isSome = true) :
    tcCompile s = .ok ((s.withPlut (plutCompiled s 256)).setPlutValid true) := by
  simp [tcCompile, (writtenPrefix_eq_iff s.gain).mpr h]

/-- The entries of a whole compile. -/
theorem plutCompiled_getElem (s : State) (i j : Fin 256) {g : ExactReal} (hg : s.gain[i] = some g) :
    (plutCompiled s 256)[i][j] = if j ≤ i then some (plutEntry s g j) else s.plut[i][j] := by
  have hi : i.val < 256 := i.isLt
  have hji : (j ≤ i) ↔ (j.val ≤ i.val) := Iff.rfl
  simp only [plutCompiled, tabulate_getElem_fin, hg, hi, true_and, hji]

end Sys2Proof.Machine
end

