-- ==== Sys2Proof/Laws/Pixel.lean ====
section
/-!
SUPPORT. What PX.REMAP, the pixel loop, the table build of APPLY and the abandoned APPLY do to a state (spec/42 R85 to R87,
spec/60 R114): the frame of each, and the words of PIXMEM after it.
-/

namespace Sys2Proof.Machine

/-- The remapped value of a word depends on PLUT and PIXFMT only. -/
theorem remapWord_congr {s t : State} (h : s.plut = t.plut) (hf : s.env.cfg = t.env.cfg) (w : Word) :
    remapWord s w = remapWord t w := by
  simp only [remapWord, plutRead, h, hf]

/-- PX.REMAP rewrites one word, or raises F_UNWRITTEN and changes nothing else. -/
theorem pxRemap_cases (a : Word) (s : State) :
    (∃ w, remapWord s (memRead s a) = some w ∧ pxRemap a s = .ok (memWrite s a w)) ∨
      (remapWord s (memRead s a) = none ∧ pxRemap a s = .error (s.setFault .unwritten)) := by
  unfold pxRemap
  cases h : remapWord s (memRead s a) with
  | none => exact .inr ⟨rfl, rfl⟩
  | some w => exact .inl ⟨w, rfl, rfl⟩

/-- The pixel loop changes PIXMEM and PIX_IDX; where it stops for an unwritten entry, FAULT too. -/
theorem pixelLoop_frame (n : Nat) : ∀ s : State,
    (∀ t, pixelLoop n s = .ok t →
      t = { s with pixmem := t.pixmem, seq := { s.seq with pixIdx := s.seq.pixIdx + n } } ∧
        (Pixmem.wf s.pixmem = true → Pixmem.wf t.pixmem = true)) ∧
    (∀ t, pixelLoop n s = .error t →
      t = { s with
        pixmem := t.pixmem, seq := { s.seq with pixIdx := t.seq.pixIdx }, status := { s.status with fault := .unwritten } } ∧
        (Pixmem.wf s.pixmem = true → Pixmem.wf t.pixmem = true)) := by
  induction n with
  | zero =>
    intro s
    refine ⟨fun t h => ?_, fun t h => by cases h⟩
    obtain rfl : s = t := by simpa [pixelLoop] using h
    exact ⟨rfl, id⟩
  | succ n ih =>
    intro s
    unfold pixelLoop
    rcases pxRemap_cases (nextPixel s) s with ⟨w, _, h⟩ | ⟨_, h⟩
    · rw [h]
      dsimp only
      obtain ⟨h1, h2⟩ := ih ((memWrite s (nextPixel s) w).setPixIdx ((memWrite s (nextPixel s) w).seq.pixIdx + 1))
      have hwf : Pixmem.wf s.pixmem = true → Pixmem.wf (memWrite s (nextPixel s) w).pixmem = true :=
        memWrite_pixmem_wf _ _
      constructor
      · intro t ht
        obtain ⟨e, hw⟩ := h1 t ht
        refine ⟨?_, fun hs => hw (hwf hs)⟩
        rw [e]
        simp only [State.setPixIdx, State.withSeq, memWrite, State.withPixmem]
        congr 2
        omega
      · intro t ht
        obtain ⟨e, hw⟩ := h2 t ht
        exact ⟨e, fun hs => hw (hwf hs)⟩
    · rw [h]
      refine ⟨fun t ht => by simp at ht, fun t ht => ?_⟩
      obtain rfl : s.setFault .unwritten = t := by simpa using ht
      exact ⟨rfl, id⟩

/-- The words after the pixel loop, where PLUT is written wherever it is read: those of the rest of the buffer remapped, the
others as they were. -/
theorem pixelLoop_words (n : Nat) : ∀ s : State, Pixmem.wf s.pixmem = true →
    s.seq.base.toNat + s.seq.pixIdx + n ≤ 2 ^ 32 → (∀ w, (remapWord s w).isSome = true) →
    ∃ t, pixelLoop n s = .ok t ∧
      ∀ a : Word,
        if s.seq.base.toNat + s.seq.pixIdx ≤ a.toNat ∧ a.toNat < s.seq.base.toNat + s.seq.pixIdx + n
        then remapWord s (memRead s a) = some (memRead t a) else memRead t a = memRead s a := by
  induction n with
  | zero =>
    intro s _ _ _
    refine ⟨s, rfl, fun a => ?_⟩
    rw [if_neg (by omega)]
  | succ n ih =>
    intro s hwf hlt hw
    obtain ⟨w, hrw⟩ := Option.isSome_iff_exists.mp (hw (memRead s (nextPixel s)))
    have hpx : pxRemap (nextPixel s) s = .ok (memWrite s (nextPixel s) w) := by simp [pxRemap, hrw]
    have hnat : (nextPixel s).toNat = s.seq.base.toNat + s.seq.pixIdx := by
      simp only [nextPixel, BitVec.toNat_add, BitVec.toNat_ofNat]
      omega
    have hrc : ∀ v, remapWord ((memWrite s (nextPixel s) w).setPixIdx (s.seq.pixIdx + 1)) v = remapWord s v :=
      fun v => remapWord_congr rfl rfl v
    obtain ⟨t, ht, hts⟩ := ih ((memWrite s (nextPixel s) w).setPixIdx (s.seq.pixIdx + 1))
      (memWrite_pixmem_wf _ _ hwf)
      (by simpa [State.setPixIdx, State.withSeq, memWrite, State.withPixmem] using (by omega))
      (fun v => by rw [hrc]; exact hw v)
    refine ⟨t, by rw [pixelLoop, hpx]; exact ht, fun a => ?_⟩
    have hb : ((memWrite s (nextPixel s) w).setPixIdx (s.seq.pixIdx + 1)).seq.base.toNat = s.seq.base.toNat := rfl
    have hi : ((memWrite s (nextPixel s) w).setPixIdx (s.seq.pixIdx + 1)).seq.pixIdx = s.seq.pixIdx + 1 := rfl
    have hread : memRead ((memWrite s (nextPixel s) w).setPixIdx (s.seq.pixIdx + 1)) a =
        if a.toNat = (nextPixel s).toNat then w else memRead s a := Pixmem.lookup_store w a.toNat hwf
    have h := hts a
    rw [hb, hi, hread, hrc] at h
    by_cases ha : a.toNat = (nextPixel s).toNat
    · have haa : a = nextPixel s := BitVec.eq_of_toNat_eq ha
      rw [if_neg (by omega), if_pos ha] at h
      rw [if_pos (by omega), h, haa, hrw]
    · rw [if_neg ha] at h
      by_cases hin : s.seq.base.toNat + s.seq.pixIdx ≤ a.toNat ∧ a.toNat < s.seq.base.toNat + s.seq.pixIdx + (n + 1)
      · rw [if_pos (by omega)] at h
        rwa [if_pos hin]
      · rw [if_neg (by omega)] at h
        rwa [if_neg hin]

/-- The table build of APPLY: skipped, done, or stopped at an unwritten entry of GAIN. -/
theorem compileIfNeeded_cases (s : State) :
    (compileIfNeeded s = .ok s ∧ s.status.plutValid = true ∧ s.env.cfg.plutCache ≠ .rebuild) ∨
      ((s.env.cfg.plutCache = .rebuild ∨ s.status.plutValid = false) ∧ GainWritten s ∧
        compileIfNeeded s = .ok ((s.withPlut (plutCompiled s 256)).setPlutValid true)) ∨
      (¬ GainWritten s ∧
        compileIfNeeded s = .error ((s.withPlut (plutCompiled s (writtenPrefix s.gain))).setFault .unwritten)) := by
  unfold compileIfNeeded
  split
  · rename_i h
    right
    by_cases hg : GainWritten s
    · exact .inl ⟨h, hg, tcCompile_of_written s hg⟩
    · refine .inr ⟨hg, ?_⟩
      have hne : writtenPrefix s.gain ≠ 256 := fun h => hg ((writtenPrefix_eq_iff _).mp h)
      simp only [tcCompile, if_neg hne, raiseFault]
  · rename_i h
    simp only [not_or, Bool.not_eq_false] at h
    exact .inl ⟨rfl, h.2, h.1⟩

/-- TC.COMPILE leaves the entries above the diagonal. -/
theorem plutCompiled_above (s : State) (rows : Nat) {i j : Fin 256} (h : i < j) :
    (plutCompiled s rows)[i][j] = s.plut[i][j] := by
  have hji : ¬ j.val ≤ i.val := by omega
  simp only [plutCompiled, tabulate_getElem_fin, hji, and_false, if_false]
  split <;> rfl

/-- The checks of APPLY pass exactly where R110 calls the input well-formed. -/
theorem applyCheck_none_iff (base len width height : Word) (s : State) :
    applyCheck base len width height s = none ↔ Accepted base len width height s := by
  unfold applyCheck Accepted pixelCount signed unsigned
  constructor
  · intro h
    repeat' split at h
    all_goals first | cases h; done | skip
    rename_i h1 h2 h3 h4
    exact ⟨by simpa using h1, by omega, by omega, by simpa using h3, by omega⟩
  · rintro ⟨h1, h2, h3, h4, h5⟩
    rw [if_neg (by simp [h1]), if_neg (by omega), if_neg (by simp [h4]), if_neg (by omega)]

/-- A failed check of APPLY is F_NOGAIN or F_GEOM. -/
theorem applyCheck_some {base len width height : Word} {s : State} {c : FaultCode}
    (h : applyCheck base len width height s = some c) : c = .noGain ∨ c = .geom := by
  unfold applyCheck at h
  repeat' split at h
  all_goals first | (injection h with h; subst h; simp) | cases h

/-- With the populated triangle written PX.REMAP never lacks an entry (R89). -/
theorem remapWord_isSome {s : State} (h : PlutWritten s) (w : Word) : (remapWord s w).isSome = true := by
  have key : ∀ l c : Byte, c.toNat ≤ l.toNat → ∃ v, plutRead s l c = some v := by
    intro l c hlc
    exact Option.isSome_iff_exists.mp (h l.toFin c.toFin hlc)
  have hmax : ∀ r g b : Byte, r.toNat ≤ (max3 r g b).toNat ∧ g.toNat ≤ (max3 r g b).toNat ∧
      b.toNat ≤ (max3 r g b).toNat := by
    intro r g b
    simp only [max3, BitVec.lt_def]
    repeat' split
    all_goals omega
  simp only [remapWord]
  obtain ⟨h1, h2, h3⟩ := hmax (channel w s.env.cfg.pixfmt.posR) (channel w s.env.cfg.pixfmt.posG)
    (channel w s.env.cfg.pixfmt.posB)
  obtain ⟨x, hx⟩ := key _ _ h1
  obtain ⟨y, hy⟩ := key _ _ h2
  obtain ⟨z, hz⟩ := key _ _ h3
  rw [hx, hy, hz]
  rfl

/-- An abandoned APPLY has changed words of PIXMEM only. -/
theorem abandonPixels_frame (free : Nat → Bool) (base : Word) (n : Nat) (s : State) :
    abandonPixels free base n s = { s with pixmem := (abandonPixels free base n s).pixmem } ∧
      (Pixmem.wf s.pixmem = true → Pixmem.wf (abandonPixels free base n s).pixmem = true) := by
  induction n with
  | zero => exact ⟨rfl, id⟩
  | succ n ih =>
    simp only [abandonPixels]
    split
    · split
      · refine ⟨?_, fun h => memWrite_pixmem_wf _ _ (ih.2 h)⟩
        conv_lhs => rw [ih.1]
        rfl
      · exact ih
    · exact ih

/-- The words an abandoned APPLY leaves: each of its buffer old or remapped, the others as they were. -/
theorem abandonPixels_words (free : Nat → Bool) (base : Word) (n : Nat) (s : State) (hwf : Pixmem.wf s.pixmem = true)
    (hlt : base.toNat + n ≤ 2 ^ 32) (a : Word) :
    memRead (abandonPixels free base n s) a = memRead s a ∨
      (base.toNat ≤ a.toNat ∧ a.toNat < base.toNat + n ∧
        remapWord s (memRead s a) = some (memRead (abandonPixels free base n s) a)) := by
  induction n with
  | zero => exact .inl rfl
  | succ n ih =>
    have ih := ih (by omega)
    obtain ⟨hfr, hwf'⟩ := abandonPixels_frame free base n s
    have hnat : (base + BitVec.ofNat 32 n).toNat = base.toNat + n := by
      simp only [BitVec.toNat_add, BitVec.toNat_ofNat]
      omega
    simp only [abandonPixels]
    split
    · rename_i w hw
      split
      · have hread : memRead (memWrite (abandonPixels free base n s) (base + BitVec.ofNat 32 n) w) a =
            if a.toNat = (base + BitVec.ofNat 32 n).toNat then w else memRead (abandonPixels free base n s) a :=
          Pixmem.lookup_store w a.toNat (hwf' hwf)
        rw [hread]
        split
        · rename_i ha
          have haa : a = base + BitVec.ofNat 32 n := BitVec.eq_of_toNat_eq ha
          right
          refine ⟨by omega, by omega, ?_⟩
          rw [remapWord_congr (t := s) (by rw [hfr]) (by rw [hfr])] at hw
          rcases ih with ih | ⟨_, h, _⟩
          · rw [← ih, haa]; exact hw
          · omega
        · rcases ih with ih | ⟨h1, h2, h3⟩
          · exact .inl ih
          · exact .inr ⟨h1, by omega, h3⟩
      · rcases ih with ih | ⟨h1, h2, h3⟩
        · exact .inl ih
        · exact .inr ⟨h1, by omega, h3⟩
    · rcases ih with ih | ⟨h1, h2, h3⟩
      · exact .inl ih
      · exact .inr ⟨h1, by omega, h3⟩

end Sys2Proof.Machine
end

