-- ==== Sys2Proof/Laws/Commands.lean ====
section
/-!
SUPPORT. What each command's rule does to a state, case by case: INIT (spec/41 R76), APPLY (spec/42 R85), and the query
commands (spec/43 R100 to R102).
-/

namespace Sys2Proof.Machine

/-- INIT raises F_PARAM on a NaN pattern, and otherwise writes PARAM, GAIN and three bits of STATUS. -/
theorem execInit_cases (p : Word) (gains : Gains) (matrix : Option (List Word)) (s : State) :
    (f32IsNaN p = true ∧ execInit p gains matrix s = .next (s.setFault .param)) ∨
      (f32IsNaN p = false ∧ ∃ t, execInit p gains matrix s = .next t ∧
        t.param = some p ∧ (∀ i : Fin 256, t.gain[i] = some (gainEntry s.num (tcLux s.num p) s.gtl[i])) ∧
        t.status = { s.status with gainValid := true, plutValid := false, busy := false } ∧
        t = { s with param := t.param, gain := t.gain, status := t.status }) := by
  unfold execInit
  cases h : f32IsNaN p with
  | true => exact .inl ⟨rfl, by simp⟩
  | false =>
    refine .inr ⟨rfl, _, rfl, rfl, fun i => ?_, rfl, rfl⟩
    exact tcGain_gain (tcLux s.num p) (s.withParam (some p)) i

/-- APPLY: a failed check, GAIN not wholly written, an unwritten entry of PLUT, or the whole buffer remapped. -/
theorem execApply_cases (base len width height : Word) (s : State) :
    (∃ c, applyCheck base len width height s = some c ∧
        execApply base len width height s = .next (s.setFault c)) ∨
      (Accepted base len width height s ∧ ¬ GainWritten s ∧
        execApply base len width height s = .next
          (((latchApply base len width height s).withPlut (plutCompiled s (writtenPrefix s.gain))).setFault .unwritten)) ∨
      (Accepted base len width height s ∧ ∃ u,
        compileIfNeeded (latchApply base len width height s) = .ok u ∧
        ((∃ t, pixelLoop (pixelCount width height).toNat (u.setPixIdx 0) = .error t ∧
            execApply base len width height s = .next t) ∨
          (∃ t, pixelLoop (pixelCount width height).toNat (u.setPixIdx 0) = .ok t ∧
            execApply base len width height s = .next (t.setBusy false)))) := by
  unfold execApply
  cases hc : applyCheck base len width height s with
  | some c => exact .inl ⟨c, rfl, rfl⟩
  | none =>
    have hacc := (applyCheck_none_iff base len width height s).mp hc
    dsimp only
    unfold applyBody
    rcases compileIfNeeded_cases (latchApply base len width height s) with ⟨h, _⟩ | ⟨_, _, h⟩ | ⟨hg, h⟩
    · rw [h]
      dsimp only
      refine .inr (.inr ⟨hacc, _, rfl, ?_⟩)
      cases hl : pixelLoop (pixelCount width height).toNat ((latchApply base len width height s).setPixIdx 0) with
      | ok t => exact .inr ⟨t, rfl, rfl⟩
      | error t => exact .inl ⟨t, rfl, rfl⟩
    · rw [h]
      dsimp only
      refine .inr (.inr ⟨hacc, _, rfl, ?_⟩)
      cases hl : pixelLoop (pixelCount width height).toNat
        ((((latchApply base len width height s).withPlut
          (plutCompiled (latchApply base len width height s) 256)).setPlutValid true).setPixIdx 0) with
      | ok t => exact .inr ⟨t, rfl, rfl⟩
      | error t => exact .inl ⟨t, rfl, rfl⟩
    · rw [h]
      exact .inr (.inl ⟨hacc, hg, rfl⟩)

/-- What APPLY leaves alone in every case. -/
theorem execApply_frame {base len width height : Word} {s t : State}
    (h : execApply base len width height s = .next t) :
    t = { s with plut := t.plut, pixmem := t.pixmem, status := t.status, seq := t.seq } ∧
      (Pixmem.wf s.pixmem = true → Pixmem.wf t.pixmem = true) ∧
      (∀ i j : Fin 256, i < j → t.plut[i][j] = s.plut[i][j]) ∧
      t.status.ready = s.status.ready ∧ t.status.gainValid = s.status.gainValid ∧
      ((t.status.fault = s.status.fault ∧ t.status.busy = false) ∨
        (t.status.fault ≠ .none ∧ t.status.fault ≠ .overlap ∧ t.status.busy = s.status.busy)) := by
  rcases execApply_cases base len width height s with ⟨c, _, he⟩ | ⟨_, _, he⟩ | ⟨_, u, hu, ⟨v, hv, he⟩ | ⟨v, hv, he⟩⟩ <;>
    rw [he] at h <;> injection h with h <;> subst h
  · rename_i hc
    refine ⟨rfl, id, fun _ _ _ => rfl, rfl, rfl, .inr ⟨?_, ?_, rfl⟩⟩ <;>
      rcases applyCheck_some hc with rfl | rfl <;> simp [State.setFault, State.withStatus]
  · refine ⟨rfl, id, fun i j hij => ?_, rfl, rfl, .inr ⟨by simp [State.setFault, State.withStatus],
      by simp [State.setFault, State.withStatus], rfl⟩⟩
    exact plutCompiled_above s _ hij
  all_goals
    have hfr := pixelLoop_frame (pixelCount width height).toNat (u.setPixIdx 0)
    have hcu : u = { latchApply base len width height s with
          plut := u.plut, status := { s.status with plutValid := u.status.plutValid } } ∧
        ∀ i j : Fin 256, i < j → u.plut[i][j] = s.plut[i][j] := by
      rcases compileIfNeeded_cases (latchApply base len width height s) with ⟨h, _⟩ | ⟨_, _, h⟩ | ⟨_, h⟩ <;>
        rw [h] at hu
      · injection hu with hu; subst hu; exact ⟨rfl, fun _ _ _ => rfl⟩
      · injection hu with hu; subst hu; exact ⟨rfl, fun i j hij => plutCompiled_above _ 256 hij⟩
      · cases hu
  · obtain ⟨e, hw⟩ := hfr.2 v hv
    rw [hcu.1] at e
    have hp : v.plut = u.plut := by rw [e]; rfl
    refine ⟨?_, ?_, ?_, ?_, ?_, ?_⟩
    · rw [e]; rfl
    · intro hs; exact hw (by rw [hcu.1]; exact hs)
    · intro i j hij; rw [hp]; exact hcu.2 i j hij
    · rw [e]; rfl
    · rw [e]; rfl
    · right; rw [e]; exact ⟨by simp, by simp, rfl⟩
  · obtain ⟨e, hw⟩ := hfr.1 v hv
    rw [hcu.1] at e
    have hp : v.plut = u.plut := by rw [e]; rfl
    refine ⟨?_, ?_, ?_, ?_, ?_, ?_⟩
    · rw [e]; rfl
    · intro hs; exact hw (by rw [hcu.1]; exact hs)
    · intro i j hij; rw [State.setBusy_plut, hp]; exact hcu.2 i j hij
    · rw [e]; rfl
    · rw [e]; rfl
    · left; rw [e]; exact ⟨rfl, rfl⟩

/-- What every command leaves alone, and how it ends: with the fault it found and BUSY = 0, or with a fault of its own. -/
theorem exec_frame {i : Instr} {s t : State} (h : exec i s = .next t) :
    t.env = s.env ∧ t.gtl = s.gtl ∧ t.ltg = s.ltg ∧ t.status.ready = s.status.ready ∧
      (Pixmem.wf s.pixmem = true → Pixmem.wf t.pixmem = true) ∧
      (∀ i j : Fin 256, i < j → t.plut[i][j] = s.plut[i][j]) ∧
      ((t.status.fault = s.status.fault ∧ t.status.busy = false) ∨
        (t.status.fault ≠ .none ∧ t.status.fault ≠ .overlap ∧ t.status.busy = s.status.busy)) := by
  cases i with
  | init p gains matrix =>
    rcases execInit_cases p gains matrix s with ⟨_, he⟩ | ⟨_, u, he, _, _, hst, hu⟩ <;>
      have h := he.symm.trans h <;> injection h with h <;> subst h
    · exact ⟨rfl, rfl, rfl, rfl, id, fun _ _ _ => rfl, .inr ⟨by simp [State.setFault, State.withStatus],
        by simp [State.setFault, State.withStatus], rfl⟩⟩
    · refine ⟨?_, ?_, ?_, ?_, ?_, ?_, .inl ⟨?_, ?_⟩⟩
      · rw [hu]
      · rw [hu]
      · rw [hu]
      · rw [hst]
      · intro hs; rw [hu]; exact hs
      · intro i j _; rw [hu]
      · rw [hst]
      · rw [hst]
  | apply base len width height =>
    obtain ⟨e, hw, hp, hr, _, hf⟩ := execApply_frame h
    refine ⟨?_, ?_, ?_, hr, hw, hp, hf⟩ <;> rw [e]
  | pmin => cases h; exact ⟨rfl, rfl, rfl, rfl, id, fun _ _ _ => rfl, .inl ⟨rfl, rfl⟩⟩
  | pmax => cases h; exact ⟨rfl, rfl, rfl, rfl, id, fun _ _ _ => rfl, .inl ⟨rfl, rfl⟩⟩
  | defp lux => cases h; exact ⟨rfl, rfl, rfl, rfl, id, fun _ _ _ => rfl, .inl ⟨rfl, rfl⟩⟩

end Sys2Proof.Machine
end

