-- ==== Sys2Proof/Laws/Decode.lean ====
section
/-!
SUPPORT. The header (spec/30_encoding.md R46, R50, R53) in terms of the number it is: which command it selects, and when it
selects none.
-/

namespace Sys2Proof

/-- OPC is the header's remainder by 256. -/
theorem headerOpc_toNat (w : Word) : (headerOpc w).toNat = w.toNat % 256 := by
  simp [headerOpc, BitVec.extractLsb'_toNat]

/-- The bits 31:9 are the header's quotient by 512. -/
theorem headerZero_toNat (w : Word) : (headerZero w).toNat = w.toNat / 512 := by
  have := w.isLt
  simp [headerZero, BitVec.extractLsb'_toNat, Nat.shiftRight_eq_div_pow]
  omega

/-- M is bit 8 of the header's number. -/
theorem headerM_eq (w : Word) : headerM w = decide (w.toNat / 256 % 2 = 1) := by
  simp [headerM, BitVec.getLsbD, Nat.testBit_eq_decide_div_mod_eq]

/-- The opcode map on the header's number. -/
theorem headerKind_spec (w : Word) :
    headerKind w =
      if w.toNat / 512 ≠ 0 then .error .reservedBits
      else if w.toNat % 256 = 1 then .ok (.init (decide (w.toNat / 256 % 2 = 1)))
      else if w.toNat % 256 = 2 then withoutMatrix w .apply
      else if w.toNat % 256 = 3 then withoutMatrix w .pmin
      else if w.toNat % 256 = 4 then withoutMatrix w .pmax
      else if w.toNat % 256 = 5 then withoutMatrix w .defp
      else .error (.opcode (headerOpc w)) := by
  unfold headerKind
  have hz : (headerZero w ≠ 0#23) ↔ (w.toNat / 512 ≠ 0) := by
    rw [← headerZero_toNat, ne_eq, ne_eq, ← BitVec.toNat_inj]; rfl
  have ho : ∀ b : Byte, headerOpc w = b ↔ w.toNat % 256 = b.toNat := by
    intro b; rw [← headerOpc_toNat, BitVec.toNat_inj]
  simp only [hz, ho, headerM_eq]
  rfl

theorem withoutMatrix_spec (w : Word) (k : HeaderKind) :
    withoutMatrix w k = if w.toNat / 256 % 2 = 1 then .error .matrixOutsideInit else .ok k := by
  simp [withoutMatrix, headerM_eq]

/-- A header selects a command exactly where its number is one of six. -/
theorem headerKind_ok_iff (w : Word) (k : HeaderKind) :
    headerKind w = .ok k ↔
      (w = 0x00000001#32 ∧ k = .init false) ∨ (w = 0x00000101#32 ∧ k = .init true) ∨ (w = 0x00000002#32 ∧ k = .apply) ∨
        (w = 0x00000003#32 ∧ k = .pmin) ∨ (w = 0x00000004#32 ∧ k = .pmax) ∨ (w = 0x00000005#32 ∧ k = .defp) := by
  constructor
  · intro h
    have heq : ∀ n : Nat, n < 2 ^ 32 → w.toNat = n → w = BitVec.ofNat 32 n := by
      intro n hn hw
      rw [← hw, BitVec.ofNat_toNat, BitVec.setWidth_eq]
    simp only [headerKind_spec, withoutMatrix_spec] at h
    repeat' split at h
    all_goals first | cases h; done | skip
    all_goals
      injection h with h
      subst h
    · by_cases hm : w.toNat / 256 % 2 = 1
      · exact .inr (.inl ⟨heq 257 (by omega) (by omega), by simp [hm]⟩)
      · exact .inl ⟨heq 1 (by omega) (by omega), by simp [hm]⟩
    · exact .inr (.inr (.inl ⟨heq 2 (by omega) (by omega), rfl⟩))
    · exact .inr (.inr (.inr (.inl ⟨heq 3 (by omega) (by omega), rfl⟩)))
    · exact .inr (.inr (.inr (.inr (.inl ⟨heq 4 (by omega) (by omega), rfl⟩))))
    · exact .inr (.inr (.inr (.inr (.inr ⟨heq 5 (by omega) (by omega), rfl⟩))))
  · rintro (⟨rfl, rfl⟩ | ⟨rfl, rfl⟩ | ⟨rfl, rfl⟩ | ⟨rfl, rfl⟩ | ⟨rfl, rfl⟩ | ⟨rfl, rfl⟩) <;> rfl

/-- The only errors of a header are the illegal forms of R53. -/
theorem headerKind_error {w : Word} {e : DecodeError} (h : headerKind w = .error e) :
    e ≠ .incomplete ∧ e ≠ .noHeader := by
  simp only [headerKind_spec, withoutMatrix_spec] at h
  repeat' split at h
  all_goals first | (cases h; done) | (injection h with h; subst h; exact ⟨by simp, by simp⟩)

/-- A header is illegal (R53) exactly where it selects no command. -/
theorem illegalHeader_iff (w : Word) :
    Machine.IllegalHeader w ↔ ∃ e, headerKind w = .error e := by
  have hbit : (w.getLsbD 8 = true) ↔ w.toNat / 256 % 2 = 1 := by
    have := headerM_eq w
    unfold headerM at this
    rw [this]; simp
  unfold Machine.IllegalHeader
  rw [hbit]
  simp only [headerKind_spec, withoutMatrix_spec]
  repeat' split
  all_goals first
    | exact ⟨fun _ => ⟨_, rfl⟩, fun _ => by omega⟩
    | exact ⟨fun h => absurd h (by omega), fun ⟨e, he⟩ => by cases he⟩

end Sys2Proof
end

