-- ==== Sys2Proof/Laws/Real.lean ====
section
/-!
SUPPORT. REAL is exact (spec/00_scope.md R6): the operations stand for the functions of the real numbers, and the rational
bounds of an expression enclose the real number it stands for.
-/

namespace Sys2Proof.Machine

/-! ### The operations -/

@[simp] theorem val_rat (q : Rat) : (ExactReal.rat q).val = q := rfl

@[simp] theorem val_realAdd (a b : ExactReal) : (realAdd a b).val = a.val + b.val := by
  unfold realAdd; split <;> simp [ExactReal.val]

@[simp] theorem val_realSub (a b : ExactReal) : (realSub a b).val = a.val - b.val := by
  unfold realSub; split <;> simp [ExactReal.val]

@[simp] theorem val_realMul (a b : ExactReal) : (realMul a b).val = a.val * b.val := by
  unfold realMul
  split
  · simp
  · split
    · rename_i h; rcases h with h | h <;> simp [h]
    · simp [ExactReal.val]

@[simp] theorem val_realDiv (a b : ExactReal) : (realDiv a b).val = a.val / b.val := by
  unfold realDiv
  split
  · split <;> simp [ExactReal.val]
  · rfl

@[simp] theorem val_lit (n : Int) (d : Nat) : (lit n d).val = (n : ℝ) / d := by
  simp [lit, Rat.mkRat_eq_div]

theorem pow2_eq (e : Int) : ((pow2 e : Rat) : ℝ) = (2 : ℝ) ^ e := by
  cases e with
  | ofNat n => simp [pow2]
  | negSucc n => simp [pow2, zpow_negSucc]

theorem pow2_pos (e : Int) : 0 < pow2 e := by
  have : (0 : ℝ) < ((pow2 e : Rat) : ℝ) := by rw [pow2_eq]; positivity
  exact_mod_cast this

@[simp] theorem val_realPow (a b : ExactReal) : (realPow a b).val = a.val ^ b.val := by
  unfold realPow
  split
  · rename_i x y
    split
    · rename_i h; simp [h]
    · split
      · rename_i h
        have hy : ((y : Rat) : ℝ) ≠ 0 := by exact_mod_cast h.2.ne'
        simp [h.1, Real.zero_rpow hy]
      · rfl
  · rfl

@[simp] theorem val_realExp2 (a : ExactReal) : (realExp2 a).val = 2 ^ a.val := by
  unfold realExp2
  split
  · rename_i q
    split
    · rename_i h
      have hq : ((q : Rat) : ℝ) = ((q.num : Int) : ℝ) := by
        have := Rat.den_eq_one_iff q |>.mp h.1
        exact_mod_cast this.symm
      rw [val_rat, pow2_eq, val_rat, hq, Real.rpow_intCast]
    · rfl
  · rfl

@[simp] theorem val_realLog2 (a : ExactReal) : (realLog2 a).val = Real.logb 2 a.val := by
  unfold realLog2
  split
  · rename_i q
    split
    · rename_i h
      have hq : ((q : Rat) : ℝ) = (2 : ℝ) ^ (floorLog2 q) := by rw [← pow2_eq, ← h.2]
      rw [val_rat, val_rat, hq, ← Real.rpow_intCast, Real.logb_rpow (by norm_num) (by norm_num)]
      norm_cast
    · rfl
  · rfl

/-! ### Bounds -/

/-- The bounds enclose the number. -/
def Bounds.Enclose (b : Bounds) (x : ℝ) : Prop :=
  (∀ l, b.lo = some l → (l : ℝ) ≤ x) ∧ (∀ h, b.hi = some h → x ≤ (h : ℝ))

theorem Bounds.unknown_enclose (x : ℝ) : Bounds.unknown.Enclose x := by
  simp [Bounds.Enclose, Bounds.unknown]

theorem both_some {f : Rat → Rat → Rat} {a b : Option Rat} {c : Rat} (h : both f a b = some c) :
    ∃ x y, a = some x ∧ b = some y ∧ c = f x y := by
  cases a <;> cases b <;> simp_all [both]

theorem Bounds.add_enclose {a b : Bounds} {x y : ℝ} (ha : a.Enclose x) (hb : b.Enclose y) :
    (a.add b).Enclose (x + y) := by
  constructor
  · intro l hl
    obtain ⟨u, v, hu, hv, rfl⟩ := both_some hl
    push_cast; linarith [ha.1 u hu, hb.1 v hv]
  · intro l hl
    obtain ⟨u, v, hu, hv, rfl⟩ := both_some hl
    push_cast; linarith [ha.2 u hu, hb.2 v hv]

theorem Bounds.sub_enclose {a b : Bounds} {x y : ℝ} (ha : a.Enclose x) (hb : b.Enclose y) :
    (a.sub b).Enclose (x - y) := by
  constructor
  · intro l hl
    obtain ⟨u, v, hu, hv, rfl⟩ := both_some hl
    push_cast; linarith [ha.1 u hu, hb.2 v hv]
  · intro l hl
    obtain ⟨u, v, hu, hv, rfl⟩ := both_some hl
    push_cast; linarith [ha.2 u hu, hb.1 v hv]

/-- A product of two numbers lies between the least and the greatest product of their bounds. -/
theorem mul_between {al ah bl bh x y : ℝ} (h1 : al ≤ x) (h2 : x ≤ ah) (h3 : bl ≤ y) (h4 : y ≤ bh) :
    min (min (al * bl) (al * bh)) (min (ah * bl) (ah * bh)) ≤ x * y ∧
      x * y ≤ max (max (al * bl) (al * bh)) (max (ah * bl) (ah * bh)) := by
  have key : ∀ z, al ≤ z → z ≤ ah → ∀ w, min (al * w) (ah * w) ≤ z * w ∧ z * w ≤ max (al * w) (ah * w) := by
    intro z hz hz' w
    rcases le_total 0 w with hw | hw
    · exact ⟨(min_le_left _ _).trans (mul_le_mul_of_nonneg_right hz hw),
        (mul_le_mul_of_nonneg_right hz' hw).trans (le_max_right _ _)⟩
    · exact ⟨(min_le_right _ _).trans (mul_le_mul_of_nonpos_right hz' hw),
        (mul_le_mul_of_nonpos_right hz hw).trans (le_max_left _ _)⟩
  have kx : min (x * bl) (x * bh) ≤ x * y ∧ x * y ≤ max (x * bl) (x * bh) := by
    rcases le_total 0 x with hx | hx
    · exact ⟨(min_le_left _ _).trans (mul_le_mul_of_nonneg_left h3 hx),
        (mul_le_mul_of_nonneg_left h4 hx).trans (le_max_right _ _)⟩
    · exact ⟨(min_le_right _ _).trans (mul_le_mul_of_nonpos_left h4 hx),
        (mul_le_mul_of_nonpos_left h3 hx).trans (le_max_left _ _)⟩
  have kl := key x h1 h2 bl
  have kh := key x h1 h2 bh
  refine ⟨le_trans (le_min ?_ ?_) kx.1, kx.2.trans (max_le ?_ ?_)⟩
  · exact le_trans (le_min ((min_le_left _ _).trans (min_le_left _ _)) ((min_le_right _ _).trans (min_le_left _ _))) kl.1
  · exact le_trans (le_min ((min_le_left _ _).trans (min_le_right _ _)) ((min_le_right _ _).trans (min_le_right _ _))) kh.1
  · exact kl.2.trans (max_le ((le_max_left _ _).trans (le_max_left _ _)) ((le_max_left _ _).trans (le_max_right _ _)))
  · exact kh.2.trans (max_le ((le_max_right _ _).trans (le_max_left _ _)) ((le_max_right _ _).trans (le_max_right _ _)))

theorem Bounds.mul_enclose {a b : Bounds} {x y : ℝ} (ha : a.Enclose x) (hb : b.Enclose y) :
    (a.mul b).Enclose (x * y) := by
  unfold Bounds.mul
  split
  · rename_i al ah bl bh h1 h2 h3 h4
    have hxy := mul_between (ha.1 _ h1) (ha.2 _ h2) (hb.1 _ h3) (hb.2 _ h4)
    constructor
    · rintro l ⟨⟩; push_cast; exact hxy.1
    · rintro l ⟨⟩; push_cast; exact hxy.2
  · rename_i al bl h1 h2 _
    split
    · rename_i hnn
      have ha' := ha.1 _ h1
      have hb' := hb.1 _ h2
      have h0 : (0 : ℝ) ≤ al := by exact_mod_cast hnn.1
      have h0' : (0 : ℝ) ≤ bl := by exact_mod_cast hnn.2
      constructor
      · rintro l ⟨⟩; push_cast; exact mul_le_mul ha' hb' h0' (h0.trans ha')
      · rintro l ⟨⟩
    · exact Bounds.unknown_enclose _
  · exact Bounds.unknown_enclose _

theorem Bounds.inv_enclose {a : Bounds} {x : ℝ} (ha : a.Enclose x) : a.inv.Enclose x⁻¹ := by
  unfold Bounds.inv
  split
  · rename_i l h hl hh
    split
    · rename_i hne
      have h1 := ha.1 _ hl
      have h2 := ha.2 _ hh
      rcases hne with hpos | hneg
      · have hpos' : (0 : ℝ) < l := by exact_mod_cast hpos
        constructor
        · rintro u ⟨⟩; push_cast; exact inv_anti₀ (hpos'.trans_le h1) h2
        · rintro u ⟨⟩; push_cast; exact inv_anti₀ hpos' h1
      · have hneg' : (h : ℝ) < 0 := by exact_mod_cast hneg
        constructor
        · rintro u ⟨⟩; push_cast
          rw [inv_le_inv_of_neg hneg' (h2.trans_lt hneg')]; exact h2
        · rintro u ⟨⟩; push_cast
          rw [inv_le_inv_of_neg (h2.trans_lt hneg') (h1.trans_lt (h2.trans_lt hneg'))]; exact h1
    · exact Bounds.unknown_enclose _
  · exact Bounds.unknown_enclose _

/-! ### Roots, powers of two and logarithms -/

theorem rootLo_pow_le {d : Nat} (n : Nat) (hd : 1 ≤ d) : rootLo d n ^ d ≤ n := by
  unfold rootLo
  dsimp only
  split
  · assumption
  · rw [Nat.zero_pow hd]; exact Nat.zero_le _

theorem le_rootHi_pow {d : Nat} (n : Nat) (hd : 1 ≤ d) : n ≤ rootHi d n ^ d := by
  unfold rootHi
  dsimp only
  split
  · assumption
  · split
    · assumption
    · exact Nat.le_self_pow (by omega) n

/-- From `2^s * 2^x` at most, `k` lower roots stay at most `2^s * 2^((x + m) / 2^k)`. -/
theorem exp2Fraction_le (s : Nat) : ∀ (k m r : Nat) (x : ℝ), 0 ≤ x → m < 2 ^ k → (r : ℝ) ≤ 2 ^ s * (2 : ℝ) ^ x →
    (exp2Fraction (rootLo 2) s k m r : ℝ) ≤ 2 ^ s * (2 : ℝ) ^ ((x + m) / 2 ^ k) := by
  intro k
  induction k with
  | zero =>
    intro m r x _ hm hr
    have : m = 0 := by omega
    subst this
    simpa [exp2Fraction] using hr
  | succ k ih =>
    intro m r x hx hm hr
    have hm' : m / 2 < 2 ^ k := by rw [pow_succ] at hm; omega
    have hsplit : ((m : ℕ) : ℝ) = (m % 2 : ℕ) + 2 * (m / 2 : ℕ) := by exact_mod_cast (Nat.mod_add_div m 2).symm
    have hexp : ((x + (m % 2 : ℕ)) / 2 + (m / 2 : ℕ)) / 2 ^ k = (x + m) / 2 ^ (k + 1) := by
      rw [hsplit, pow_succ]; field_simp; ring
    unfold exp2Fraction
    split
    · rename_i h
      have := ih (m / 2) r (x / 2) (by positivity) hm' (by
        rw [h.2]; push_cast
        exact le_mul_of_one_le_right (by positivity) (Real.one_le_rpow (by norm_num) (by positivity)))
      have hexp' : (x / 2 + (m / 2 : ℕ)) / 2 ^ k = (x + m) / 2 ^ (k + 1) := by simpa [h.1] using hexp
      rwa [hexp'] at this
    · have h2 := rootLo_pow_le (r * 2 ^ (s + m % 2)) (d := 2) (by norm_num)
      have h3 : ((rootLo 2 (r * 2 ^ (s + m % 2)) : ℕ) : ℝ) ^ 2 ≤ (2 ^ s * (2 : ℝ) ^ ((x + (m % 2 : ℕ)) / 2)) ^ 2 := by
        calc ((rootLo 2 (r * 2 ^ (s + m % 2)) : ℕ) : ℝ) ^ 2 ≤ (r : ℝ) * 2 ^ (s + m % 2) := by exact_mod_cast h2
          _ ≤ (2 ^ s * (2 : ℝ) ^ x) * 2 ^ (s + m % 2) := by gcongr
          _ = (2 ^ s * (2 : ℝ) ^ ((x + (m % 2 : ℕ)) / 2)) ^ 2 := by
            rw [mul_pow, ← Real.rpow_natCast ((2 : ℝ) ^ ((x + (m % 2 : ℕ)) / 2)) 2, ← Real.rpow_mul (by norm_num),
              show (x + ((m % 2 : ℕ) : ℝ)) / 2 * ((2 : ℕ) : ℝ) = x + (m % 2 : ℕ) by push_cast; ring,
              Real.rpow_add (by norm_num), Real.rpow_natCast, pow_add]
            ring
      have h4 := (le_abs_self _).trans (abs_le_of_sq_le_sq h3 (by positivity))
      have := ih (m / 2) _ ((x + (m % 2 : ℕ)) / 2) (by positivity) hm' h4
      rwa [hexp] at this

/-- From `2^s * 2^x` at least, `k` upper roots stay at least `2^s * 2^((x + m) / 2^k)`. -/
theorem le_exp2Fraction (s : Nat) : ∀ (k m r : Nat) (x : ℝ), m < 2 ^ k → 2 ^ s * (2 : ℝ) ^ x ≤ (r : ℝ) →
    2 ^ s * (2 : ℝ) ^ ((x + m) / 2 ^ k) ≤ (exp2Fraction (rootHi 2) s k m r : ℝ) := by
  intro k
  induction k with
  | zero =>
    intro m r x hm hr
    have : m = 0 := by omega
    subst this
    simpa [exp2Fraction] using hr
  | succ k ih =>
    intro m r x hm hr
    have hm' : m / 2 < 2 ^ k := by rw [pow_succ] at hm; omega
    have hsplit : ((m : ℕ) : ℝ) = (m % 2 : ℕ) + 2 * (m / 2 : ℕ) := by exact_mod_cast (Nat.mod_add_div m 2).symm
    have hexp : ((x + (m % 2 : ℕ)) / 2 + (m / 2 : ℕ)) / 2 ^ k = (x + m) / 2 ^ (k + 1) := by
      rw [hsplit, pow_succ]; field_simp; ring
    unfold exp2Fraction
    split
    · rename_i h
      have hx : x ≤ 0 := by
        by_contra hx
        have h1 : (1 : ℝ) < 2 ^ x := Real.one_lt_rpow (by norm_num) (not_le.mp hx)
        rw [h.2] at hr
        push_cast at hr
        have h2 : (0 : ℝ) < 2 ^ s := by positivity
        nlinarith
      have := ih (m / 2) r (x / 2) hm' (by
        rw [h.2]; push_cast
        exact mul_le_of_le_one_right (by positivity) (Real.rpow_le_one_of_one_le_of_nonpos (by norm_num) (by linarith)))
      have hexp' : (x / 2 + (m / 2 : ℕ)) / 2 ^ k = (x + m) / 2 ^ (k + 1) := by simpa [h.1] using hexp
      rwa [hexp'] at this
    · have h2 := le_rootHi_pow (r * 2 ^ (s + m % 2)) (d := 2) (by norm_num)
      have h3 : (2 ^ s * (2 : ℝ) ^ ((x + (m % 2 : ℕ)) / 2)) ^ 2 ≤ ((rootHi 2 (r * 2 ^ (s + m % 2)) : ℕ) : ℝ) ^ 2 := by
        calc (2 ^ s * (2 : ℝ) ^ ((x + (m % 2 : ℕ)) / 2)) ^ 2 = (2 ^ s * (2 : ℝ) ^ x) * 2 ^ (s + m % 2) := by
              rw [mul_pow, ← Real.rpow_natCast ((2 : ℝ) ^ ((x + (m % 2 : ℕ)) / 2)) 2, ← Real.rpow_mul (by norm_num),
                show (x + ((m % 2 : ℕ) : ℝ)) / 2 * ((2 : ℕ) : ℝ) = x + (m % 2 : ℕ) by push_cast; ring,
                Real.rpow_add (by norm_num), Real.rpow_natCast, pow_add]
              ring
          _ ≤ (r : ℝ) * 2 ^ (s + m % 2) := by gcongr
          _ ≤ _ := by exact_mod_cast h2
      have h4 := (le_abs_self _).trans (abs_le_of_sq_le_sq h3 (by positivity))
      have := ih (m / 2) _ ((x + (m % 2 : ℕ)) / 2) hm' h4
      rwa [hexp] at this

theorem exp2FractionLo_le {s k m : Nat} (hm : m < 2 ^ k) :
    ((exp2FractionLo s k m : Rat) : ℝ) ≤ (2 : ℝ) ^ ((m : ℝ) / 2 ^ k) := by
  have h := exp2Fraction_le s k m (2 ^ s) 0 le_rfl hm (by simp)
  rw [zero_add] at h
  unfold exp2FractionLo
  push_cast
  rw [div_le_iff₀ (by positivity), mul_comm]
  exact h

theorem le_exp2FractionHi {s k m : Nat} (hm : m < 2 ^ k) :
    (2 : ℝ) ^ ((m : ℝ) / 2 ^ k) ≤ ((exp2FractionHi s k m : Rat) : ℝ) := by
  have h := le_exp2Fraction s k m (2 ^ s) 0 hm (by simp)
  rw [zero_add] at h
  unfold exp2FractionHi
  push_cast
  rw [le_div_iff₀ (by positivity), mul_comm]
  exact h

theorem exp2Bounds_enclose (prec : Nat) (q : Rat) : (exp2Bounds prec q).Enclose ((2 : ℝ) ^ (q : ℝ)) := by
  unfold exp2Bounds
  split
  · rename_i h
    have h' : (prec : ℝ) ≤ (q : ℝ) := by exact_mod_cast h
    refine ⟨?_, by simp⟩
    rintro l ⟨⟩
    rw [pow2_eq, ← Real.rpow_intCast]
    exact Real.rpow_le_rpow_of_exponent_le (by norm_num) (by simpa using h')
  · split
    · rename_i h
      have h' : (q : ℝ) ≤ -(prec : ℝ) := by exact_mod_cast h
      refine ⟨?_, ?_⟩
      · rintro l ⟨⟩
        rw [Rat.cast_zero]
        exact (Real.rpow_pos_of_pos (by norm_num) _).le
      · rintro l ⟨⟩
        rw [pow2_eq, ← Real.rpow_intCast]
        exact Real.rpow_le_rpow_of_exponent_le (by norm_num) (by simpa using h')
    · dsimp only
      set n := q.floor with hn
      set f : Rat := (q - n) * ((2 ^ prec : Nat) : Rat) with hf
      have hP : (0 : ℝ) < 2 ^ prec := by positivity
      have hfl : ((n : ℤ) : Rat) ≤ q := by rw [hn]; exact Int.floor_le q
      have hfl' : q < (n : ℤ) + 1 := by rw [hn]; exact Int.lt_floor_add_one q
      have hf0 : 0 ≤ f := mul_nonneg (by linarith) (by positivity)
      have hf1 : f < ((2 ^ prec : Nat) : Rat) := by
        have : (0 : Rat) < ((2 ^ prec : Nat) : Rat) := by positivity
        rw [hf]; nlinarith
      have hfr : (f : ℝ) = ((q : ℝ) - n) * 2 ^ prec := by rw [hf]; push_cast; ring
      have hsplit : (2 : ℝ) ^ (q : ℝ) = (2 : ℝ) ^ n * (2 : ℝ) ^ ((f : ℝ) / 2 ^ prec) := by
        rw [← Real.rpow_intCast, ← Real.rpow_add (by norm_num), hfr]
        congr 1
        field_simp
        ring
      have hn0 : (0 : ℝ) < (2 : ℝ) ^ n := by positivity
      constructor
      · rintro l ⟨⟩
        have hfn : 0 ≤ f.floor := by
          exact Int.floor_nonneg.mpr hf0
        have h1 : ((f.floor.toNat : ℕ) : Rat) ≤ f := by
          have h2 : ((f.floor.toNat : ℤ) : Rat) ≤ f := by
            rw [Int.toNat_of_nonneg hfn]; exact Int.floor_le f
          exact_mod_cast h2
        have hm : f.floor.toNat < 2 ^ prec := by
          have : ((f.floor.toNat : ℕ) : Rat) < ((2 ^ prec : Nat) : Rat) := lt_of_le_of_lt h1 hf1
          exact_mod_cast this
        have h2 := exp2FractionLo_le (s := prec) hm
        push_cast
        rw [hsplit, pow2_eq]
        refine mul_le_mul_of_nonneg_left (h2.trans ?_) hn0.le
        refine Real.rpow_le_rpow_of_exponent_le (by norm_num) ?_
        gcongr
        exact_mod_cast h1
      · rintro l ⟨⟩
        have hcn : 0 ≤ f.ceil := by
          have h2 : ((-1 : ℤ) : Rat) < (f.ceil : Rat) := by
            have := Rat.le_ceil (x := f)
            push_cast; linarith
          have := Int.cast_lt.mp h2
          omega
        have h1 : f ≤ ((f.ceil.toNat : ℕ) : Rat) := by
          have h2 : f ≤ ((f.ceil.toNat : ℤ) : Rat) := by
            rw [Int.toNat_of_nonneg hcn]; exact Rat.le_ceil
          exact_mod_cast h2
        have h1r : (f : ℝ) ≤ ((f.ceil.toNat : ℕ) : ℝ) := by exact_mod_cast h1
        split
        · rename_i hm
          rw [hsplit, pow2_eq, zpow_add₀ (by norm_num), zpow_one]
          refine mul_le_mul_of_nonneg_left ?_ hn0.le
          calc (2 : ℝ) ^ ((f : ℝ) / 2 ^ prec) ≤ (2 : ℝ) ^ (1 : ℝ) := by
                refine Real.rpow_le_rpow_of_exponent_le (by norm_num) ?_
                rw [div_le_one hP]
                have : (f : ℝ) < ((2 ^ prec : Nat) : ℝ) := by exact_mod_cast hf1
                push_cast at this; exact this.le
            _ = 2 := by norm_num
        · rename_i hm
          have hle : f.ceil.toNat ≤ 2 ^ prec := by
            have : f.ceil ≤ ((2 ^ prec : Nat) : ℤ) := Rat.ceil_le_iff.mpr (by exact_mod_cast hf1.le)
            omega
          have hlt : f.ceil.toNat < 2 ^ prec := by omega
          have h2 := le_exp2FractionHi (s := prec) hlt
          push_cast
          rw [hsplit, pow2_eq]
          refine mul_le_mul_of_nonneg_left (le_trans ?_ h2) hn0.le
          refine Real.rpow_le_rpow_of_exponent_le (by norm_num) ?_
          gcongr

theorem powBounds_enclose (prec : Nat) (b e : Rat) : (powBounds prec b e).Enclose ((b : ℝ) ^ (e : ℝ)) := by
  unfold powBounds
  split
  · exact Bounds.unknown_enclose _
  · rename_i h
    push Not at h
    dsimp only
    have hd : 1 ≤ e.den := e.den_pos
    have hd0 : ((e.den : ℕ) : ℝ) ≠ 0 := by exact_mod_cast e.den_ne_zero
    have hb : (0 : ℝ) ≤ b := by exact_mod_cast h.1
    have hP : (0 : ℝ) < 2 ^ prec := by positivity
    have hnum : ((e.num.toNat : ℕ) : ℤ) = e.num := Int.toNat_of_nonneg (Rat.num_nonneg.mpr h.2)
    set y : Rat := b ^ e.num.toNat * ((2 ^ (e.den * prec) : Nat) : Rat) with hy
    have hy0 : 0 ≤ y := mul_nonneg (pow_nonneg h.1 _) (by positivity)
    -- the root, scaled, to the power of the exponent's denominator
    have hpow : ((b : ℝ) ^ (e : ℝ) * 2 ^ prec) ^ e.den = (y : ℝ) := by
      have he : (e : ℝ) * ((e.den : ℕ) : ℝ) = ((e.num.toNat : ℕ) : ℝ) := by
        have : (e : ℝ) = ((e.num : ℤ) : ℝ) / ((e.den : ℕ) : ℝ) := by exact_mod_cast (Rat.num_div_den e).symm
        have h2 : ((e.num : ℤ) : ℝ) = ((e.num.toNat : ℕ) : ℝ) := by exact_mod_cast congrArg (Int.cast : ℤ → ℝ) hnum.symm
        rw [this, div_mul_cancel₀ _ hd0, h2]
      rw [mul_pow, ← Real.rpow_natCast ((b : ℝ) ^ (e : ℝ)), ← Real.rpow_mul hb, he, Real.rpow_natCast, hy]
      push_cast
      rw [← pow_mul, mul_comm prec e.den]
    have hroot0 : 0 ≤ (b : ℝ) ^ (e : ℝ) * 2 ^ prec := mul_nonneg (Real.rpow_nonneg hb _) hP.le
    have hfl0 : 0 ≤ y.floor := Int.floor_nonneg.mpr hy0
    have hv : (y.floor.toNat : ℝ) ≤ (y : ℝ) := by
      have : ((y.floor.toNat : ℤ) : Rat) ≤ y := by
        rw [Int.toNat_of_nonneg hfl0]; exact Rat.floor_le y
      exact_mod_cast this
    have hv' : (y : ℝ) ≤ ((y.floor.toNat + 1 : ℕ) : ℝ) := by
      have : y ≤ ((y.floor.toNat : ℤ) : Rat) + 1 := by
        rw [Int.toNat_of_nonneg hfl0]; exact (Int.lt_floor_add_one y).le
      exact_mod_cast this
    constructor
    · rintro l ⟨⟩
      push_cast
      rw [div_le_iff₀ hP]
      refine le_of_pow_le_pow_left₀ e.den_ne_zero hroot0 ?_
      rw [hpow]
      exact le_trans (by exact_mod_cast rootLo_pow_le y.floor.toNat hd) hv
    · rintro l ⟨⟩
      push_cast
      rw [le_div_iff₀ hP]
      refine le_of_pow_le_pow_left₀ e.den_ne_zero (by positivity) ?_
      rw [hpow]
      exact hv'.trans (by exact_mod_cast le_rootHi_pow (y.floor.toNat + 1) hd)

/-- `floorLog2 q` is the integer part of the logarithm. -/
theorem floorLog2_spec {q : Rat} (hq : 0 < q) : pow2 (floorLog2 q) ≤ q ∧ q < pow2 (floorLog2 q + 1) := by
  have cast2 : ∀ e : ℤ, pow2 e = (2 : Rat) ^ e := by
    intro e
    cases e with
    | ofNat n => simp [pow2]
    | negSucc n => simp [pow2, zpow_negSucc]
  have hn0 : 0 < q.num := Rat.num_pos.mpr hq
  have hnn : q.num.natAbs ≠ 0 := by omega
  have hden : (0 : Rat) < q.den := by exact_mod_cast q.den_pos
  have hqe : q = (q.num.natAbs : Rat) / q.den := by
    have h1 : ((q.num.natAbs : ℕ) : ℤ) = q.num := Int.natAbs_of_nonneg hn0.le
    have h2 : ((q.num.natAbs : ℕ) : Rat) = (q.num : Rat) := by
      have := congrArg (Int.cast : ℤ → Rat) h1
      rwa [Int.cast_natCast] at this
    rw [h2]; exact (Rat.num_div_den q).symm
  set a := q.num.natAbs.log2 with ha
  set b := q.den.log2 with hb
  have a1 : (2 : Rat) ^ (a : ℤ) ≤ q.num.natAbs := by
    rw [zpow_natCast]; exact_mod_cast Nat.log2_self_le hnn
  have a2 : (q.num.natAbs : Rat) < 2 ^ ((a : ℤ) + 1) := by
    have := Nat.lt_log2_self (n := q.num.natAbs)
    rw [← ha] at this
    exact_mod_cast this
  have b1 : (2 : Rat) ^ (b : ℤ) ≤ q.den := by
    rw [zpow_natCast]; exact_mod_cast Nat.log2_self_le q.den_ne_zero
  have b2 : (q.den : Rat) < 2 ^ ((b : ℤ) + 1) := by
    have := Nat.lt_log2_self (n := q.den)
    rw [← hb] at this
    exact_mod_cast this
  have up : q < 2 ^ ((a : ℤ) - b + 1) := by
    rw [hqe, div_lt_iff₀ hden]
    calc (q.num.natAbs : Rat) < 2 ^ ((a : ℤ) + 1) := a2
      _ = 2 ^ ((a : ℤ) - b + 1) * 2 ^ (b : ℤ) := by rw [← zpow_add₀ (by norm_num)]; congr 1; ring
      _ ≤ _ := by gcongr
  have low : 2 ^ ((a : ℤ) - b - 1) ≤ q := by
    rw [hqe, le_div_iff₀ hden]
    calc (2 : Rat) ^ ((a : ℤ) - b - 1) * q.den ≤ 2 ^ ((a : ℤ) - b - 1) * 2 ^ ((b : ℤ) + 1) := by gcongr
      _ = 2 ^ (a : ℤ) := by rw [← zpow_add₀ (by norm_num)]; congr 1; ring
      _ ≤ _ := a1
  unfold floorLog2
  simp only [cast2, ← ha, ← hb]
  split
  · rename_i h; exact ⟨h, up⟩
  · rename_i h
    refine ⟨low, ?_⟩
    rw [sub_add_cancel]
    exact not_le.mp h

theorem log2Bounds_enclose (prec : Nat) (q : Rat) : (log2Bounds prec q).Enclose (Real.logb 2 q) := by
  unfold log2Bounds
  split
  · exact Bounds.unknown_enclose _
  · rename_i h
    push Not at h
    dsimp only
    obtain ⟨hl, hu⟩ := floorLog2_spec h
    generalize floorLog2 q = n at *
    generalize log2Digits (2 * prec + 8) prec _ 0 = m
    have hq : (0 : ℝ) < q := by exact_mod_cast h
    have hpn : (0 : ℝ) < (2 : ℝ) ^ n := by positivity
    have hdiv : ((q / pow2 n : Rat) : ℝ) = (q : ℝ) / 2 ^ n := by rw [← pow2_eq]; push_cast; rfl
    have hlR : (2 : ℝ) ^ n ≤ q := by rw [← pow2_eq]; exact_mod_cast hl
    have huR : (q : ℝ) ≤ (2 : ℝ) ^ (n + 1) := by rw [← pow2_eq]; exact_mod_cast hu.le
    constructor
    · intro l hle
      rw [Real.le_logb_iff_rpow_le (by norm_num) hq]
      by_cases hc : m - 2 < 2 ^ prec ∧ exp2FractionHi (2 * prec + 8) prec (m - 2) ≤ q / pow2 n
      · simp only [if_pos hc, Option.some.injEq] at hle
        subst hle
        have h1 := le_exp2FractionHi (s := 2 * prec + 8) hc.1
        have h2 : ((exp2FractionHi (2 * prec + 8) prec (m - 2) : Rat) : ℝ) ≤ (q : ℝ) / 2 ^ n := by
          rw [← hdiv]; exact_mod_cast hc.2
        have h3 := h1.trans h2
        rw [le_div_iff₀ hpn] at h3
        have h4 : (((n : Rat) + ((m - 2 : ℕ) : Rat) / ((2 ^ prec : ℕ) : Rat) : Rat) : ℝ)
            = (n : ℝ) + ((m - 2 : ℕ) : ℝ) / 2 ^ prec := by push_cast; rfl
        rw [h4, Real.rpow_add (by norm_num), Real.rpow_intCast, mul_comm]
        exact h3
      · simp only [if_neg hc, Option.some.injEq] at hle
        subst hle
        rw [Rat.cast_intCast, Real.rpow_intCast]; exact hlR
    · intro l hle
      rw [Real.logb_le_iff_le_rpow (by norm_num) hq]
      by_cases hc : m + 2 < 2 ^ prec ∧ q / pow2 n ≤ exp2FractionLo (2 * prec + 8) prec (m + 2)
      · simp only [if_pos hc, Option.some.injEq] at hle
        subst hle
        have h1 := exp2FractionLo_le (s := 2 * prec + 8) hc.1
        have h2 : (q : ℝ) / 2 ^ n ≤ ((exp2FractionLo (2 * prec + 8) prec (m + 2) : Rat) : ℝ) := by
          rw [← hdiv]; exact_mod_cast hc.2
        have h3 := h2.trans h1
        rw [div_le_iff₀ hpn] at h3
        have h4 : (((n : Rat) + ((m + 2 : ℕ) : Rat) / ((2 ^ prec : ℕ) : Rat) : Rat) : ℝ)
            = (n : ℝ) + ((m + 2 : ℕ) : ℝ) / 2 ^ prec := by push_cast; rfl
        rw [h4, Real.rpow_add (by norm_num), Real.rpow_intCast, mul_comm]
        exact h3
      · simp only [if_neg hc, Option.some.injEq] at hle
        subst hle
        have : (((n : Rat) + 1 : Rat) : ℝ) = ((n + 1 : ℤ) : ℝ) := by push_cast; rfl
        rw [this, Real.rpow_intCast]; exact huR

/-! ### Bounds of bounded numbers -/

theorem Bounds.exp2_enclose {f : Rat → Bounds} (hf : ∀ q, (f q).Enclose ((2 : ℝ) ^ (q : ℝ))) {b : Bounds} {x : ℝ}
    (hb : b.Enclose x) : (b.exp2 f).Enclose ((2 : ℝ) ^ x) := by
  constructor
  · intro u hu
    obtain ⟨l, hl, hu⟩ := Option.bind_eq_some_iff.mp hu
    exact ((hf l).1 u hu).trans (Real.rpow_le_rpow_of_exponent_le (by norm_num) (hb.1 l hl))
  · intro u hu
    obtain ⟨h, hh, hu⟩ := Option.bind_eq_some_iff.mp hu
    exact (Real.rpow_le_rpow_of_exponent_le (by norm_num) (hb.2 h hh)).trans ((hf h).2 u hu)

theorem Bounds.log2_enclose {f : Rat → Bounds} (hf : ∀ q, (f q).Enclose (Real.logb 2 q)) {b : Bounds} {x : ℝ}
    (hb : b.Enclose x) : (b.log2 f).Enclose (Real.logb 2 x) := by
  unfold Bounds.log2
  split
  · rename_i l h hl hh
    split
    · rename_i h0
      have h0' : (0 : ℝ) < l := by exact_mod_cast h0
      have h1 := hb.1 _ hl
      have h2 := hb.2 _ hh
      exact ⟨fun u hu => ((hf l).1 u hu).trans (Real.logb_le_logb_of_le (by norm_num) h0' h1),
        fun u hu => (Real.logb_le_logb_of_le (by norm_num) (h0'.trans_le h1) h2).trans ((hf h).2 u hu)⟩
    · exact Bounds.unknown_enclose _
  · exact Bounds.unknown_enclose _

theorem powNearZero_enclose {exp2 log2 : Rat → Bounds} (he : ∀ q, (exp2 q).Enclose ((2 : ℝ) ^ (q : ℝ)))
    (hl : ∀ q, (log2 q).Enclose (Real.logb 2 q)) {m el : Rat} {x y : ℝ} (hx : |x| ≤ m) (h0 : 0 < el) (hy : (el : ℝ) ≤ y) :
    (powNearZero exp2 log2 m el).Enclose (x ^ y) := by
  have h0' : (0 : ℝ) < el := by exact_mod_cast h0
  unfold powNearZero
  split
  · rename_i hm
    have hm' : (m : ℝ) ≤ 0 := by exact_mod_cast hm
    have : x = 0 := abs_nonpos_iff.mp (hx.trans hm')
    subst this
    rw [Real.zero_rpow (by linarith)]
    constructor <;> rintro u ⟨⟩ <;> simp
  · rename_i hm
    have hm' : (0 : ℝ) < m := by exact_mod_cast not_le.mp hm
    split
    · rename_i hm1
      have hm1' : (m : ℝ) ≤ 1 := by exact_mod_cast hm1.le
      split
      · rename_i g hg
        split
        · rename_i u hu
          have key : |x ^ y| ≤ u := by
            calc |x ^ y| ≤ |x| ^ y := Real.abs_rpow_le_abs_rpow x y
              _ ≤ (m : ℝ) ^ y := Real.rpow_le_rpow (abs_nonneg x) hx (by linarith)
              _ ≤ (m : ℝ) ^ (el : ℝ) := Real.rpow_le_rpow_of_exponent_ge hm' hm1' hy
              _ = 2 ^ (Real.logb 2 m * el) := by
                rw [Real.rpow_mul (by norm_num), Real.rpow_logb (by norm_num) (by norm_num) hm']
              _ ≤ 2 ^ (((el * g : Rat)) : ℝ) := by
                refine Real.rpow_le_rpow_of_exponent_le (by norm_num) ?_
                push_cast
                rw [mul_comm]
                exact mul_le_mul_of_nonneg_left ((hl m).2 g hg) h0'.le
              _ ≤ u := (he _).2 u hu
          have := abs_le.mp key
          constructor
          · rintro v ⟨⟩; push_cast; exact this.1
          · rintro v ⟨⟩; exact this.2
        · exact Bounds.unknown_enclose _
      · exact Bounds.unknown_enclose _
    · exact Bounds.unknown_enclose _

theorem Bounds.pow_enclose {exp2 log2 : Rat → Bounds} (he : ∀ q, (exp2 q).Enclose ((2 : ℝ) ^ (q : ℝ)))
    (hl : ∀ q, (log2 q).Enclose (Real.logb 2 q)) {b e : Bounds} {x y : ℝ} (hb : b.Enclose x) (hc : e.Enclose y) :
    (b.pow exp2 log2 e).Enclose (x ^ y) := by
  unfold Bounds.pow
  split
  · rename_i l h h1 h2
    have hlx := hb.1 _ h1
    have hxh := hb.2 _ h2
    split
    · rename_i h0
      have hx : 0 < x := lt_of_lt_of_le (by exact_mod_cast h0) hlx
      have : x ^ y = 2 ^ (y * Real.logb 2 x) := by
        rw [mul_comm, Real.rpow_mul (by norm_num), Real.rpow_logb (by norm_num) (by norm_num) hx]
      rw [this]
      exact Bounds.exp2_enclose he (Bounds.mul_enclose hc (Bounds.log2_enclose hl hb))
    · split
      · rename_i el hel
        split
        · rename_i h0
          refine powNearZero_enclose he hl (abs_le.mpr ⟨?_, ?_⟩) h0 (hc.1 _ hel)
          · push_cast
            have := le_max_left (-(l : ℝ)) h
            linarith
          · push_cast
            exact hxh.trans (le_max_right _ _)
        · exact Bounds.unknown_enclose _
      · exact Bounds.unknown_enclose _
  · exact Bounds.unknown_enclose _

theorem ratPowBounds_enclose (prec : Nat) (b e : Rat) : (ratPowBounds prec b e).Enclose ((b : ℝ) ^ (e : ℝ)) := by
  unfold ratPowBounds
  split
  · exact powBounds_enclose prec b e
  · by_cases hb : b < 0
    · have : (powBounds prec b (-e)).inv = .unknown := by simp [powBounds, hb, Bounds.inv, Bounds.unknown]
      rw [this]; exact Bounds.unknown_enclose _
    · have hb' : (0 : ℝ) ≤ b := by exact_mod_cast not_lt.mp hb
      have := Bounds.inv_enclose (powBounds_enclose prec b (-e))
      rwa [Rat.cast_neg, Real.rpow_neg hb', inv_inv] at this

theorem Bounds.point_eq {b : Bounds} {q : Rat} {x : ℝ} (hb : b.Enclose x) (h : b.point = some q) : x = q := by
  unfold Bounds.point at h
  split at h
  · rename_i l u hl hu
    split at h
    · rename_i hlu
      obtain rfl : l = q := by simpa using h
      exact le_antisymm (hlu ▸ hb.2 _ hu) (hb.1 _ hl)
    · cases h
  · cases h

/-- The bounds that an `Elementary` gives enclose the numbers they are bounds of. -/
structure Elementary.Sound (f : Elementary) : Prop where
  exp2 : ∀ q : Rat, (f.exp2 q).Enclose ((2 : ℝ) ^ (q : ℝ))
  log2 : ∀ q : Rat, (f.log2 q).Enclose (Real.logb 2 q)
  pow : ∀ (b e : Bounds) (x y : ℝ), b.Enclose x → e.Enclose y → (f.pow b e).Enclose (x ^ y)

theorem fastBounds_sound (prec : Nat) : (fastBounds prec).Sound where
  exp2 := exp2Bounds_enclose prec
  log2 := log2Bounds_enclose prec
  pow b e x y hb he := by
    unfold fastBounds
    dsimp only
    split
    · rename_i p q hp hq
      rw [Bounds.point_eq hb hp, Bounds.point_eq he hq]
      exact ratPowBounds_enclose prec p q
    · exact Bounds.pow_enclose (exp2Bounds_enclose prec) (log2Bounds_enclose prec) hb he

/-! ### Expressions -/

/-- The bounds of an expression enclose the real number it stands for. -/
theorem bounds_enclose {f : Elementary} (hf : f.Sound) (a : ExactReal) : (ExactReal.bounds f a).Enclose a.val := by
  induction a with
  | rat q => constructor <;> rintro l ⟨⟩ <;> exact le_rfl
  | add a b iha ihb => exact Bounds.add_enclose iha ihb
  | sub a b iha ihb => exact Bounds.sub_enclose iha ihb
  | mul a b iha ihb => exact Bounds.mul_enclose iha ihb
  | div a b iha ihb => exact Bounds.mul_enclose iha (Bounds.inv_enclose ihb)
  | pow a b iha ihb => exact hf.pow _ _ _ _ iha ihb
  | exp2 a ih => exact Bounds.exp2_enclose hf.exp2 ih
  | log2 a ih => exact Bounds.log2_enclose hf.log2 ih

/-! ### What is decided is right -/

/-- A verdict on the sign of a number is right. -/
theorem Bounds.negative_right {b : Bounds} {x : ℝ} (hb : b.Enclose x) {v : Bool} (hv : b.negative = some v) :
    v = true ↔ x < 0 := by
  obtain ⟨hl, hh⟩ := hb
  unfold Bounds.negative at hv
  split at hv
  · rename_i l h h1 h2
    split at hv
    · rename_i hneg
      obtain rfl : true = v := by simpa using hv
      have : (h : ℝ) < 0 := by exact_mod_cast hneg
      simpa using (hh h h2).trans_lt this
    · split at hv
      · rename_i hpos
        obtain rfl : false = v := by simpa using hv
        have : (0 : ℝ) ≤ l := by exact_mod_cast hpos
        simpa using this.trans (hl l h1)
      · cases hv
  · rename_i l h1 h2
    split at hv
    · rename_i hpos
      obtain rfl : false = v := by simpa using hv
      have : (0 : ℝ) ≤ l := by exact_mod_cast hpos
      simpa using this.trans (hl l h1)
    · cases hv
  · rename_i h h1 h2
    split at hv
    · rename_i hneg
      obtain rfl : true = v := by simpa using hv
      have : (h : ℝ) < 0 := by exact_mod_cast hneg
      simpa using (hh h h2).trans_lt this
    · cases hv
  · cases hv

/-- What some precision decides holds of the expression's number, if every verdict on enclosing bounds does. -/
theorem decideAt_right {α : Type} {question : Bounds → Option α} {P : α → Prop} {a : ExactReal}
    (h : ∀ (b : Bounds) (v : α), b.Enclose a.val → question b = some v → P v) :
    ∀ (l : List Nat) (v : α), decideAt question a l = some v → P v := by
  intro l
  induction l with
  | nil => intro v hv; cases hv
  | cons prec rest ih =>
    intro v hv
    unfold decideAt at hv
    split at hv
    · rename_i w hw
      obtain rfl : w = v := by simpa using hv
      exact h _ _ (bounds_enclose (fastBounds_sound prec) a) hw
    · exact ih v hv

end Sys2Proof.Machine
end

