-- ==== Sys2Proof/Laws/Exact.lean ====
section
/-!
SUPPORT. The plain bounds of an expression all of whose operations are in their domains enclose its real number and close in
on it, and what the search over them finds: the ground on which REAL is exact (spec/00_scope.md R6).
-/

namespace Sys2Proof.Machine

open Filter Topology

/-! ### The plain bounds of a power of two and of a logarithm -/

theorem rootBelow_le {d : Nat} (n : Nat) (hd : 1 ≤ d) : ∀ r, rootBelow d n r ^ d ≤ n
  | 0 => by simp [rootBelow, Nat.zero_pow hd]
  | r + 1 => by
    unfold rootBelow
    split
    · assumption
    · exact rootBelow_le n hd r

theorem lt_rootBelow_succ {d : Nat} (n : Nat) : ∀ r, n < (r + 1) ^ d → n < (rootBelow d n r + 1) ^ d
  | 0, h => by simpa [rootBelow] using h
  | r + 1, h => by
    unfold rootBelow
    split
    · exact h
    · rename_i hr
      exact lt_rootBelow_succ n r (not_le.mp hr)

/-- The plain bounds of `2^q`: at most the number, and more than the number when raised by `2^-n`. -/
theorem plainExp2_spec (n : Nat) (q : Rat) : ∃ l h : Rat, plainExp2 n q = { lo := some l, hi := some h } ∧
    (l : ℝ) ≤ 2 ^ (q : ℝ) ∧ (2 : ℝ) ^ (q : ℝ) ≤ h ∧ (h : ℝ) = l + (2 ^ n : ℝ)⁻¹ := by
  unfold plainExp2
  dsimp only
  have hd : 1 ≤ q.den := q.den_pos
  have hd0 : ((q.den : ℕ) : ℝ) ≠ 0 := by exact_mod_cast q.den_ne_zero
  set z : Rat := pow2 (q.num + q.den * n) with hz
  set v := z.floor.toNat with hv
  set r := rootBelow q.den v v with hr
  have hz0 : 0 < z := pow2_pos _
  have hfl0 : 0 ≤ z.floor := Int.floor_nonneg.mpr hz0.le
  have hP : (0 : ℝ) < 2 ^ n := by positivity
  have hv1 : (v : ℝ) ≤ z := by
    have : ((v : ℤ) : Rat) ≤ z := by rw [hv, Int.toNat_of_nonneg hfl0]; exact Rat.floor_le z
    exact_mod_cast this
  have hv2 : (z : ℝ) < v + 1 := by
    have : z < ((v : ℤ) : Rat) + 1 := by rw [hv, Int.toNat_of_nonneg hfl0]; exact Int.lt_floor_add_one z
    exact_mod_cast this
  have hpow : ((2 : ℝ) ^ (q : ℝ) * 2 ^ n) ^ q.den = (z : ℝ) := by
    have hq : (q : ℝ) * ((q.den : ℕ) : ℝ) = ((q.num : ℤ) : ℝ) := by
      have : (q : ℝ) = ((q.num : ℤ) : ℝ) / ((q.den : ℕ) : ℝ) := by exact_mod_cast (Rat.num_div_den q).symm
      rw [this, div_mul_cancel₀ _ hd0]
    rw [hz, pow2_eq, mul_pow, ← Real.rpow_natCast ((2 : ℝ) ^ (q : ℝ)), ← Real.rpow_mul (by norm_num), hq,
      Real.rpow_intCast, zpow_add₀ (by norm_num), ← pow_mul, mul_comm n q.den]
    norm_cast
  have hroot0 : 0 ≤ (2 : ℝ) ^ (q : ℝ) * 2 ^ n := by positivity
  have h1 : (r : ℝ) ≤ 2 ^ (q : ℝ) * 2 ^ n := by
    refine le_of_pow_le_pow_left₀ q.den_ne_zero hroot0 ?_
    rw [hpow]
    exact le_trans (by exact_mod_cast rootBelow_le v hd v) hv1
  have h2 : (2 : ℝ) ^ (q : ℝ) * 2 ^ n ≤ r + 1 := by
    refine le_of_pow_le_pow_left₀ q.den_ne_zero (by positivity) ?_
    rw [hpow]
    have h3 : v < (r + 1) ^ q.den :=
      lt_rootBelow_succ v v (lt_of_lt_of_le (Nat.lt_succ_self v) (Nat.le_self_pow q.den_ne_zero (v + 1)))
    have h4 : ((v + 1 : ℕ) : ℝ) ≤ (((r + 1) ^ q.den : ℕ) : ℝ) := by exact_mod_cast h3
    push_cast at h4
    linarith
  refine ⟨_, _, rfl, ?_, ?_, ?_⟩
  · push_cast; rwa [div_le_iff₀ hP]
  · push_cast; rwa [le_div_iff₀ hP]
  · push_cast; field_simp

/-- The plain bounds of `log2 q` for a positive `q`, `2^-n` apart. -/
theorem plainLog2_spec (n : Nat) {q : Rat} (hq : 0 < q) : ∃ l h : Rat, plainLog2 n q = { lo := some l, hi := some h } ∧
    (l : ℝ) ≤ Real.logb 2 q ∧ Real.logb 2 q ≤ h ∧ (h : ℝ) = l + (2 ^ n : ℝ)⁻¹ := by
  unfold plainLog2
  rw [if_neg (not_le.mpr hq)]
  dsimp only
  have hP : (0 : ℝ) < 2 ^ n := by positivity
  have hq' : (0 : ℝ) < q := by exact_mod_cast hq
  obtain ⟨h1, h2⟩ := floorLog2_spec (q := q ^ 2 ^ n) (by positivity)
  generalize floorLog2 (q ^ 2 ^ n) = m at *
  have e1 : (2 : ℝ) ^ m ≤ (q : ℝ) ^ 2 ^ n := by rw [← pow2_eq]; exact_mod_cast h1
  have e2 : (q : ℝ) ^ 2 ^ n ≤ (2 : ℝ) ^ (m + 1) := by rw [← pow2_eq]; exact_mod_cast h2.le
  have hlog : Real.logb 2 ((q : ℝ) ^ 2 ^ n) = 2 ^ n * Real.logb 2 q := by
    rw [Real.logb_pow]; push_cast; rfl
  refine ⟨_, _, rfl, ?_, ?_, ?_⟩
  · push_cast
    rw [div_le_iff₀ hP, mul_comm, ← hlog, Real.le_logb_iff_rpow_le (by norm_num) (by positivity), Real.rpow_intCast]
    exact e1
  · push_cast
    rw [le_div_iff₀ hP, mul_comm, ← hlog, Real.logb_le_iff_le_rpow (by norm_num) (by positivity)]
    have : (m : ℝ) + 1 = ((m + 1 : ℤ) : ℝ) := by push_cast; rfl
    rw [this, Real.rpow_intCast]
    exact e2
  · push_cast; field_simp

theorem plainExp2_enclose (n : Nat) (q : Rat) : (plainExp2 n q).Enclose ((2 : ℝ) ^ (q : ℝ)) := by
  obtain ⟨l, h, he, h1, h2, _⟩ := plainExp2_spec n q
  rw [he]
  constructor <;> rintro u ⟨⟩ <;> assumption

theorem plainLog2_enclose (n : Nat) (q : Rat) : (plainLog2 n q).Enclose (Real.logb 2 q) := by
  by_cases hq : 0 < q
  · obtain ⟨l, h, he, h1, h2, _⟩ := plainLog2_spec n hq
    rw [he]
    constructor <;> rintro u ⟨⟩ <;> assumption
  · unfold plainLog2
    rw [if_pos (not_lt.mp hq)]
    exact Bounds.unknown_enclose _

theorem plainBounds_sound (n : Nat) : (plainBounds n).Sound where
  exp2 := plainExp2_enclose n
  log2 := plainLog2_enclose n
  pow _ _ _ _ hb he := Bounds.pow_enclose (plainExp2_enclose n) (plainLog2_enclose n) hb he

/-! ### Bounds that close in on a number -/

/-- From some level on the bounds are known on both sides, and both sides tend to the number. -/
def CloseIn (b : ℕ → Bounds) (x : ℝ) : Prop :=
  ∃ l h : ℕ → Rat, (∀ᶠ n in atTop, b n = { lo := some (l n), hi := some (h n) }) ∧
    Tendsto (fun n => (l n : ℝ)) atTop (𝓝 x) ∧ Tendsto (fun n => (h n : ℝ)) atTop (𝓝 x)

theorem CloseIn.add {b c : ℕ → Bounds} {x y : ℝ} (hb : CloseIn b x) (hc : CloseIn c y) :
    CloseIn (fun n => (b n).add (c n)) (x + y) := by
  obtain ⟨l, h, he, hl, hh⟩ := hb
  obtain ⟨l', h', he', hl', hh'⟩ := hc
  refine ⟨fun n => l n + l' n, fun n => h n + h' n, ?_, ?_, ?_⟩
  · filter_upwards [he, he'] with n h1 h2
    rw [h1, h2]; rfl
  · simpa using hl.add hl'
  · simpa using hh.add hh'

theorem CloseIn.sub {b c : ℕ → Bounds} {x y : ℝ} (hb : CloseIn b x) (hc : CloseIn c y) :
    CloseIn (fun n => (b n).sub (c n)) (x - y) := by
  obtain ⟨l, h, he, hl, hh⟩ := hb
  obtain ⟨l', h', he', hl', hh'⟩ := hc
  refine ⟨fun n => l n - h' n, fun n => h n - l' n, ?_, ?_, ?_⟩
  · filter_upwards [he, he'] with n h1 h2
    rw [h1, h2]; rfl
  · simpa using hl.sub hh'
  · simpa using hh.sub hl'

theorem CloseIn.mul {b c : ℕ → Bounds} {x y : ℝ} (hb : CloseIn b x) (hc : CloseIn c y) :
    CloseIn (fun n => (b n).mul (c n)) (x * y) := by
  obtain ⟨l, h, he, hl, hh⟩ := hb
  obtain ⟨l', h', he', hl', hh'⟩ := hc
  refine ⟨fun n => min (min (l n * l' n) (l n * h' n)) (min (h n * l' n) (h n * h' n)),
    fun n => max (max (l n * l' n) (l n * h' n)) (max (h n * l' n) (h n * h' n)), ?_, ?_, ?_⟩
  · filter_upwards [he, he'] with n h1 h2
    rw [h1, h2]; rfl
  · have := ((hl.mul hl').min (hl.mul hh')).min ((hh.mul hl').min (hh.mul hh'))
    simpa using this
  · have := ((hl.mul hl').max (hl.mul hh')).max ((hh.mul hl').max (hh.mul hh'))
    simpa using this

theorem CloseIn.inv {b : ℕ → Bounds} {x : ℝ} (hb : CloseIn b x) (hx : x ≠ 0) : CloseIn (fun n => (b n).inv) x⁻¹ := by
  obtain ⟨l, h, he, hl, hh⟩ := hb
  refine ⟨fun n => (h n)⁻¹, fun n => (l n)⁻¹, ?_, ?_, ?_⟩
  · have hside : ∀ᶠ n in atTop, 0 < l n ∨ h n < 0 := by
      rcases lt_or_gt_of_ne hx with h0 | h0
      · filter_upwards [hh.eventually_lt_const h0] with n hn
        exact .inr (by exact_mod_cast hn)
      · filter_upwards [hl.eventually_const_lt h0] with n hn
        exact .inl (by exact_mod_cast hn)
    filter_upwards [he, hside] with n h1 h2
    rw [h1]
    simp [Bounds.inv, h2]
  · simpa using hh.inv₀ hx
  · simpa using hl.inv₀ hx

/-- What lies within `2^-n` of numbers that tend to `y` tends to `y`. -/
theorem tendsto_of_near {u v : ℕ → ℝ} {y : ℝ} (hv : Tendsto v atTop (𝓝 y))
    (h1 : ∀ᶠ n in atTop, u n ≤ v n + (2 ^ n : ℝ)⁻¹) (h2 : ∀ᶠ n in atTop, v n - (2 ^ n : ℝ)⁻¹ ≤ u n) :
    Tendsto u atTop (𝓝 y) := by
  have h0 : Tendsto (fun n : ℕ => ((2 : ℝ) ^ n)⁻¹) atTop (𝓝 0) :=
    tendsto_inv_atTop_zero.comp (tendsto_pow_atTop_atTop_of_one_lt (by norm_num))
  refine tendsto_of_tendsto_of_tendsto_of_le_of_le' (by simpa using hv.sub h0) (by simpa using hv.add h0) h2 h1

theorem CloseIn.exp2 {b : ℕ → Bounds} {x : ℝ} (hb : CloseIn b x) :
    CloseIn (fun n => (b n).exp2 (plainExp2 n)) ((2 : ℝ) ^ x) := by
  obtain ⟨l, h, he, hl, hh⟩ := hb
  choose lo hi hspec h1 h2 h3 using plainExp2_spec
  have hc : Continuous fun x : ℝ => (2 : ℝ) ^ x := Real.continuous_const_rpow (by norm_num)
  refine ⟨fun n => lo n (l n), fun n => hi n (h n), ?_, ?_, ?_⟩
  · filter_upwards [he] with n hn
    rw [hn]
    simp [Bounds.exp2, hspec]
  · refine tendsto_of_near ((hc.tendsto x).comp hl) (.of_forall fun n => ?_) (.of_forall fun n => ?_)
    · have : (0 : ℝ) < (2 ^ n : ℝ)⁻¹ := by positivity
      have := h1 n (l n)
      simp only [Function.comp]; linarith
    · have := h2 n (l n)
      have := h3 n (l n)
      simp only [Function.comp]; linarith
  · refine tendsto_of_near ((hc.tendsto x).comp hh) (.of_forall fun n => ?_) (.of_forall fun n => ?_)
    · have := h1 n (h n)
      have := h3 n (h n)
      simp only [Function.comp]; linarith
    · have : (0 : ℝ) < (2 ^ n : ℝ)⁻¹ := by positivity
      have := h2 n (h n)
      simp only [Function.comp]; linarith

theorem CloseIn.log2 {b : ℕ → Bounds} {x : ℝ} (hb : CloseIn b x) (hx : 0 < x) :
    CloseIn (fun n => (b n).log2 (plainLog2 n)) (Real.logb 2 x) := by
  obtain ⟨l, h, he, hl, hh⟩ := hb
  have hspec : ∀ (n : ℕ) (q : Rat), ∃ l h : Rat, 0 < q → plainLog2 n q = { lo := some l, hi := some h } ∧
      (l : ℝ) ≤ Real.logb 2 q ∧ Real.logb 2 q ≤ h ∧ (h : ℝ) = l + (2 ^ n : ℝ)⁻¹ := by
    intro n q
    by_cases hq : 0 < q
    · obtain ⟨l, h, hs⟩ := plainLog2_spec n hq
      exact ⟨l, h, fun _ => hs⟩
    · exact ⟨0, 0, fun h => absurd h hq⟩
  choose lo hi hspec using hspec
  have hlpos : ∀ᶠ n in atTop, 0 < l n := by
    filter_upwards [hl.eventually_const_lt hx] with n hn
    exact_mod_cast hn
  have hhpos : ∀ᶠ n in atTop, 0 < h n := by
    filter_upwards [hh.eventually_const_lt hx] with n hn
    exact_mod_cast hn
  have hc : ContinuousAt (fun x : ℝ => Real.logb 2 x) x := by
    unfold Real.logb
    exact (Real.continuousAt_log hx.ne').div_const _
  refine ⟨fun n => lo n (l n), fun n => hi n (h n), ?_, ?_, ?_⟩
  · filter_upwards [he, hlpos, hhpos] with n hn p1 p2
    rw [hn]
    simp [Bounds.log2, p1, (hspec n (l n) p1).1, (hspec n (h n) p2).1]
  · refine tendsto_of_near (hc.tendsto.comp hl) ?_ ?_
    · filter_upwards [hlpos] with n p
      have : (0 : ℝ) < (2 ^ n : ℝ)⁻¹ := by positivity
      have := (hspec n (l n) p).2.1
      simp only [Function.comp]; linarith
    · filter_upwards [hlpos] with n p
      obtain ⟨_, a, b, c⟩ := hspec n (l n) p
      simp only [Function.comp]; linarith
  · refine tendsto_of_near (hc.tendsto.comp hh) ?_ ?_
    · filter_upwards [hhpos] with n p
      obtain ⟨_, a, b, c⟩ := hspec n (h n) p
      simp only [Function.comp]; linarith
    · filter_upwards [hhpos] with n p
      have : (0 : ℝ) < (2 ^ n : ℝ)⁻¹ := by positivity
      have := (hspec n (h n) p).2.2.1
      simp only [Function.comp]; linarith

theorem CloseIn.pow {b c : ℕ → Bounds} {x y : ℝ} (hb : CloseIn b x) (hc : CloseIn c y) (hx : 0 < x) :
    CloseIn (fun n => (b n).pow (plainExp2 n) (plainLog2 n) (c n)) (x ^ y) := by
  have hpow : x ^ y = 2 ^ (y * Real.logb 2 x) := by
    rw [mul_comm, Real.rpow_mul (by norm_num), Real.rpow_logb (by norm_num) (by norm_num) hx]
  have key := (hc.mul (hb.log2 hx)).exp2
  rw [← hpow] at key
  obtain ⟨l, h, he, hl, hh⟩ := hb
  obtain ⟨u, v, hk, hu, hv⟩ := key
  refine ⟨u, v, ?_, hu, hv⟩
  filter_upwards [he, hk, hl.eventually_const_lt hx] with n h1 h2 h3
  rw [← h2, h1]
  have : 0 < l n := by exact_mod_cast h3
  simp [Bounds.pow, this]

theorem CloseIn.pow_zero {b c : ℕ → Bounds} {y : ℝ} (hb : CloseIn b 0) (hle : ∀ n, (b n).Enclose 0) (hc : CloseIn c y)
    (hy : 0 < y) : CloseIn (fun n => (b n).pow (plainExp2 n) (plainLog2 n) (c n)) 0 := by
  obtain ⟨l, h, he, hl, hh⟩ := hb
  obtain ⟨el, eh, he', hel, -⟩ := hc
  have hspec : ∀ (n : ℕ) (q : Rat), ∃ g : Rat, 0 < q → (plainLog2 n q).hi = some g ∧
      (g : ℝ) ≤ Real.logb 2 q + (2 ^ n : ℝ)⁻¹ := by
    intro n q
    by_cases hq : 0 < q
    · obtain ⟨l, h, hs, h1, h2, h3⟩ := plainLog2_spec n hq
      exact ⟨h, fun _ => ⟨by rw [hs], by rw [h3]; linarith⟩⟩
    · exact ⟨0, fun h => absurd h hq⟩
  choose g hg using hspec
  choose lo hi hspec h1 h2 h3 using plainExp2_spec
  set m : ℕ → Rat := fun n => max (-(l n)) (h n) with hm
  have hm0 : Tendsto (fun n => (m n : ℝ)) atTop (𝓝 0) := by
    have := hl.neg.max hh
    simpa [hm] using this
  -- the half-width of the bounds
  set u : ℕ → Rat := fun n => if m n ≤ 0 then 0 else hi n (el n * g n (m n)) with hu
  have hu0 : Tendsto (fun n => (u n : ℝ)) atTop (𝓝 0) := by
    have hpos : ∀ n, (0 : ℝ) ≤ u n := by
      intro n
      by_cases hmn : m n ≤ 0
      · simp [hu, hmn]
      · simp only [hu, if_neg hmn]
        exact (Real.rpow_pos_of_pos (by norm_num) _).le.trans (h2 n _)
    have hδ : Tendsto (fun n : ℕ => ((2 : ℝ) ^ n)⁻¹) atTop (𝓝 0) :=
      tendsto_inv_atTop_zero.comp (tendsto_pow_atTop_atTop_of_one_lt (by norm_num))
    refine tendsto_order.mpr ⟨fun a ha => .of_forall fun n => ha.trans_le (hpos n), fun ε hε => ?_⟩
    -- an exponent far enough below 0
    obtain ⟨k, hk1, hk2⟩ : ∃ k : ℝ, k ≤ -1 ∧ (2 : ℝ) ^ (y / 2 * k) < ε / 2 := by
      refine ⟨min (-1) (Real.logb 2 (ε / 4) / (y / 2)), min_le_left _ _, ?_⟩
      calc (2 : ℝ) ^ (y / 2 * min (-1) (Real.logb 2 (ε / 4) / (y / 2))) ≤ 2 ^ Real.logb 2 (ε / 4) := by
            refine Real.rpow_le_rpow_of_exponent_le (by norm_num) ?_
            have h := min_le_right (-1) (Real.logb 2 (ε / 4) / (y / 2))
            calc y / 2 * min (-1) (Real.logb 2 (ε / 4) / (y / 2)) ≤ y / 2 * (Real.logb 2 (ε / 4) / (y / 2)) := by gcongr
              _ = _ := by field_simp
        _ = ε / 4 := Real.rpow_logb (by norm_num) (by norm_num) (by linarith)
        _ < ε / 2 := by linarith
    have hsmall : (0 : ℝ) < 2 ^ (k - 1) := by positivity
    filter_upwards [hm0.eventually_lt_const hsmall, hel.eventually_const_lt (by linarith : y / 2 < y),
      hδ.eventually_lt_const (by linarith : 0 < ε / 2)] with n b1 b2 b3
    by_cases hmn : m n ≤ 0
    · simpa [hu, hmn] using hε
    · have hmn' : (0 : ℝ) < m n := by exact_mod_cast not_le.mp hmn
      have hlog : Real.logb 2 (m n) ≤ k - 1 := by
        rw [Real.logb_le_iff_le_rpow (by norm_num) hmn']; exact b1.le
      have hδ1 : ((2 : ℝ) ^ n)⁻¹ ≤ 1 := inv_le_one_of_one_le₀ (one_le_pow₀ (by norm_num))
      have hgk : (g n (m n) : ℝ) ≤ k := by
        have := (hg n (m n) (not_le.mp hmn)).2
        linarith
      have hexp : ((el n * g n (m n) : Rat) : ℝ) ≤ y / 2 * k := by
        push_cast
        nlinarith
      simp only [hu, if_neg hmn]
      calc (hi n (el n * g n (m n)) : ℝ) ≤ 2 ^ ((el n * g n (m n) : Rat) : ℝ) + ((2 : ℝ) ^ n)⁻¹ := by
            have := h1 n (el n * g n (m n))
            have := h3 n (el n * g n (m n))
            linarith
        _ ≤ 2 ^ (y / 2 * k) + ((2 : ℝ) ^ n)⁻¹ := by
            gcongr
            norm_num
        _ < ε := by linarith
  refine ⟨fun n => -(u n), u, ?_, by simpa using hu0.neg, hu0⟩
  filter_upwards [he, he', hm0.eventually_lt_const one_pos, hel.eventually_const_lt hy] with n e1 e2 e3 e4
  have e3' : m n < 1 := by exact_mod_cast e3
  have e4' : 0 < el n := by exact_mod_cast e4
  have hl0 : ¬ 0 < l n := by
    have := (hle n).1 (l n) (by rw [e1])
    exact not_lt.mpr (by exact_mod_cast this)
  rw [e1, e2]
  simp only [Bounds.pow, if_neg hl0, if_pos e4']
  show powNearZero _ _ (m n) (el n) = _
  unfold powNearZero
  by_cases hmn : m n ≤ 0
  · simp [hu, hmn]
  · have := (hg n (m n) (not_le.mp hmn)).1
    simp [hu, hmn, e3', this, hspec]

/-- Bounds that close in on a number other than 0 come to tell its sign. -/
theorem CloseIn.negative {b : ℕ → Bounds} {x : ℝ} (hb : CloseIn b x) (hx : x ≠ 0) :
    ∃ n, (b n).negative.isSome = true := by
  obtain ⟨l, h, he, hl, hh⟩ := hb
  rcases lt_or_gt_of_ne hx with h0 | h0
  · obtain ⟨n, e, hn⟩ := (he.and (hh.eventually_lt_const h0)).exists
    have : h n < 0 := by exact_mod_cast hn
    exact ⟨n, by simp [e, Bounds.negative, this]⟩
  · obtain ⟨n, e, hn⟩ := (he.and (hl.eventually_const_lt h0)).exists
    have : 0 ≤ l n := by exact_mod_cast hn.le
    refine ⟨n, ?_⟩
    rw [e]
    simp only [Bounds.negative]
    split
    · rfl
    · simp

/-- Bounds that close in on a number come to lie less than 1 apart. -/
theorem CloseIn.nearInteger {b : ℕ → Bounds} {x : ℝ} (hb : CloseIn b x) : ∃ n, (b n).nearInteger.isSome = true := by
  obtain ⟨l, h, he, hl, hh⟩ := hb
  obtain ⟨n, e, hn⟩ := (he.and ((hh.sub hl).eventually_lt_const (by simp : x - x < 1))).exists
  have : h n - l n < 1 := by exact_mod_cast hn
  exact ⟨n, by simp [e, Bounds.nearInteger, this]⟩

/-! ### Expressions -/

/-- The plain bounds of an expression whose operations are all in their domains close in on its number. -/
theorem bounds_closeIn {a : ExactReal} (ha : a.Defined) : CloseIn (fun n => ExactReal.bounds (plainBounds n) a) a.val := by
  induction a with
  | rat q =>
    exact ⟨fun _ => q, fun _ => q, .of_forall fun _ => rfl, tendsto_const_nhds, tendsto_const_nhds⟩
  | add a b iha ihb => exact (iha ha.1).add (ihb ha.2)
  | sub a b iha ihb => exact (iha ha.1).sub (ihb ha.2)
  | mul a b iha ihb => exact (iha ha.1).mul (ihb ha.2)
  | div a b iha ihb => 
    have := (iha ha.1).mul ((ihb ha.2.1).inv ha.2.2)
    rwa [← div_eq_mul_inv] at this
  | pow a b iha ihb =>
    rcases ha.2.2 with h0 | ⟨h0, hy⟩
    · exact (iha ha.1).pow (ihb ha.2.1) h0
    · have hv : (ExactReal.pow a b).val = 0 := by
        show a.val ^ b.val = 0
        rw [h0, Real.zero_rpow hy.ne']
      rw [hv]
      have hca := iha ha.1
      rw [h0] at hca
      exact hca.pow_zero (fun n => h0 ▸ bounds_enclose (plainBounds_sound n) a) (ihb ha.2.1) hy
  | exp2 a ih => exact (ih ha).exp2
  | log2 a ih => exact (ih ha.1).log2 ha.2

/-! ### The search -/

/-- What the search answers, some level answers. -/
theorem search_level {α : Type} {question : Bounds → Option α} {a : ExactReal} {n : Nat} {v : α}
    (h : search question a n = some v) : ∃ m, n ≤ m ∧ question (ExactReal.bounds (plainBounds m) a) = some v := by
  refine search.partial_correctness question a
    (fun n v => ∃ m, n ≤ m ∧ question (ExactReal.bounds (plainBounds m) a) = some v) (fun f ih n v hv => ?_) n v h
  split at hv
  · rename_i w hw
    exact ⟨n, le_rfl, hw.trans hv⟩
  · obtain ⟨m, hm, hq⟩ := ih (n + 1) v hv
    exact ⟨m, by omega, hq⟩

/-- The search answers if some level does. -/
theorem search_isSome {α : Type} {question : Bounds → Option α} {a : ExactReal} (k : Nat) :
    ∀ n, (question (ExactReal.bounds (plainBounds (n + k)) a)).isSome = true → (search question a n).isSome = true := by
  induction k with
  | zero =>
    intro n h
    rw [search]
    obtain ⟨v, hv⟩ := Option.isSome_iff_exists.mp h
    rw [show n + 0 = n from rfl] at hv
    rw [hv]; rfl
  | succ k ih =>
    intro n h
    rw [search]
    split
    · rfl
    · exact ih (n + 1) (by rwa [show n + 1 + k = n + (k + 1) by omega])

/-! ### The operations stay in their domains -/

@[simp] theorem defined_rat (q : Rat) : (ExactReal.rat q).Defined := trivial

@[simp] theorem defined_lit (n : Int) (d : Nat) : (lit n d).Defined := trivial

theorem defined_realAdd {a b : ExactReal} (ha : a.Defined) (hb : b.Defined) : (realAdd a b).Defined := by
  unfold realAdd
  split
  · trivial
  · exact ⟨ha, hb⟩

theorem defined_realSub {a b : ExactReal} (ha : a.Defined) (hb : b.Defined) : (realSub a b).Defined := by
  unfold realSub
  split
  · trivial
  · exact ⟨ha, hb⟩

theorem defined_realMul {a b : ExactReal} (ha : a.Defined) (hb : b.Defined) : (realMul a b).Defined := by
  unfold realMul
  split
  · trivial
  · split
    · trivial
    · exact ⟨ha, hb⟩

theorem defined_realDiv {a b : ExactReal} (ha : a.Defined) (hb : b.Defined) (h0 : b.val ≠ 0) : (realDiv a b).Defined := by
  unfold realDiv
  split
  · split
    · exact ⟨trivial, trivial, h0⟩
    · trivial
  · exact ⟨ha, hb, h0⟩

theorem defined_realExp2 {a : ExactReal} (ha : a.Defined) : (realExp2 a).Defined := by
  unfold realExp2
  split
  · split <;> trivial
  · exact ha

theorem defined_realLog2 {a : ExactReal} (ha : a.Defined) (h0 : 0 < a.val) : (realLog2 a).Defined := by
  unfold realLog2
  split
  · split
    · trivial
    · exact ⟨trivial, h0⟩
  · exact ⟨ha, h0⟩

theorem defined_realPow {a b : ExactReal} (ha : a.Defined) (hb : b.Defined) (h0 : 0 < a.val ∨ (a.val = 0 ∧ 0 < b.val)) :
    (realPow a b).Defined := by
  unfold realPow
  split
  · split
    · trivial
    · split
      · trivial
      · exact ⟨trivial, trivial, h0⟩
  · exact ⟨ha, hb, h0⟩

end Sys2Proof.Machine
end

