-- ==== Sys2Proof/Laws/Step.lean ====
section
/-!
SUPPORT. One step of the machine, case by case (spec/60_exceptions.md R114): what each host action and each of the
sequencer's own steps does, said once.
-/

namespace Sys2Proof.Machine

theorem step_nil {s : State} (h : s.env.port = []) : step s = progress s := by
  simp [step, hostStep, h]

theorem step_wait {s : State} {e : HostEvent} {rest : List HostEvent} (h : s.env.port = e :: rest)
    (hw : mustWait e s = true) : step s = progress s := by
  simp [step, hostStep, h, hw]

theorem step_act {s : State} {e : HostEvent} {rest : List HostEvent} (h : s.env.port = e :: rest)
    (hw : mustWait e s = false) : step s = hostAct e.act (s.setPort rest) := by
  simp [step, hostStep, h, hw]

/-- A step is the sequencer's own, or an action of the host's that need not wait. -/
theorem step_cases (s : State) :
    (step s = progress s ∧ (s.env.port = [] ∨ ∃ e rest, s.env.port = e :: rest ∧ mustWait e s = true)) ∨
      ∃ e rest, s.env.port = e :: rest ∧ mustWait e s = false ∧ step s = hostAct e.act (s.setPort rest) := by
  cases h : s.env.port with
  | nil => exact .inl ⟨step_nil h, .inl rfl⟩
  | cons e rest =>
    cases hw : mustWait e s with
    | true => exact .inl ⟨step_wait h hw, .inr ⟨e, rest, rfl, hw⟩⟩
    | false => exact .inr ⟨e, rest, rfl, hw, step_act h hw⟩

/-- The sequencer's own step: the end of a reset, the command in flight, or nothing. -/
theorem progress_cases (s : State) :
    (s.status.ready = false ∧ progress s = .next (resetFinish s)) ∨
      (s.status.ready = true ∧ ∃ i, s.env.inFlight = some i ∧ progress s = exec i (s.setInFlight none)) ∨
      (s.status.ready = true ∧ s.env.inFlight = none ∧ progress s = .next s) := by
  unfold progress
  cases hr : s.status.ready with
  | false => exact .inl ⟨rfl, rfl⟩
  | true =>
    cases hi : s.env.inFlight with
    | none => exact .inr (.inr ⟨rfl, rfl, rfl⟩)
    | some i => exact .inr (.inl ⟨rfl, i, rfl, rfl⟩)

/-- What issue answers: nothing presented, dropped, F_OVERLAP, a command started, an incomplete descriptor, F_ILLEGAL. -/
theorem issue_cases (ws : List Word) (s : State) :
    (ws = [] ∧ issue ws s = .next s) ∨
      (ws ≠ [] ∧ s.status.fault ≠ .none ∧ issue ws s = .next (s.keepWords (ws.drop (descriptorLength ws)))) ∨
      (ws ≠ [] ∧ s.status.fault = .none ∧ s.status.busy = true ∧
        issue ws s = .next (overlap (s.keepWords (ws.drop (descriptorLength ws))))) ∨
      (s.status.fault = .none ∧ s.status.busy = false ∧ ∃ i rest, decode ws = .ok (i, rest) ∧
        issue ws s = startCommand i (s.keepWords rest)) ∨
      (s.status.fault = .none ∧ s.status.busy = false ∧ decode ws = .error .incomplete ∧
        issue ws s = .refused .descriptorIncomplete) ∨
      (s.status.fault = .none ∧ s.status.busy = false ∧ (∃ e, decode ws = .error e ∧ e ≠ .incomplete) ∧
        issue ws s = .next ((((s.keepWords (ws.drop 1)).setBusy true).setBuffer none).setFault .illegal)) := by
  unfold issue
  by_cases h0 : ws = []
  · exact .inl ⟨h0, by simp [h0]⟩
  by_cases h1 : s.status.fault ≠ .none
  · exact .inr (.inl ⟨h0, h1, by simp [h0, h1]⟩)
  have h1' : s.status.fault = .none := by simpa using h1
  cases h2 : s.status.busy with
  | true => exact .inr (.inr (.inl ⟨h0, h1', rfl, by simp [h0, h1']⟩))
  | false =>
    refine .inr (.inr (.inr ?_))
    cases h3 : decode ws with
    | ok r =>
      obtain ⟨i, rest⟩ := r
      exact .inl ⟨h1', rfl, i, rest, rfl, by simp [h0, h1']⟩
    | error e =>
      cases e with
      | incomplete => exact .inr (.inl ⟨h1', rfl, rfl, by simp [h0, h1']⟩)
      | _ => exact .inr (.inr ⟨h1', rfl, ⟨_, rfl, by simp⟩, by simp [h0, h1']⟩)

/-- A command that is started runs at once, or is left in flight where the host's next action does not wait and the command
raises no fault. -/
theorem startCommand_cases (i : Instr) (s : State) :
    startCommand i s = exec i ((s.setBusy true).setBuffer (bufferOf i)) ∨
      (s.nextHasty = true ∧ faulted (exec i ((s.setBusy true).setBuffer (bufferOf i))) = false ∧
        startCommand i s = .next (((s.setBusy true).setBuffer (bufferOf i)).setInFlight (some i))) := by
  unfold startCommand
  dsimp only
  split
  · rename_i h
    simp only [Bool.and_eq_true, Bool.not_eq_true'] at h
    exact .inr ⟨h.1, h.2, rfl⟩
  · exact .inl rfl

/-- A word is not the host's exactly where BUSY = 1 and it lies in the buffer on record. -/
theorem inBuffer_iff (a : Word) (s : State) : inBuffer a s = true ↔
    s.status.busy = true ∧ ∃ base len, s.env.buffer = some (base, len) ∧ InBuffer base len a := by
  unfold inBuffer InBuffer
  split
  · rename_i base len h
    simp only [h, Bool.and_eq_true, decide_eq_true_eq, Option.some.injEq, Prod.mk.injEq]
    exact ⟨fun h => ⟨h.1.1, base, len, ⟨rfl, rfl⟩, h.1.2, h.2⟩,
      by rintro ⟨h1, _, _, ⟨rfl, rfl⟩, h2, h3⟩; exact ⟨⟨h1, h2⟩, h3⟩⟩
  · rename_i h
    simp [h]

@[simp] theorem State.keepWords_nil (s : State) : s.keepWords [] = s := by simp [State.keepWords]

/-- The table build changes PLUT, PLUT_VALID and FAULT at most. -/
theorem plutInUse_eq (s : State) : ∃ p st, plutInUse s = { s with plut := p, status := st } := by
  unfold plutInUse
  rcases compileIfNeeded_cases s with ⟨h, _⟩ | ⟨_, _, h⟩ | ⟨_, h⟩ <;> rw [h] <;> exact ⟨_, _, rfl⟩

/-- The table APPLY uses does not depend on what the host does. -/
theorem plutInUse_setPort (s : State) (port : List HostEvent) :
    (plutInUse (s.setPort port)).plut = (plutInUse s).plut := by
  have h : ∀ n, plutCompiled (s.setPort port) n = plutCompiled s n := fun _ => rfl
  unfold plutInUse compileIfNeeded tcCompile
  by_cases h1 : s.env.cfg.plutCache = .rebuild ∨ s.status.plutValid = false
  · by_cases h2 : writtenPrefix s.gain = 256 <;> simp [h1, h2, h, raiseFault]
  · simp [h1]

/-- An abandoned command has changed words of PIXMEM, RESULT and the sequencer registers at most. -/
theorem abandonCommand_frame (s : State) :
    abandonCommand s = { s with
      pixmem := (abandonCommand s).pixmem, result := (abandonCommand s).result, seq := (abandonCommand s).seq } ∧
      (Pixmem.wf s.pixmem = true → Pixmem.wf (abandonCommand s).pixmem = true) ∧
      ((∀ base len width height, s.env.inFlight ≠ some (.apply base len width height)) →
        (abandonCommand s).pixmem = s.pixmem ∧ (abandonCommand s).seq = s.seq) := by
  unfold abandonCommand
  split
  · rename_i base len _ _ hi
    refine ⟨rfl, fun h => ?_, fun h => absurd hi (h _ _ _ _)⟩
    refine (abandonPixels_frame _ _ _ _).2 ?_
    obtain ⟨p, st, hp⟩ := plutInUse_eq s
    rw [hp]; exact h
  · rename_i i _ hi
    split
    · exact ⟨rfl, id, fun _ => ⟨rfl, rfl⟩⟩
    · exact ⟨rfl, id, fun _ => ⟨rfl, rfl⟩⟩
  · exact ⟨rfl, id, fun _ => ⟨rfl, rfl⟩⟩

/-- The words an abandoned APPLY leaves. -/
theorem abandonCommand_words {s : State} {base len width height : Word} (hwf : Pixmem.wf s.pixmem = true)
    (hlt : base.toNat + len.toNat ≤ 2 ^ 32) (hi : s.env.inFlight = some (.apply base len width height)) (a : Word) :
    memRead (abandonCommand s) a = memRead s a ∨
      (InBuffer base len a ∧ remapWord (plutInUse s) (memRead s a) = some (memRead (abandonCommand s) a)) := by
  obtain ⟨p, st, hp⟩ := plutInUse_eq s
  have hm : ∀ b, memRead (plutInUse s) b = memRead s b := fun b => by rw [hp]; rfl
  have h := abandonPixels_words (Config.freeRemapped s.env.freeCount) base (unsigned len) (plutInUse s)
    (by rw [hp]; exact hwf) hlt a
  rw [hm] at h
  have hab : memRead (abandonCommand s) a =
      memRead (abandonPixels (Config.freeRemapped s.env.freeCount) base (unsigned len) (plutInUse s)) a := by
    simp only [abandonCommand, hi]; rfl
  rw [hab]
  rcases h with h | ⟨h1, h2, h3⟩
  · exact .inl h
  · exact .inr ⟨⟨h1, h2⟩, h3⟩

/-- F_OVERLAP (R114): what it sets and what it leaves. -/
theorem overlap_frame (s : State) :
    (overlap s).gtl = s.gtl ∧ (overlap s).ltg = s.ltg ∧ (overlap s).status.ready = s.status.ready ∧
      (overlap s).status.busy = s.status.busy ∧ (overlap s).status.fault = .overlap ∧
      (overlap s).pixmem = (abandonCommand s).pixmem ∧
      (overlap s).env = { s.env with inFlight := none, freeCount := s.env.freeCount + 1 } ∧
      (∀ i j : Fin 256, i < j → (overlap s).plut[i][j] = s.plut[i][j]) := by
  have hfr := (abandonCommand_frame s).1
  refine ⟨?_, ?_, ?_, ?_, rfl, rfl, ?_, ?_⟩
  · show (abandonCommand s).gtl = s.gtl; rw [hfr]
  · show (abandonCommand s).ltg = s.ltg; rw [hfr]
  · show (abandonCommand s).status.ready = s.status.ready; rw [hfr]
  · show (abandonCommand s).status.busy = s.status.busy; rw [hfr]
  · show { (abandonCommand s).env with inFlight := none, freeCount := (abandonCommand s).env.freeCount + 1 } = _
    rw [hfr]
  · intro i j hij
    have hji : ¬ j.val ≤ i.val := by omega
    show (plutFree (abandonCommand s))[i][j] = s.plut[i][j]
    simp only [plutFree, tabulate_getElem_fin, if_neg hji]
    rw [hfr]

/-- The reset event begins (R130): what it sets and what it leaves. -/
theorem resetBegin_abandon (s : State) :
    (resetBegin (abandonCommand s)).nextFree =
      { s with
        param := none, gain := gainUnwritten, plut := plutUnwritten, result := none, seq := Sequencer.reset,
        pixmem := (abandonCommand s).pixmem,
        status := { ready := false, gainValid := false, plutValid := false, busy := false, fault := .none },
        env := { s.env with inFlight := none, buffer := none, freeCount := s.env.freeCount + 1 } } := by
  conv_lhs => rw [(abandonCommand_frame s).1]
  rfl

end Sys2Proof.Machine
end

