-- ==== Sys2Proof/Laws/Inversion.lean ====
section
/-!
SUPPORT. Everything a step that answers a next state can be, said once: the ways in which the machine goes from one state to
the next, and that every such step is one of them.
-/

namespace Sys2Proof.Machine

/-- The ways from a state to the next. `port` is the queue of host actions that the step leaves. -/
inductive Stepped (s : State) : State → Prop where
  /-- A reset ends. -/
  | resetEnds (hr : s.status.ready = false) : Stepped s (resetFinish s)
  /-- The command in flight is carried out. -/
  | runs (i : Instr) (t : State) (hr : s.status.ready = true) (hi : s.env.inFlight = some i)
      (h : exec i (s.setInFlight none) = .next t) : Stepped s t
  /-- Nothing is to be done, or no word was presented. -/
  | stays (port : List HostEvent) (hp : ∀ e ∈ port, e ∈ s.env.port) : Stepped s (s.setPort port)
  /-- A descriptor is dropped after a fault. -/
  | dropped (ws : List Word) (h : Bool) (rest : List HostEvent) (hp : s.env.port = ⟨.present ws, h⟩ :: rest)
      (hr : s.status.ready = true) (hf : s.status.fault ≠ .none) :
      Stepped s ((s.setPort rest).keepWords (ws.drop (descriptorLength ws)))
  /-- A descriptor meets a busy block. -/
  | overlaps (ws : List Word) (h : Bool) (rest : List HostEvent) (hp : s.env.port = ⟨.present ws, h⟩ :: rest)
      (hw : s.env.inFlight = none ∨ h = true)
      (hr : s.status.ready = true) (hf : s.status.fault = .none) (hb : s.status.busy = true) :
      Stepped s (overlap ((s.setPort rest).keepWords (ws.drop (descriptorLength ws))))
  /-- A command is issued and carried out. -/
  | issued (i : Instr) (t : State) (ws ws' : List Word) (h : Bool) (rest : List HostEvent)
      (hp : s.env.port = ⟨.present ws, h⟩ :: rest) (hd : decode ws = .ok (i, ws'))
      (hr : s.status.ready = true) (hf : s.status.fault = .none) (hb : s.status.busy = false)
      (ht : exec i ((((s.setPort rest).keepWords ws').setBusy true).setBuffer (bufferOf i)) = .next t) : Stepped s t
  /-- A command is issued and left in flight. -/
  | started (i : Instr) (ws ws' : List Word) (h : Bool) (rest : List HostEvent)
      (hp : s.env.port = ⟨.present ws, h⟩ :: rest) (hd : decode ws = .ok (i, ws'))
      (hr : s.status.ready = true) (hf : s.status.fault = .none) (hb : s.status.busy = false)
      (hn : ((s.setPort rest).keepWords ws').nextHasty = true)
      (ht : faulted (exec i ((((s.setPort rest).keepWords ws').setBusy true).setBuffer (bufferOf i))) = false) :
      Stepped s (((((s.setPort rest).keepWords ws').setBusy true).setBuffer (bufferOf i)).setInFlight (some i))
  /-- An illegal header. -/
  | illegal (ws : List Word) (h : Bool) (rest : List HostEvent) (hp : s.env.port = ⟨.present ws, h⟩ :: rest)
      (hr : s.status.ready = true) (hf : s.status.fault = .none) (hb : s.status.busy = false) :
      Stepped s (((((s.setPort rest).keepWords (ws.drop 1)).setBusy true).setBuffer none).setFault .illegal)
  /-- The host reads a control register. -/
  | crRead (n : Nat) (h : Bool) (rest : List HostEvent) (hp : s.env.port = ⟨.crRead n, h⟩ :: rest) :
      Stepped s (((s.setPort rest).setHostData (crValue n (s.setPort rest))).nextFree)
  /-- A reset begins. -/
  | resetBegins (h : Bool) (rest : List HostEvent) (hp : s.env.port = ⟨.reset, h⟩ :: rest) :
      Stepped s ((resetBegin (abandonCommand (s.setPort rest))).nextFree)
  /-- The host reads a word of PIXMEM. -/
  | pixRead (a : Word) (h : Bool) (rest : List HostEvent) (hp : s.env.port = ⟨.pixRead a, h⟩ :: rest)
      (hb : inBuffer a (s.setPort rest) = false) :
      Stepped s ((s.setPort rest).setHostData (memRead (s.setPort rest) a))
  /-- The host writes a word of PIXMEM. -/
  | pixWrite (a v : Word) (h : Bool) (rest : List HostEvent) (hp : s.env.port = ⟨.pixWrite a v, h⟩ :: rest)
      (hb : inBuffer a (s.setPort rest) = false) : Stepped s (memWrite (s.setPort rest) a v)

/-- Every step that answers a next state is one of those. -/
theorem stepped_of_step {s t : State} (hst : step s = .next t) : Stepped s t := by
  rcases step_cases s with ⟨h, _⟩ | ⟨⟨act, h⟩, rest, hp, hw, hs⟩
  · rw [h] at hst
    rcases progress_cases s with ⟨hr, h⟩ | ⟨hr, i, hi, h⟩ | ⟨_, _, h⟩ <;> rw [h] at hst
    · cases hst; exact .resetEnds hr
    · exact .runs i t hr hi hst
    · cases hst; exact .stays s.env.port fun _ h => h
  · rw [hs] at hst
    cases act with
    | present ws =>
      have hr : s.status.ready = true := by
        simp only [mustWait, HostAction.presents, Bool.and_true, Bool.or_eq_false_iff, Bool.not_eq_false'] at hw
        exact hw.2
      have hfl : s.env.inFlight = none ∨ h = true := by
        simp only [mustWait, State.active, hr, Bool.or_eq_false_iff, Bool.and_eq_false_iff] at hw
        simpa using hw.1
      simp only [hostAct] at hst
      rcases issue_cases ws (s.setPort rest) with ⟨_, he⟩ | ⟨_, hf, he⟩ | ⟨_, hf, hb, he⟩ | ⟨hf, hb, i, ws', hd, he⟩ |
        ⟨_, _, _, he⟩ | ⟨hf, hb, _, he⟩ <;> rw [he] at hst
      · cases hst; exact .stays rest fun e h => by rw [hp]; exact List.mem_cons_of_mem _ h
      · cases hst; exact .dropped ws h rest hp hr hf
      · cases hst; exact .overlaps ws h rest hp hfl hr hf hb
      · rcases startCommand_cases i ((s.setPort rest).keepWords ws') with h | ⟨hn, hx, h⟩ <;> rw [h] at hst
        · exact .issued i t ws ws' _ rest hp hd hr hf hb hst
        · cases hst; exact .started i ws ws' _ rest hp hd hr hf hb hn hx
      · cases hst
      · cases hst; exact .illegal ws h rest hp hr hf hb
    | crRead n => cases hst; exact .crRead n h rest hp
    | reset => cases hst; exact .resetBegins h rest hp
    | pixRead a =>
      simp only [hostAct] at hst
      split at hst <;> cases hst
      rename_i hb
      exact .pixRead a h rest hp (by simpa using hb)
    | pixWrite a v =>
      simp only [hostAct] at hst
      split at hst <;> cases hst
      rename_i hb
      exact .pixWrite a v h rest hp (by simpa using hb)

end Sys2Proof.Machine
end

