-- ==== Sys2Proof/Laws/PerInstr.lean ====
section
/-!
SUPPORT. Statements about every command as syntax, one lemma per constructor: the header of an encoded command is legal
(spec/30_encoding.md R50, R53).
-/

namespace Sys2Proof.Laws.HeaderIsLegal

/-- The descriptor of a command has a header, and R53 does not call it illegal. -/
def Statement (i : Instr) : Prop := ∃ w ws, encode i = w :: ws ∧ ¬ Machine.IllegalHeader w

theorem init (p : Word) (gains : Gains) (matrix : Option (List Word)) : Statement (.init p gains matrix) := by
  cases matrix <;> exact ⟨_, _, rfl, by unfold Machine.IllegalHeader; decide⟩

theorem apply (base len width height : Word) : Statement (.apply base len width height) :=
  ⟨_, _, rfl, by unfold Machine.IllegalHeader; decide⟩

theorem pmin : Statement .pmin := ⟨_, _, rfl, by unfold Machine.IllegalHeader; decide⟩

theorem pmax : Statement .pmax := ⟨_, _, rfl, by unfold Machine.IllegalHeader; decide⟩

theorem defp (lux : Word) : Statement (.defp lux) := ⟨_, _, rfl, by unfold Machine.IllegalHeader; decide⟩

end Sys2Proof.Laws.HeaderIsLegal
end

