-- ==== Sys2Proof/Tests/Slice0.lean ====
section
/-!
SUPPORT. Tests of the model against spec/ (the words of 30_encoding.md, the vectors of 95_test_vectors.md), and for every
statement with hypotheses a concrete state and operands that meet them.
-/

namespace Sys2Proof.Tests

open Sys2Proof.Machine

/-! ### States -/

/-- Right after reset, with a host that will do these things. -/
def hostDoes (port : List HostEvent) : State := State.reset.setPort port

/-- After `INIT` with +infinity, whose lux is 2500 (R70). -/
def initialised (s : State) : State :=
  (((s.withParam (some 0x7F800000#32)).withGain
    (tabulate 256 fun i => some (gainEntry s.num (lit 2500 1) s.gtl[i]))).setGainValid true).setPlutValid false

/-- After an APPLY of no pixel. -/
def compiled (s : State) : State := (s.withPlut (plutCompiled s 256)).setPlutValid true

def afterInit : State := initialised State.reset

def afterApply : State := compiled afterInit

/-- A recorded fault (R113). -/
def afterFault : State := (State.reset.setBusy true).setFault .geom

/-- A command in flight (R17). -/
def flying (i : Instr) (port : List HostEvent) : State :=
  (((hostDoes port).setBusy true).setBuffer (bufferOf i)).setInFlight (some i)

/-- A reset in progress (R131). -/
def resetting (port : List HostEvent) : State := resetBegin (hostDoes port)

/-- The word an outcome's state has at an index, after PIXMEM was given these words before. -/
def withWords (s : State) (ws : List (Word × Word)) : State := ws.foldl (fun s w => memWrite s w.1 w.2) s

def outcome (o : Host.Outcome State Fault Refusal) (f : State → Word) : Option Word :=
  match o with
  | .next t => some (f t)
  | .fault _ => none
  | .refused _ => none

theorem idle_hostDoes (port : List HostEvent) : Idle (hostDoes port) := ⟨rfl, rfl, rfl, rfl⟩

theorem sequenced_hostDoes (port : List HostEvent) : Sequenced (hostDoes port) :=
  ⟨fun h => absurd h (by simp [hostDoes, State.reset, Env.reset]),
    fun h => absurd h (by simp [hostDoes, State.reset, Status.reset]), fun h => absurd rfl h,
    fun i h => by simp [hostDoes, State.reset, Env.reset] at h⟩

theorem coherent_hostDoes (port : List HostEvent) : Coherent (hostDoes port) :=
  ⟨fun _ => ⟨rfl, rfl⟩, fun _ _ h => absurd h (by simp [hostDoes, State.reset, Status.reset]),
    fun _ _ h => absurd h (by simp [hostDoes, State.reset, Status.reset]),
    fun h => absurd h (by simp [hostDoes, State.reset, Status.reset])⟩

theorem triangular_hostDoes (port : List HostEvent) : Triangular (hostDoes port) :=
  fun i j _ => plutUnwritten_getElem i j

/-! ### WellFormed -/

/-- R45: a matrix that is present has nine words. -/
theorem test_matrix_of_none_refused : (Instr.init 0#32 ⟨0#32, 0#32, 0#32⟩ (some [])).wellFormed = false := by decide

theorem test_matrix_of_ten_refused :
    (Instr.init 0#32 ⟨0#32, 0#32, 0#32⟩ (some (List.replicate 10 0#32))).wellFormed = false := by decide

theorem test_matrix_of_nine : (Instr.init 0#32 ⟨0#32, 0#32, 0#32⟩ (some (List.replicate 9 0#32))).WellFormed := by decide

/-! ### Decoding (spec/30_encoding.md R46 to R51, spec/95_test_vectors.md 2.10), headers bit by bit -/

/-- A header: bits 31:9 zero, bit 8 M, bits 7:0 OPC. -/
def header (zero : BitVec 23) (m : BitVec 1) (opc : BitVec 8) : Word := zero ++ m ++ opc

theorem test_decode_init :
    decode [header 0b00000000000000000000000#23 0b0#1 0b00000001#8, 0x40A00000#32, 1#32, 2#32, 3#32, 9#32]
      = .ok (.init 0x40A00000#32 ⟨1#32, 2#32, 3#32⟩ none, [9#32]) := by rfl

theorem test_decode_init_matrix :
    decode ([header 0b00000000000000000000000#23 0b1#1 0b00000001#8, 0x40A00000#32, 1#32, 2#32, 3#32]
        ++ [10#32, 11#32, 12#32, 13#32, 14#32, 15#32, 16#32, 17#32, 18#32])
      = .ok (.init 0x40A00000#32 ⟨1#32, 2#32, 3#32⟩
          (some [10#32, 11#32, 12#32, 13#32, 14#32, 15#32, 16#32, 17#32, 18#32]), []) := by rfl

theorem test_decode_apply :
    decode [header 0b00000000000000000000000#23 0b0#1 0b00000010#8, 0x100#32, 4#32, 2#32, 0xFFFFFFFE#32]
      = .ok (.apply 0x100#32 4#32 2#32 0xFFFFFFFE#32, []) := by rfl

theorem test_decode_pmin :
    decode [header 0b00000000000000000000000#23 0b0#1 0b00000011#8] = .ok (.pmin, []) := by rfl

theorem test_decode_pmax :
    decode [header 0b00000000000000000000000#23 0b0#1 0b00000100#8] = .ok (.pmax, []) := by rfl

theorem test_decode_defp :
    decode [header 0b00000000000000000000000#23 0b0#1 0b00000101#8, 0x4E2#32] = .ok (.defp 0x4E2#32, []) := by rfl

theorem test_decode_bit9 :
    decode [header 0b00000000000000000000001#23 0b0#1 0b00000001#8] = .error .reservedBits := by rfl

theorem test_decode_m_outside_init :
    decode [header 0b00000000000000000000000#23 0b1#1 0b00000011#8] = .error .matrixOutsideInit := by rfl

theorem test_table_rows :
    decodeTableWord 160 0x1 = some (.init 0#32 ⟨0#32, 0#32, 0#32⟩ none) ∧
      decodeTableWord 32 0x101 = some (.init 0#32 ⟨0#32, 0#32, 0#32⟩ (some (List.replicate 9 0#32))) ∧
      decodeTableWord 160 0x00000001_00000002_00000003_00000004_00000002
        = some (.apply 4#32 3#32 2#32 1#32) ∧
      decodeTableWord 32 0x3 = some .pmin ∧ decodeTableWord 32 0x4 = some .pmax ∧
      decodeTableWord 64 0x00000007_00000005 = some (.defp 7#32) ∧ decodeTableWord 32 0 = none := by decide +kernel

/-! ### The commands (spec/95_test_vectors.md 2.6, 2.9, 2.11) -/

/-- 2.11: INIT with +infinity completes. -/
theorem test_init_infinity :
    outcome (step (hostDoes [⟨.present [1#32, 0x7F800000#32, 0#32, 0#32, 0#32], false⟩])) (fun t => statusWord t.status)
      = some 0x03#32 := by decide +kernel

/-- 2.11: INIT with a NaN raises F_PARAM. -/
theorem test_init_nan :
    outcome (step (hostDoes [⟨.present [1#32, 0x7F800001#32, 0#32, 0#32, 0#32], false⟩])) (fun t => statusWord t.status)
      = some 0x39#32 := by decide +kernel

/-- 2.6, scenario 8: after INIT 0.0 the pixel 0xFF0A0A0A becomes 0xFF212121. -/
theorem test_apply_pixel :
    outcome
      (match exec (.init 0#32 ⟨0#32, 0#32, 0#32⟩ none) (withWords State.reset [(0x100#32, 0xFF0A0A0A#32)]) with
        | .next s => exec (.apply 0x100#32 1#32 1#32 1#32) s
        | o => o)
      (fun t => memRead t 0x100#32) = some 0xFF212121#32 := by decide +kernel

/-- 2.11: APPLY before any INIT raises F_NOGAIN, also with bad geometry. -/
theorem test_apply_no_gain :
    outcome (step (hostDoes [⟨.present [2#32, 0#32, 5#32, 2#32, 2#32], false⟩])) (fun t => statusWord t.status)
      = some 0x49#32 := by decide +kernel

theorem test_pmin : outcome (exec .pmin State.reset) (fun t => t.result.getD 7#32) = some 0#32 := by rfl

theorem test_pmax : outcome (exec .pmax State.reset) (fun t => t.result.getD 7#32) = some 5#32 := by rfl

/-- 2.9: DEFP 1000. -/
theorem test_defp_1000 :
    outcome (exec (.defp 1000#32) State.reset) (fun t => t.result.getD 7#32) = some 0x406B6588#32 := by decide +kernel

/-- 2.9: DEFP of the least reading. -/
theorem test_defp_least :
    outcome (exec (.defp 0x80000000#32) State.reset) (fun t => t.result.getD 7#32) = some 0x3D0C25C7#32 := by
  decide +kernel

/-- 2.2, 2.1: entries of the tables after reset. -/
theorem test_ltg_entries :
    State.reset.ltg[(1 : Fin 1025)] = 10#8 ∧ State.reset.ltg[(512 : Fin 1025)] = 186#8 ∧
      State.reset.ltg[(1023 : Fin 1025)] = 254#8 := by decide +kernel

/-! ### Witnesses: encoding -/

theorem test_witness_decodes : ∃ i rest, decode [0x00000005#32, 0x000003E8#32, 3#32] = .ok (i, rest) := ⟨_, _, rfl⟩

/-- The clauses of the length: a header of each format, at both values of M. -/
theorem test_witness_legal_headers :
    ¬ IllegalHeader 0x00000001#32 ∧ ¬ IllegalHeader 0x00000101#32 ∧ ¬ IllegalHeader 0x00000002#32 ∧
      ¬ IllegalHeader 0x00000003#32 ∧ ¬ IllegalHeader 0x00000004#32 ∧ ¬ IllegalHeader 0x00000005#32 ∧
      descriptorLength [0x00000101#32] = 14 ∧ descriptorLength [0x00000001#32] = 5 ∧
      descriptorLength [0x00000002#32] = 5 ∧ descriptorLength [0x00000003#32] = 1 ∧
      descriptorLength [0x00000005#32] = 2 := by
  unfold IllegalHeader; decide

/-- The forms of R53 at their boundaries. -/
theorem test_witness_illegal_headers :
    IllegalHeader 0x00000000#32 ∧ IllegalHeader 0x00000006#32 ∧ IllegalHeader 0x000000FF#32 ∧
      IllegalHeader 0x00000102#32 ∧ IllegalHeader 0x00000201#32 ∧ IllegalHeader 0x80000001#32 := by
  unfold IllegalHeader; decide

/-! ### Witnesses: issue and step -/

/-- The three ways a command starts: the host waits; it does not and the command faults; it does not and none. -/
theorem test_witness_command_starts :
    decode [3#32] = .ok (.pmin, []) ∧
      ((((hostDoes [⟨.present [3#32], false⟩]).setPort []).keepWords []).setBusy true).nextHasty = false ∧
      ((((hostDoes []).setPort [⟨.crRead 0, true⟩]).keepWords []).setBusy true).nextHasty = true ∧
      faulted (exec .pmin ((((hostDoes []).setPort [⟨.crRead 0, true⟩]).keepWords []).setBusy true)) = false ∧
      faulted (exec (.init 0x7FC00000#32 ⟨0#32, 0#32, 0#32⟩ none)
        ((((hostDoes []).setPort [⟨.crRead 0, true⟩]).keepWords []).setBusy true)) = true :=
  ⟨rfl, rfl, rfl, rfl, rfl⟩

theorem test_witness_in_flight :
    (flying .pmin []).status.ready = true ∧ (flying .pmin []).env.inFlight = some .pmin ∧
      (flying .pmin []).nextHasty = false := ⟨rfl, rfl, rfl⟩

theorem test_witness_busy_seen :
    Idle (hostDoes [⟨.present (encode .pmax), false⟩, ⟨.crRead 0, true⟩]) ∧ Instr.WellFormed .pmax ∧
      ((hostDoes []).setPort []).nextHasty = false ∧
      ∃ u, exec .pmax ((((hostDoes []).setPort []).setBusy true).setBuffer (bufferOf .pmax)) = .next u ∧ u.status.fault = .none :=
  ⟨idle_hostDoes _, rfl, rfl, _, rfl, rfl⟩

theorem test_witness_nothing :
    State.reset.status.ready = true ∧ State.reset.env.inFlight = none ∧ State.reset.env.port = [] := ⟨rfl, rfl, rfl⟩

theorem test_witness_faulted :
    afterFault.status.ready = true ∧ afterFault.status.fault ≠ .none ∧ afterFault.env.inFlight = none ∧
      (afterFault.setPort [⟨.present [3#32], false⟩]).env.port = [⟨.present [3#32], false⟩] :=
  ⟨rfl, by decide, rfl, rfl⟩

theorem test_witness_illegal_presented :
    Idle (hostDoes [⟨.present [0#32], false⟩]) ∧ (hostDoes [⟨.present [0#32], false⟩]).env.port = [⟨.present [0#32], false⟩] :=
  ⟨idle_hostDoes _, rfl⟩

theorem test_witness_incomplete :
    Idle (hostDoes [⟨.present [5#32], false⟩]) ∧ ¬ IllegalHeader 5#32 ∧ [5#32].length < descriptorLength [5#32] :=
  ⟨idle_hostDoes _, by unfold IllegalHeader; decide, by decide⟩

theorem test_sequenced_flying (i : Instr) (port : List HostEvent) : Sequenced (flying i port) :=
  ⟨fun _ => ⟨rfl, rfl, rfl⟩, fun _ => .inl rfl, fun h => absurd rfl h, fun j h => by cases h; rfl⟩

theorem test_witness_overlap :
    Sequenced (flying (.apply 0xFFFFFFFF#32 1#32 1#32 1#32) [⟨.present [3#32], true⟩]) ∧
      Pixmem.wf (flying (.apply 0xFFFFFFFF#32 1#32 1#32 1#32) [⟨.present [3#32], true⟩]).pixmem = true ∧
      Triangular (flying (.apply 0xFFFFFFFF#32 1#32 1#32 1#32) [⟨.present [3#32], true⟩]) ∧
      (0xFFFFFFFF#32).toNat + (1#32).toNat ≤ 2 ^ 32 :=
  ⟨test_sequenced_flying _ _, rfl, fun i j _ => plutUnwritten_getElem i j, by decide⟩

theorem test_witness_waiting_host :
    Sequenced (hostDoes [⟨.present [3#32], false⟩]) ∧ Waiting (hostDoes [⟨.present [3#32], false⟩]) ∧
      (hostDoes [⟨.present [3#32], false⟩]).status.fault ≠ .overlap ∧
      ∃ t, step (hostDoes [⟨.present [3#32], false⟩]) = .next t :=
  ⟨sequenced_hostDoes _, ⟨rfl, fun e h => by simp [hostDoes] at h; rw [h]⟩, by decide, _, rfl⟩

theorem test_witness_fault_kept :
    Sequenced (afterFault.setPort [⟨.present [3#32], false⟩]) ∧ afterFault.status.fault ≠ .none ∧
      (∀ h events, (afterFault.setPort [⟨.present [3#32], false⟩]).env.port ≠ ⟨.reset, h⟩ :: events) ∧
      ∃ t, step (afterFault.setPort [⟨.present [3#32], false⟩]) = .next t :=
  ⟨⟨fun h => absurd h (by simp [afterFault, State.setBusy, State.setFault, State.reset, Env.reset]),
      fun _ => .inr (by decide), fun _ => ⟨rfl, rfl⟩,
      fun i h => by simp [afterFault, State.setBusy, State.setFault, State.reset, Env.reset] at h⟩,
    by decide, fun h events => by simp, _, rfl⟩

theorem test_witness_precise :
    ∃ t, exec (.init 0x7FC00000#32 ⟨0#32, 0#32, 0#32⟩ none) State.reset = .next t ∧ State.reset.status.fault = .none ∧
      t.status.fault ≠ .none ∧ t.status.fault ≠ .unwritten := ⟨_, rfl, rfl, by decide, by decide⟩

/-- The buffer [4, 6): the words on both sides of each of its ends; in flight, and stopped by a fault. -/
theorem test_witness_buffer :
    (flying (.apply 4#32 2#32 2#32 1#32) [⟨.pixRead 4#32, true⟩]).env.buffer = some (4#32, 2#32) ∧
      (flying (.apply 4#32 2#32 2#32 1#32) [⟨.pixRead 4#32, true⟩]).status.busy = true ∧
      ((afterFault.setBuffer (some (4#32, 2#32))).setPort [⟨.pixWrite 6#32 0#32, false⟩]).env.buffer = some (4#32, 2#32) ∧
      (afterFault.setBuffer (some (4#32, 2#32))).status.busy = true ∧
      (afterFault.setBuffer (some (4#32, 2#32))).env.inFlight = none ∧
      ¬ InBuffer 4#32 2#32 3#32 ∧ InBuffer 4#32 2#32 4#32 ∧ InBuffer 4#32 2#32 5#32 ∧ ¬ InBuffer 4#32 2#32 6#32 := by
  refine ⟨rfl, rfl, rfl, rfl, rfl, ?_⟩
  unfold InBuffer; decide

/-- R137: an APPLY before any INIT faults with BUSY = 1, and a read of a word of its buffer is no move of the host's. -/
theorem test_faulted_apply_keeps_buffer :
    (match step (hostDoes [⟨.present (encode (.apply 4#32 2#32 2#32 1#32)), false⟩, ⟨.pixRead 5#32, false⟩]) with
      | .next t => step t
      | o => o) = .refused .hostInBuffer := by rfl

/-! ### Witnesses: reset, control registers, PIXMEM -/

theorem test_witness_reset_event :
    (hostDoes [⟨.reset, false⟩]).env.port = [⟨.reset, false⟩] ∧ (hostDoes [⟨.reset, false⟩]).active = false ∧
      (flying .pmin [⟨.reset, true⟩]).env.port = [⟨.reset, true⟩] ∧ (resetting []).nextHasty = false ∧
      (∀ base len width height, (flying .pmin []).env.inFlight ≠ some (.apply base len width height)) :=
  ⟨rfl, rfl, rfl, rfl, fun _ _ _ _ h => by simp [flying] at h⟩

theorem test_witness_reset_during_apply :
    Pixmem.wf (flying (.apply 4#32 2#32 2#32 1#32) [⟨.reset, true⟩]).pixmem = true ∧
      (4#32).toNat + (2#32).toNat ≤ 2 ^ 32 ∧
      (flying (.apply 4#32 2#32 2#32 1#32) [⟨.reset, true⟩]).env.inFlight = some (.apply 4#32 2#32 2#32 1#32) :=
  ⟨rfl, by decide, rfl⟩

theorem test_witness_port_closed :
    (resetting [⟨.present [3#32], true⟩]).status.ready = false ∧
      (resetting [⟨.present [3#32], true⟩]).env.port = [⟨.present [3#32], true⟩] := ⟨rfl, rfl⟩

/-- The clauses of a control register read: 0, 1 with RESULT written, 2. -/
theorem test_witness_control_register :
    (hostDoes [⟨.crRead 0, false⟩]).active = false ∧
      ((hostDoes [⟨.crRead 1, false⟩]).withResult (some 5#32)).result = some 5#32 ∧
      ((hostDoes [⟨.crRead 1, false⟩]).withResult (some 5#32)).status.busy = false ∧
      (hostDoes [⟨.crRead 2, false⟩]).env.port = [⟨.crRead 2, false⟩] ∧
      (resetting [⟨.crRead 0, true⟩]).env.port = [⟨.crRead 0, true⟩] := ⟨rfl, rfl, rfl, rfl, rfl⟩

theorem test_witness_write_read :
    (hostDoes [⟨.pixWrite 1#32 7#32, false⟩, ⟨.pixRead 1#32, false⟩]).active = false ∧
      Pixmem.wf (hostDoes [⟨.pixWrite 1#32 7#32, false⟩, ⟨.pixRead 1#32, false⟩]).pixmem = true ∧
      (hostDoes []).status.busy = false ∧ (afterFault.setBuffer (some (4#32, 2#32))).active = false ∧
      (afterFault.setBuffer (some (4#32, 2#32))).status.busy = true ∧ ¬ InBuffer 4#32 2#32 1#32 :=
  ⟨rfl, rfl, rfl, rfl, rfl, by unfold InBuffer; decide⟩

theorem test_witness_pixmem_form :
    Pixmem.wf ((withWords State.reset [(2#32, 7#32), (0xFFFFFFFF#32, 1#32)]).setPort [⟨.pixWrite 2#32 0#32, false⟩]).pixmem = true ∧
      ∃ t, step ((withWords State.reset [(2#32, 7#32), (0xFFFFFFFF#32, 1#32)]).setPort [⟨.pixWrite 2#32 0#32, false⟩]) = .next t :=
  ⟨by decide, _, rfl⟩

theorem test_witness_not_apply :
    (∀ base len width height, Instr.pmin ≠ .apply base len width height) ∧ (∃ t, exec .pmin State.reset = .next t) ∧
      (resetting [⟨.crRead 0, false⟩]).status.ready = false ∧ (resetting [⟨.crRead 0, false⟩]).nextHasty = false ∧
      (∃ t, step (resetting [⟨.crRead 0, false⟩]) = .next t) :=
  ⟨fun _ _ _ _ h => (by cases h), ⟨_, rfl⟩, rfl, rfl, _, rfl⟩

/-! ### Witnesses: invariants -/

theorem gainOfParam_initialised (s : State) : GainOfParam (initialised s) := by
  refine ⟨0x7F800000#32, rfl, fun i => ?_⟩
  simp [initialised, tcLux, f32PosInf]

theorem gainWritten_afterInit : GainWritten afterInit := fun i => by
  simp only [afterInit, initialised, State.setPlutValid_gain, State.setGainValid_gain, State.withGain_gain,
    tabulate_getElem_fin, Option.isSome_some]

theorem plutOfGain_compiled (s : State) (h : GainWritten s) : PlutOfGain (compiled s) := fun i j hij => by
  obtain ⟨g, hg⟩ := Option.isSome_iff_exists.mp (h i)
  exact ⟨g, hg, (plutCompiled_getElem s i j hg).trans (if_pos hij)⟩

theorem coherent_compiled (s : State) (hr : s.status.ready = true) (hv : s.status.gainValid = true) (ht : TablesBuilt s)
    (hp : GainOfParam s) : Coherent (compiled s) :=
  ⟨fun _ => ht, fun _ _ _ => hp,
    fun _ _ _ => ⟨hv, plutOfGain_compiled s fun i => by obtain ⟨_, _, hg⟩ := hp; rw [hg i]; rfl⟩,
    fun h => absurd (hr.symm.trans h) (by simp)⟩

theorem tablesBuilt_initialised (s : State) (h : TablesBuilt s) : TablesBuilt (initialised s) := h

/-- A coherent state with a gain curve and a table. -/
theorem coherent_afterApply : Coherent afterApply :=
  coherent_compiled afterInit rfl rfl (tablesBuilt_initialised State.reset ⟨rfl, rfl⟩) (gainOfParam_initialised State.reset)

theorem plutOfGain_afterApply : PlutOfGain afterApply := plutOfGain_compiled afterInit gainWritten_afterInit

theorem plutWritten_afterApply : PlutWritten afterApply := fun i j h => by
  obtain ⟨g, _, hp⟩ := plutOfGain_afterApply i j h
  rw [hp]; rfl

theorem test_witness_invariants :
    Sequenced afterApply ∧ Coherent afterApply ∧ Triangular afterApply ∧ afterApply.status.fault ≠ .unwritten ∧
      afterApply.status.ready = true ∧ ∃ t, step afterApply = .next t :=
  ⟨⟨fun h => absurd h (by simp [afterApply, compiled, afterInit, initialised, State.reset, Env.reset]),
      fun h => absurd h (by simp [afterApply, compiled, afterInit, initialised, State.setPlutValid, State.setGainValid, State.reset, Status.reset]), fun h => absurd rfl h,
      fun i h => by simp [afterApply, compiled, afterInit, initialised, State.reset, Env.reset] at h⟩,
    coherent_afterApply,
    fun i j h => (plutCompiled_above afterInit 256 h).trans (plutUnwritten_getElem i j),
    by decide, rfl, _, rfl⟩

/-! ### Witnesses: INIT and the tables -/

/-- The infinities and the greatest finite pattern are no NaN patterns; the patterns next to them are. -/
theorem test_witness_parameters :
    ¬ ((0x7F800000#32).toNat / 2 ^ 23 % 256 = 255 ∧ (0x7F800000#32).toNat % 2 ^ 23 ≠ 0) ∧
      ¬ ((0x7F7FFFFF#32).toNat / 2 ^ 23 % 256 = 255 ∧ (0x7F7FFFFF#32).toNat % 2 ^ 23 ≠ 0) ∧
      ((0x7F800001#32).toNat / 2 ^ 23 % 256 = 255 ∧ (0x7F800001#32).toNat % 2 ^ 23 ≠ 0) ∧
      ((0xFFFFFFFF#32).toNat / 2 ^ 23 % 256 = 255 ∧ (0xFFFFFFFF#32).toNat % 2 ^ 23 ≠ 0) := by decide

theorem test_witness_color_info :
    Idle (hostDoes []) ∧ (Instr.init 0#32 ⟨0#32, 0#32, 0#32⟩ none).WellFormed ∧
      (Instr.init 0#32 ⟨1#32, 2#32, 3#32⟩ (some (List.replicate 9 4#32))).WellFormed ∧
      ((hostDoes []).setPort [⟨.crRead 0, false⟩]).nextHasty = false := ⟨idle_hostDoes _, by decide, by decide, rfl⟩

/-- Finite patterns of both kinds of exponent, and the two zeros. -/
theorem test_witness_finite_patterns :
    (0x00000001#32).toNat / 2 ^ 23 % 256 ≠ 255 ∧ (0x00000001#32).toNat / 2 ^ 23 % 256 = 0 ∧
      (0x00800000#32).toNat / 2 ^ 23 % 256 ≠ 0 ∧ (0x80000000#32).toNat / 2 ^ 23 % 256 ≠ 255 ∧
      0x00000001#32 ≠ 0x80000000#32 := by decide

/-- Defined expressions: the lux of a parameter inside the clamp, linear values on both branches of TC.GAIN at it, at its
breakpoint and at full intensity. -/
theorem test_witness_gain_curve :
    (lit 80 1).Defined ∧ 80 ≤ (lit 80 1).val ∧ (lit 80 1).val ≤ 2500 ∧ (lit 2500 1).Defined ∧ (lit 2500 1).val ≤ 2500 ∧
      (lit 80 1).val < (lit 2500 1).val ∧ (lit 8 1000).Defined ∧ (lit 8 1000).val = (lit 80 1).val / 10000 ∧
      (lit 7 1000).val < (lit 80 1).val / 10000 ∧ 0 ≤ (lit 7 1000).val ∧ (lit 7 1000).val ≤ (lit 1 1).val ∧
      (lit 1 1).val = 1 := by
  simp only [val_lit]
  refine ⟨trivial, by norm_num, by norm_num, trivial, by norm_num, by norm_num, trivial, by norm_num, by norm_num,
    by norm_num, by norm_num, by norm_num⟩

/-- Finite patterns in the order of their values (R73 item 4). -/
theorem test_witness_parameter_order :
    (0x00000000#32).toNat / 2 ^ 23 % 256 ≠ 255 ∧ (0x40A00000#32).toNat / 2 ^ 23 % 256 ≠ 255 ∧
      f32Value 0x00000000#32 ≤ f32Value 0x40A00000#32 := by decide +kernel

/-- A value that is no rational, and rationals on both sides of the clamp of GX.DELIN, in order. -/
theorem test_witness_delin :
    (ExactReal.pow (.rat (1 / 2)) (.rat (12 / 5))).Defined ∧ (ExactReal.rat (-1)).Defined ∧ (ExactReal.rat 2).Defined ∧
      (ExactReal.rat (-1)).val ≤ (ExactReal.rat 2).val := by
  refine ⟨⟨trivial, trivial, .inl ?_⟩, trivial, trivial, ?_⟩ <;> simp only [ExactReal.val] <;> norm_num

theorem test_witness_real :
    realLtDecided (gtlEntry Numerics.real 128) (.rat 1) = some true ∧
      realTruncDecided (.mul (.rat 255) (.pow (.rat (1 / 2)) (.rat (5 / 11)))) = some 186 := by decide +kernel

/-- Defined operands of every operation, a base that is 0 among them. -/
theorem test_witness_operands :
    (ExactReal.rat 2).Defined ∧ (ExactReal.rat 2).val ≠ 0 ∧ 0 < (ExactReal.rat 2).val ∧
      (ExactReal.sub (.rat 1) (.rat 1)).Defined ∧ (ExactReal.sub (.rat 1) (.rat 1)).val = 0 := by
  refine ⟨trivial, ?_, ?_, ⟨trivial, trivial⟩, ?_⟩ <;> simp only [ExactReal.val] <;> norm_num

/-- A real that is no rational, and one half way between two patterns. -/
theorem test_witness_encode :
    (ExactReal.log2 (.rat 3)).Defined ∧ |(ExactReal.rat (2 ^ 24 + 1)).val| < 2 ^ 128 - 2 ^ 103 ∧
      (0x4B800000#32).toNat / 2 ^ 23 % 256 ≠ 255 ∧ f32Value 0x4B800000#32 = 2 ^ 24 ∧ f32Value 0x4B800001#32 = 2 ^ 24 + 2 ∧
      f32enc (.rat (2 ^ 24 + 1)) = 0x4B800000#32 := by
  refine ⟨⟨trivial, ?_⟩, ?_, by decide, by decide +kernel, by decide +kernel, by decide +kernel⟩ <;>
    simp only [ExactReal.val] <;> norm_num

/-! ### Witnesses: APPLY -/

/-- The clauses of the checks, each with those before it passed, at their boundaries. -/
theorem test_witness_apply_checks :
    State.reset.status.gainValid = false ∧ afterInit.status.gainValid = true ∧
      ((0xFFFFFFFF#32).toInt < 0 ∨ (0#32).toInt < 0) ∧
      (0 ≤ (65536#32).toInt ∧ (65536#32).toInt * (65536#32).toInt ≠ ((0#32).toNat : ℤ)) ∧
      (0 ≤ (2#32).toInt ∧ 0 ≤ (1#32).toInt ∧ (2#32).toInt * (1#32).toInt = ((2#32).toNat : ℤ) ∧
        2 ^ 32 < (0xFFFFFFFF#32).toNat + (2#32).toNat) := ⟨rfl, rfl, by decide, by decide, by decide⟩

/-- A buffer that ends at the end of the index space, and an empty one. -/
theorem test_witness_accepted :
    Accepted 0xFFFFFFFE#32 2#32 2#32 1#32 afterInit ∧ Accepted 0xFFFFFFFF#32 0#32 0#32 7#32 afterInit ∧
      GainWritten afterInit ∧ Pixmem.wf afterInit.pixmem = true ∧ afterInit.env.cfg.plutCache = .rebuild ∧
      afterInit.status.plutValid = false :=
  ⟨⟨rfl, by decide, by decide, by decide, by decide⟩, ⟨rfl, by decide, by decide, by decide, by decide⟩,
    gainWritten_afterInit, rfl, rfl, rfl⟩

theorem test_witness_cached :
    Accepted 0#32 1#32 1#32 1#32 (afterApply.withPlutCache .cache) ∧ PlutWritten (afterApply.withPlutCache .cache) ∧
      Pixmem.wf (afterApply.withPlutCache .cache).pixmem = true ∧
      (afterApply.withPlutCache .cache).env.cfg.plutCache = .cache ∧
      (afterApply.withPlutCache .cache).status.plutValid = true :=
  ⟨⟨rfl, by decide, by decide, by decide, by decide⟩, plutWritten_afterApply, rfl, rfl, rfl⟩

theorem test_witness_cache_unobservable :
    Coherent afterApply ∧ afterApply.status.ready = true ∧ afterApply.status.fault = .none :=
  ⟨coherent_afterApply, rfl, rfl⟩

/-- Two legal PIXFMT, and entries of PLUT at the pixel's channels. -/
theorem test_witness_remap :
    afterApply.env.cfg.pixfmt.legal = true ∧ ({ posR := 8, posG := 16, posB := 24, posA := 0 } : PixFmt).legal = true ∧
      ∃ r2 g2 b2, afterApply.plut[(200 : Fin 256)][(200 : Fin 256)] = some r2 ∧
        afterApply.plut[(200 : Fin 256)][(100 : Fin 256)] = some g2 ∧
        afterApply.plut[(200 : Fin 256)][(0 : Fin 256)] = some b2 :=
  ⟨by decide, by decide, _, _, _, Option.eq_some_of_isSome (plutWritten_afterApply 200 200 (by decide)),
    Option.eq_some_of_isSome (plutWritten_afterApply 200 100 (by decide)),
    Option.eq_some_of_isSome (plutWritten_afterApply 200 0 (by decide))⟩

/-- Words that differ in the alpha field of the default PIXFMT only. -/
theorem test_witness_alpha :
    ∀ n, n < 32 → (n < 24 ∨ 24 + 8 ≤ n) → (0x12345678#32).getLsbD n = (0xFF345678#32).getLsbD n := by decide

theorem test_witness_reference :
    Reference State.reset ∧ TablesBuilt State.reset ∧ (ExactReal.rat 1).val = 1 ∧ (ExactReal.rat 1).Defined :=
  ⟨⟨rfl, rfl⟩, ⟨rfl, rfl⟩, by simp [ExactReal.val], trivial⟩

theorem test_witness_readings :
    State.reset.env.cfg.numerics = .real ∧ 2500 ≤ (2500#32).toInt ∧ 2500 ≤ (0x7FFFFFFF#32).toInt ∧ (80#32).toInt ≤ 80 ∧
      (0x80000000#32).toInt ≤ 80 := ⟨rfl, by decide, by decide, by decide, by decide⟩

end Sys2Proof.Tests
end

section
/-!
PROOFS of the statements of spec/00_scope.md: a step issues the decoded command, a command in flight runs by its rule, a host
that reads STATUS meanwhile sees BUSY = 1 (R9, R17, R114, R119), and REAL is exact (R6).
-/

namespace Sys2Proof.Machine

/-! ### A descriptor is read back -/

/-- A header that selects a command leaves the operand words to the format (R46, R50). -/
theorem decode_of_headerKind {w : Word} {k : HeaderKind} (h : headerKind w = .ok k) (ws : List Word) :
    decode (w :: ws) = decodeOperands k ws := by simp [decode, h]

/-- R46 to R52: a well-formed command is read back from its descriptor, whatever words follow. -/
theorem decode_encode_append (i : Instr) (rest : List Word) (h : i.WellFormed) :
    decode (encode i ++ rest) = .ok (i, rest) := by
  cases i with
  | init p gains matrix =>
    cases matrix with
    | none => rfl
    | some m =>
      have hm : m.length = 9 := by simpa [Instr.WellFormed, Instr.wellFormed, matrixWellFormed] using h
      refine (decode_of_headerKind (k := .init true) rfl _).trans ?_
      simp [decodeOperands, hm]
  | apply base len width height => rfl
  | pmin => rfl
  | pmax => rfl
  | defp lux => rfl

/-! ### Issue in an idle block -/

/-- An idle block makes no action of the host's wait. -/
theorem mustWait_of_idle {s : State} (hs : Idle s) (e : HostEvent) : mustWait e s = false := by
  obtain ⟨hready, -, -, hflight⟩ := hs
  simp [mustWait, State.active, hready, hflight]

/-- R114: with no fault recorded and BUSY = 0, words that decode to a command start it. -/
theorem issue_of_decode {s : State} {ws rest : List Word} {i : Instr} (hf : s.status.fault = .none)
    (hb : s.status.busy = false) (hd : decode ws = .ok (i, rest)) : issue ws s = startCommand i (s.keepWords rest) := by
  have hne : ws ≠ [] := by
    rintro rfl
    simp [decode] at hd
  simp [issue, hne, hf, hb, hd]

/-- The words presented next to an idle block start the command they decode to. -/
theorem step_of_idle_of_decode {s : State} {ws rest : List Word} {h : Bool} {events : List HostEvent} {i : Instr}
    (hs : Idle s) (hp : s.env.port = ⟨.present ws, h⟩ :: events) (hd : decode ws = .ok (i, rest)) :
    step s = startCommand i ((s.setPort events).keepWords rest) := by
  rw [step_act hp (mustWait_of_idle hs _)]
  obtain ⟨-, hfault, hbusy, -⟩ := hs
  exact issue_of_decode hfault hbusy hd

/-- A command whose host waits, or which raises a fault, runs at once. -/
theorem startCommand_runs {i : Instr} {s : State}
    (h : ((s.setBusy true).setBuffer (bufferOf i)).nextHasty = false ∨
      faulted (exec i ((s.setBusy true).setBuffer (bufferOf i))) = true) :
    startCommand i s = exec i ((s.setBusy true).setBuffer (bufferOf i)) := by
  rcases h with h | h <;> simp [startCommand, h]

/-- A command whose host does not wait, and which raises no fault, is left in flight. -/
theorem startCommand_inFlight {i : Instr} {s : State}
    (hn : ((s.setBusy true).setBuffer (bufferOf i)).nextHasty = true)
    (hf : faulted (exec i ((s.setBusy true).setBuffer (bufferOf i))) = false) :
    startCommand i s = .next (((s.setBusy true).setBuffer (bufferOf i)).setInFlight (some i)) := by
  simp [startCommand, hn, hf]

/-- Settles O6: issue starts the command, which then runs at once or is left in flight. -/
theorem stepRunsDecodedCommand : Obligations.StepRunsDecodedCommand := by
  intro s ws rest h events i hs hp hd t
  rw [step_of_idle_of_decode hs hp hd]
  exact ⟨fun hn => startCommand_runs (.inl hn), fun _ hf => startCommand_runs (.inr hf), startCommand_inFlight⟩

/-! ### The command in flight -/

/-- With no hasty action next, a block with a command in flight goes its own way. -/
theorem step_of_inFlight {s : State} (hfl : s.env.inFlight.isSome = true) (hn : s.nextHasty = false) :
    step s = progress s := by
  cases hp : s.env.port with
  | nil => exact step_nil hp
  | cons e rest =>
    have he : e.hasty = false := by simpa [State.nextHasty, hp] using hn
    exact step_wait hp (by simp [mustWait, State.active, hfl, he])

/-- Settles O7: the host waits, and the sequencer's own step is the command's rule. -/
theorem commandInFlightRuns : Obligations.CommandInFlightRuns := by
  intro s i hr hi hn
  rw [step_of_inFlight (by simp [hi]) hn]
  simp [progress, hr, hi]

/-!
### A command's rule does not look at the host

With the host's side replaced, under the same parameters, each rule does what it did, and the replacement stands after it.
-/

/-- Both ends of a rule, with the host's side of the state replaced. -/
def endWithEnv (e : Env) (r : Except State State) : Except State State :=
  (r.map (·.withEnv e)).mapError (·.withEnv e)

@[simp] theorem endWithEnv_ok (e : Env) (s : State) : endWithEnv e (.ok s) = .ok (s.withEnv e) := rfl

@[simp] theorem endWithEnv_error (e : Env) (s : State) : endWithEnv e (.error s) = .error (s.withEnv e) := rfl

/-- How a command ends does not depend on the host's side. -/
theorem settle_endWithEnv {e : Env} {r : Except State State} {t : State} (h : settle r = .next t) :
    settle (endWithEnv e r) = .next (t.withEnv e) := by
  cases r <;> cases h <;> rfl

section
variable {s : State} {e : Env} (he : e.cfg = s.env.cfg)
include he

theorem num_withEnv : (s.withEnv e).num = s.num := State.num_congr he

theorem pxRemap_withEnv (a : Word) : pxRemap a (s.withEnv e) = endWithEnv e (pxRemap a s) := by
  have hw : remapWord (s.withEnv e) (memRead (s.withEnv e) a) = remapWord s (memRead s a) :=
    remapWord_congr (s := s.withEnv e) (t := s) rfl he _
  unfold pxRemap
  rw [hw]
  cases remapWord s (memRead s a) <;> rfl

theorem tcCompile_withEnv : tcCompile (s.withEnv e) = endWithEnv e (tcCompile s) := by
  have hp : ∀ rows, plutCompiled (s.withEnv e) rows = plutCompiled s rows := by
    intro rows
    simp [plutCompiled, plutEntry, num_withEnv he]
  unfold tcCompile
  simp only [hp, State.withEnv_gain]
  split <;> rfl

theorem compileIfNeeded_withEnv : compileIfNeeded (s.withEnv e) = endWithEnv e (compileIfNeeded s) := by
  unfold compileIfNeeded
  rw [tcCompile_withEnv he, State.withEnv_env, he, State.withEnv_status]
  split <;> rfl

theorem tcGain_withEnv (lux : ExactReal) : tcGain lux (s.withEnv e) = (tcGain lux s).withEnv e := by
  unfold tcGain
  rw [num_withEnv he]
  rfl

theorem execInit_withEnv (p : Word) (gains : Gains) (matrix : Option (List Word)) {t : State}
    (h : execInit p gains matrix s = .next t) : execInit p gains matrix (s.withEnv e) = .next (t.withEnv e) := by
  rw [← settle_endWithEnv h]
  unfold execInit
  rw [num_withEnv he, show (s.withEnv e).withParam (some p) = (s.withParam (some p)).withEnv e from rfl,
    tcGain_withEnv (s := s.withParam (some p)) he]
  split <;> rfl

end

theorem pixelLoop_withEnv {e : Env} (n : Nat) : ∀ {s : State}, e.cfg = s.env.cfg →
    pixelLoop n (s.withEnv e) = endWithEnv e (pixelLoop n s) := by
  induction n with
  | zero => intro s _; rfl
  | succ n ih =>
    intro s he
    unfold pixelLoop
    rw [show nextPixel (s.withEnv e) = nextPixel s from rfl, pxRemap_withEnv he]
    rcases pxRemap_cases (nextPixel s) s with ⟨w, -, h⟩ | ⟨-, h⟩ <;> rw [h]
    · exact ih (s := (memWrite s (nextPixel s) w).setPixIdx _) he
    · rfl

theorem applyBody_withEnv {s : State} {e : Env} (he : e.cfg = s.env.cfg) (base len width height : Word) :
    applyBody base len width height (s.withEnv e) = endWithEnv e (applyBody base len width height s) := by
  have hc := compileIfNeeded_withEnv (s := latchApply base len width height s) he
  unfold applyBody
  rw [show latchApply base len width height (s.withEnv e) = (latchApply base len width height s).withEnv e from rfl, hc]
  rcases compileIfNeeded_cases (latchApply base len width height s) with ⟨h, -⟩ | ⟨-, -, h⟩ | ⟨-, h⟩ <;> rw [h]
  · exact pixelLoop_withEnv _ (s := (latchApply base len width height s).setPixIdx 0) he
  · exact pixelLoop_withEnv _
      (s := (((latchApply base len width height s).withPlut _).setPlutValid true).setPixIdx 0) he
  · rfl

theorem execApply_withEnv {s t : State} {e : Env} (he : e.cfg = s.env.cfg) {base len width height : Word}
    (h : execApply base len width height s = .next t) :
    execApply base len width height (s.withEnv e) = .next (t.withEnv e) := by
  rw [← settle_endWithEnv h]
  unfold execApply
  rw [show applyCheck base len width height (s.withEnv e) = applyCheck base len width height s from rfl,
    applyBody_withEnv he]
  cases applyCheck base len width height s <;> rfl

/-- R9: a command reads of the host's side the parameters only, and leaves that side as it is: replaced before the command, it
stands replaced after it. -/
theorem exec_withEnv {i : Instr} {s t : State} {e : Env} (he : e.cfg = s.env.cfg) (h : exec i s = .next t) :
    exec i (s.withEnv e) = .next (t.withEnv e) := by
  cases i with
  | init p gains matrix => exact execInit_withEnv he p gains matrix h
  | apply base len width height => exact execApply_withEnv he h
  | pmin => cases h; rfl
  | pmax => cases h; rfl
  | defp lux =>
    cases h
    show execDefp lux (s.withEnv e) = _
    rw [execDefp, num_withEnv he]
    rfl

/-- Whether a command raises a fault does not depend on what the host does next. -/
theorem faulted_exec_setPort {i : Instr} {s u : State} (h : exec i s = .next u) (port : List HostEvent) :
    faulted (exec i (s.setPort port)) = (u.status.fault != .none) :=
  congrArg faulted (exec_withEnv (e := { s.env with port := port }) rfl h)

/-! ### A host that reads STATUS while a command is in flight -/

/-- The state `s` with the command `i` in flight and the host reading STATUS in haste before anything else. -/
def statusReadInFlight (i : Instr) (s : State) : State :=
  (s.setPort (⟨.crRead 0, true⟩ :: s.env.port)).setInFlight (some i)

/-- The state `s` with STATUS read, which one free value is counted for. -/
def statusRead (s : State) : State :=
  s.withEnv { s.env with hostData := statusWord s.status, freeCount := s.env.freeCount + 1 }

/-- The host's read takes one step and leaves the command in flight. -/
theorem step_statusReadInFlight (i : Instr) {s : State} (hr : s.status.ready = true) :
    step (statusReadInFlight i s) = .next ((statusRead s).setInFlight (some i)) :=
  step_act (e := ⟨.crRead 0, true⟩) (rest := s.env.port) rfl (by simp [mustWait, statusReadInFlight, hr])

/-- After the read the command runs as it would have run without it, since its rule does not look at the host's side. -/
theorem step_statusRead {i : Instr} {s u : State} (hr : s.status.ready = true) (hfl : s.env.inFlight = none)
    (hn : s.nextHasty = false) (hu : exec i s = .next u) :
    step ((statusRead s).setInFlight (some i)) = .next
      (u.withEnv { u.env with hostData := statusWord s.status, freeCount := s.env.freeCount + 1 }) := by
  have hclear : ((statusRead s).setInFlight (some i)).setInFlight none = statusRead s := by
    simp only [statusRead, State.setInFlight, State.withEnv, ← hfl]
  have henv : u.env = s.env := (exec_frame hu).1
  rw [commandInFlightRuns ((statusRead s).setInFlight (some i)) i hr rfl hn, hclear, henv]
  exact exec_withEnv rfl hu

/-- Settles O8: issue leaves the command in flight, the read shows BUSY = 1, and the rule then runs as it would have run. -/
theorem busySeenInFlight : Obligations.BusySeenInFlight := by
  intro s u i events hs hi hp hn hu hf
  have hd : decode (encode i) = .ok (i, []) := by simpa using decode_encode_append i [] hi
  have hissue : step s = .next
      (statusReadInFlight i (((s.setPort events).setBusy true).setBuffer (bufferOf i))) := by
    rw [step_of_idle_of_decode hs hp hd, State.keepWords_nil]
    exact startCommand_inFlight rfl
      ((faulted_exec_setPort hu (⟨.crRead 0, true⟩ :: events)).trans (by simp [hf]))
  obtain ⟨hready, -, -, hflight⟩ := hs
  exact ⟨_, _, hissue, step_statusReadInFlight i hready, rfl, step_statusRead hready hflight hn hu⟩

/-! ### REAL is exact: what the fast bounds decide -/

/-- The integer part toward zero of a rational is that of the real number it is. -/
theorem truncRat_eq (q : Rat) : truncRat q = truncReal q := by
  unfold truncRat truncReal
  split
  · rename_i h
    have hq : 0 ≤ q.num := Rat.num_nonneg.mpr (by exact_mod_cast h)
    rw [Rat.floor_cast, Rat.floor_def', Int.tdiv_eq_ediv_of_nonneg hq]
  · rename_i h
    have hq : 0 ≤ -q.num := by
      rw [← Rat.num_neg_eq_neg_num, Rat.num_nonneg]
      have : (q : ℝ) ≤ 0 := (not_le.mp h).le
      simpa using this
    calc q.num.tdiv q.den = -((-q.num).tdiv q.den) := by rw [Int.neg_tdiv, neg_neg]
      _ = -(-q.num / q.den) := by rw [Int.tdiv_eq_ediv_of_nonneg hq]
      _ = -⌊-q⌋ := by rw [Rat.floor_def', Rat.num_neg_eq_neg_num, Rat.den_neg_eq_den]
      _ = ⌈(q : ℝ)⌉ := by rw [Int.floor_neg, neg_neg, Rat.ceil_cast]

/-- `trunc` of the real numbers keeps order. -/
theorem truncReal_mono : Monotone truncReal := by
  intro x y hxy
  unfold truncReal
  split <;> split
  · exact Int.floor_mono hxy
  · linarith
  · rename_i hx hy
    exact (Int.ceil_le.mpr (by simpa using (not_le.mp hx).le)).trans (Int.floor_nonneg.mpr hy)
  · exact Int.ceil_mono hxy

/-- The value of a monotone function that is the same at both bounds of a number is its value at the number. -/
theorem Bounds.constant_right {α : Type} [DecidableEq α] [PartialOrder α] {f : Rat → α} {g : ℝ → α} (hg : Monotone g)
    (hfg : ∀ q : Rat, f q = g q) {b : Bounds} {x : ℝ} {v : α} (hb : b.Enclose x) (hv : b.constant f = some v) :
    v = g x := by
  obtain ⟨hlo, hhi⟩ := hb
  unfold Bounds.constant at hv
  split at hv
  · rename_i l h hl hh
    split at hv
    · rename_i heq
      obtain rfl : f l = v := by simpa using hv
      refine le_antisymm ?_ ?_
      · rw [hfg]; exact hg (hlo l hl)
      · rw [heq, hfg]; exact hg (hhi h hh)
    · cases hv
  · cases hv

/-- What the fast bounds decide of a comparison is right. -/
theorem realLtDecided_right {a b : ExactReal} {v : Bool} (h : realLtDecided a b = some v) :
    v = true ↔ a.val < b.val := by
  unfold realLtDecided at h
  split at h
  · rename_i x y
    obtain rfl : decide (x < y) = v := by simpa using h
    simp
  · rw [← sub_neg]
    exact decideAt_right (P := fun v => v = true ↔ (ExactReal.sub a b).val < 0)
      (fun _ _ hb hv => Bounds.negative_right hb hv) _ v h

/-- What the fast bounds decide of an integer part is right. -/
theorem realTruncDecided_right {a : ExactReal} {n : ℤ} (h : realTruncDecided a = some n) : n = truncReal a.val := by
  unfold realTruncDecided at h
  split at h
  · rename_i q
    obtain rfl : truncRat q = n := by simpa using h
    exact truncRat_eq q
  · exact decideAt_right (P := fun n => n = truncReal a.val)
      (fun _ _ => Bounds.constant_right truncReal_mono truncRat_eq) _ _ h

/-! ### REAL is exact: what the search answers -/

/-- A verdict of the search rests on bounds that enclose the number. -/
theorem search_enclose {α : Type} {question : Bounds → Option α} {a : ExactReal} {n : Nat} {v : α}
    (h : search question a n = some v) : ∃ b : Bounds, b.Enclose a.val ∧ question b = some v := by
  obtain ⟨m, -, hm⟩ := search_level h
  exact ⟨_, bounds_enclose (plainBounds_sound m) a, hm⟩

/-- The search answers a question that some level answers. -/
theorem search_isSome_of_level {α : Type} {question : Bounds → Option α} {a : ExactReal}
    (h : ∃ n, (question (ExactReal.bounds (plainBounds n) a)).isSome = true) : (search question a 0).isSome = true := by
  obtain ⟨n, hn⟩ := h
  exact search_isSome n 0 (by rwa [Nat.zero_add])

/-- The search for a sign answers that of the number; it is silent, as for a sign that is not negative, only at 0. -/
theorem search_negative_iff {a : ExactReal} (ha : a.Defined) :
    (search Bounds.negative a 0).getD false = true ↔ a.val < 0 := by
  cases h : search Bounds.negative a 0 with
  | some v =>
    obtain ⟨b, hb, hv⟩ := search_enclose h
    exact Bounds.negative_right hb hv
  | none =>
    have h0 : a.val = 0 := by
      by_contra hne
      have := search_isSome_of_level ((bounds_closeIn ha).negative hne)
      simp [h] at this
    simp [h0]

/-- `lt` of REAL compares the real numbers. -/
theorem realLt_iff {a b : ExactReal} (ha : a.Defined) (hb : b.Defined) : realLt a b = true ↔ a.val < b.val := by
  unfold realLt
  split
  · rename_i v hv
    exact realLtDecided_right hv
  · rw [search_negative_iff (a := .sub a b) ⟨ha, hb⟩]
    exact sub_neg

/-- `le` of REAL compares the real numbers. -/
theorem realLe_iff {a b : ExactReal} (ha : a.Defined) (hb : b.Defined) : realLe a b = true ↔ a.val ≤ b.val := by
  rw [realLe, Bool.not_eq_true', ← Bool.not_eq_true, realLt_iff hb ha, not_lt]

/-- `clamp` of REAL clamps the real number. -/
theorem val_clampBy {v lo hi : ExactReal} (hv : v.Defined) (hlo : lo.Defined) (hhi : hi.Defined) :
    (clampBy realLt v lo hi).val = clampReal v.val lo.val hi.val := by
  simp only [clampBy, clampReal, realLt_iff hv hlo, realLt_iff hhi hv, apply_ite ExactReal.val]

/-- Bounds that lie less than 1 apart leave two integer parts. -/
theorem Bounds.nearInteger_right {b : Bounds} {x : ℝ} {n : ℤ} (hb : b.Enclose x) (hn : b.nearInteger = some n) :
    (n : ℝ) ≤ x ∧ x < n + 2 := by
  obtain ⟨hlo, hhi⟩ := hb
  unfold Bounds.nearInteger at hn
  split at hn
  · rename_i l h hl hh
    split at hn
    · rename_i hgap
      obtain rfl : l.floor = n := by simpa using hn
      have hfl : ((l.floor : ℤ) : ℝ) ≤ l := by exact_mod_cast Int.floor_le l
      have hlf : (l : ℝ) < (l.floor : ℤ) + 1 := by exact_mod_cast Int.lt_floor_add_one l
      have hgap' : (h : ℝ) - l < 1 := by exact_mod_cast hgap
      exact ⟨hfl.trans (hlo l hl), by linarith [hhi h hh]⟩
    · cases hn
  · cases hn

/-- The greatest integer that a number is not below. -/
theorem realFloor_eq {a : ExactReal} (ha : a.Defined) : realFloor a = ⌊a.val⌋ := by
  obtain ⟨n, hn⟩ := Option.isSome_iff_exists.mp (search_isSome_of_level (bounds_closeIn ha).nearInteger)
  obtain ⟨b, hb, hv⟩ := search_enclose hn
  obtain ⟨hle, hlt⟩ := Bounds.nearInteger_right hb hv
  have hiff : realLt a (.rat (n + 1)) = true ↔ a.val < n + 1 := by
    simpa using realLt_iff ha (defined_rat (n + 1))
  unfold realFloor
  rw [hn]
  dsimp only
  split <;> rename_i h <;> rw [hiff] at h <;> symm <;> rw [Int.floor_eq_iff] <;> push_cast
  · exact ⟨hle, h⟩
  · exact ⟨not_lt.mp h, by linarith⟩

/-- `trunc` of REAL is the integer part toward zero. -/
theorem realTrunc_eq {a : ExactReal} (ha : a.Defined) : realTrunc a = truncReal a.val := by
  unfold realTrunc
  split
  · rename_i n hn
    exact realTruncDecided_right hn
  · have hneg : realLt a (.rat 0) = true ↔ a.val < 0 := by simpa using realLt_iff ha (defined_rat 0)
    unfold truncReal
    split <;> rename_i h <;> rw [hneg] at h
    · rw [realFloor_eq (defined_realSub (defined_rat 0) ha), if_neg (not_le.mpr h)]
      simp [Int.floor_neg]
    · rw [realFloor_eq ha, if_pos (not_lt.mp h)]

/-- Settles O46: the comparisons and integer parts by the bounds that close in, the other operations by what they build. -/
theorem realIsExact : Obligations.RealIsExact := by
  refine ⟨fun _ _ _ => realLtDecided_right, fun _ _ => realTruncDecided_right, fun a b ha hb => ?_,
    fun _ _ _ => val_clampBy, fun _ => realTrunc_eq⟩
  refine ⟨realLt_iff ha hb, realLe_iff ha hb, val_realAdd a b, val_realSub a b, val_realMul a b, fun _ => val_realDiv a b,
    fun _ => val_realPow a b, fun h0 hpos => ?_, val_realExp2 a, fun _ => val_realLog2 a⟩
  calc (realPow a b).val = a.val ^ b.val := val_realPow a b
    _ = 0 := by rw [h0, Real.zero_rpow hpos.ne']

end Sys2Proof.Machine
end

section
/-!
PROOFS of the statements of spec/10_state.md: what every step keeps of the state (R11, R12, R15, R16, R17, R24, R27), the reset
event and the values it leaves (R26, R130), control register reads (R17, R57), and the host's own access to PIXMEM (R16).
-/

namespace Sys2Proof.Machine

/-! ### PIXMEM keeps its form -/

/-- Abandoning a command keeps PIXMEM in its canonical form. -/
theorem abandonCommand_pixmem_wf {s : State} (h : Pixmem.wf s.pixmem = true) :
    Pixmem.wf (abandonCommand s).pixmem = true := by
  obtain ⟨-, hwf, -⟩ := abandonCommand_frame s
  exact hwf h

/-- A command keeps PIXMEM in its canonical form. -/
theorem exec_pixmem_wf {i : Instr} {s t : State} (h : exec i s = .next t) (hwf : Pixmem.wf s.pixmem = true) :
    Pixmem.wf t.pixmem = true := by
  obtain ⟨-, -, -, -, hw, -⟩ := exec_frame h
  exact hw hwf

/-- Settles O25: a step leaves PIXMEM alone, writes one word, runs a command or abandons one. -/
theorem stepKeepsPixmemForm : Obligations.StepKeepsPixmemForm := by
  intro s t hwf hst
  cases stepped_of_step hst with
  | resetEnds | stays | crRead | pixRead => exact hwf
  | dropped | illegal | started => simpa using hwf
  | runs i _ _ _ h => exact exec_pixmem_wf h hwf
  | issued i _ ws ws' _ rest _ _ _ _ _ h => exact exec_pixmem_wf h (by simpa using hwf)
  | overlaps => exact abandonCommand_pixmem_wf (by simpa using hwf)
  | resetBegins => exact abandonCommand_pixmem_wf hwf
  | pixWrite a v => exact memWrite_pixmem_wf a v hwf

/-! ### APPLY in a coherent block -/

/-- GAIN of a parameter is wholly written. -/
theorem GainOfParam.written {s : State} (h : GainOfParam s) : GainWritten s := by
  obtain ⟨p, -, hg⟩ := h
  intro i
  rw [hg i]
  rfl

/-- The compile of GAIN is written wherever it is populated. -/
theorem PlutOfGain.written {s : State} (h : PlutOfGain s) : PlutWritten s := by
  intro i j hij
  obtain ⟨g, -, hp⟩ := h i j hij
  rw [hp]
  rfl

/-- R43, R74: where GAIN is written, and PLUT_VALID tells the truth, the table build of APPLY ends with the compile of GAIN
in PLUT and PLUT_VALID = 1, built or found. -/
theorem compileIfNeeded_plutOfGain {s : State} (hg : GainWritten s) (hp : s.status.plutValid = true → PlutOfGain s) :
    ∃ p, compileIfNeeded s = .ok ((s.withPlut p).setPlutValid true) ∧ PlutOfGain (s.withPlut p) := by
  rcases compileIfNeeded_cases s with ⟨h, hv, -⟩ | ⟨-, -, h⟩ | ⟨hn, -⟩
  · refine ⟨s.plut, ?_, hp hv⟩
    rw [h, State.setPlutValid, ← hv]
    rfl
  · refine ⟨_, h, fun i j hij => ?_⟩
    obtain ⟨g, hgi⟩ := Option.isSome_iff_exists.mp (hg i)
    exact ⟨g, hgi, (plutCompiled_getElem s i j hgi).trans (if_pos hij)⟩
  · exact absurd hg hn

/-- R89: with the populated entries of PLUT written the pixel loop runs to its end. -/
theorem pixelLoop_ok (n : Nat) : ∀ {s : State}, PlutWritten s → ∃ t, pixelLoop n s = .ok t := by
  induction n with
  | zero => exact fun {s} _ => ⟨s, rfl⟩
  | succ n ih =>
    intro s hw
    obtain ⟨w, hrw⟩ := Option.isSome_iff_exists.mp (remapWord_isSome hw (memRead s (nextPixel s)))
    have hpx : pxRemap (nextPixel s) s = .ok (memWrite s (nextPixel s) w) := by simp [pxRemap, hrw]
    obtain ⟨t, ht⟩ := ih (s := (memWrite s (nextPixel s) w).setPixIdx (s.seq.pixIdx + 1)) hw
    exact ⟨t, by rw [pixelLoop, hpx]; exact ht⟩

/-- An accepted APPLY with GAIN written, and PLUT_VALID telling the truth, runs through: PLUT is the compile of GAIN. -/
theorem execApply_of_accepted {base len width height : Word} {s : State} (ha : Accepted base len width height s)
    (hg : GainWritten s) (hp : s.status.plutValid = true → PlutOfGain s) :
    ∃ p m q, PlutOfGain (s.withPlut p) ∧ execApply base len width height s =
      .next { s with plut := p, pixmem := m, seq := q, status := { s.status with plutValid := true, busy := false } } := by
  obtain ⟨p, hc, hpg⟩ := compileIfNeeded_plutOfGain (s := latchApply base len width height s) hg hp
  obtain ⟨t, ht⟩ := pixelLoop_ok (pixelCount width height).toNat
    (s := (((latchApply base len width height s).withPlut p).setPlutValid true).setPixIdx 0) hpg.written
  obtain ⟨hfr, -⟩ := (pixelLoop_frame _ _).1 t ht
  refine ⟨p, t.pixmem, t.seq, hpg, ?_⟩
  rw [execApply, (applyCheck_none_iff base len width height s).mpr ha]
  dsimp only
  rw [applyBody, hc]
  dsimp only
  rw [ht, settle_ok, hfr]
  rfl

/-- APPLY in a coherent block: F_NOGAIN or F_GEOM and nothing else, or it runs through. -/
theorem execApply_of_coherent (base len width height : Word) {s : State} (hc : Coherent s) (hr : s.status.ready = true)
    (hf : s.status.fault = .none) :
    (∃ c, (c = .noGain ∨ c = .geom) ∧ execApply base len width height s = .next (s.setFault c)) ∨
      s.status.gainValid = true ∧ ∃ p m q, PlutOfGain (s.withPlut p) ∧ execApply base len width height s =
        .next { s with plut := p, pixmem := m, seq := q, status := { s.status with plutValid := true, busy := false } } := by
  obtain ⟨-, hgain, hplut, -⟩ := hc
  cases hck : applyCheck base len width height s with
  | some c => exact .inl ⟨c, applyCheck_some hck, by simp [execApply, hck]⟩
  | none =>
    have ha := (applyCheck_none_iff base len width height s).mp hck
    have hgv : s.status.gainValid = true := ha.1
    exact .inr ⟨hgv, execApply_of_accepted ha (hgain hr hf hgv).written fun hv => (hplut hr hf hv).2⟩

/-! ### Coherence -/

/-- A command is in flight only in a ready, busy block with no fault recorded. -/
theorem Sequenced.of_inFlight {s : State} {i : Instr} (hs : Sequenced s) (hi : s.env.inFlight = some i) :
    s.status.ready = true ∧ s.status.fault = .none ∧ s.status.busy = true := by
  obtain ⟨hflight, -⟩ := hs
  exact hflight (by simp [hi])

/-- R27 item 1: a ready, coherent block has its tables built. -/
theorem Coherent.tablesBuilt {s : State} (hc : Coherent s) (hr : s.status.ready = true) : TablesBuilt s := hc.1 hr

/-- Whether the tables are built is a matter of the tables and the parameters. -/
theorem TablesBuilt.congr {s t : State} (h : TablesBuilt s) (hgtl : t.gtl = s.gtl) (hltg : t.ltg = s.ltg)
    (hcfg : t.env.cfg = s.env.cfg) : TablesBuilt t := by
  simpa only [TablesBuilt, State.num, hgtl, hltg, hcfg] using h

/-- After a fault coherence says of a ready block that the tables are built. -/
theorem coherent_of_fault {s : State} (hr : s.status.ready = true) (hf : s.status.fault ≠ .none) (ht : TablesBuilt s) :
    Coherent s :=
  ⟨fun _ => ht, fun _ h => absurd h hf, fun _ h => absurd h hf, fun h => absurd (hr.symm.trans h) Bool.noConfusion⟩

/-- A ready block whose tables are built is coherent once it records a fault. -/
theorem coherent_setFault {s : State} {c : FaultCode} (hr : s.status.ready = true) (hc : c ≠ .none)
    (ht : TablesBuilt s) : Coherent (s.setFault c) := coherent_of_fault (s := s.setFault c) hr hc ht

/-- F_OVERLAP leaves the tables, and of the rest coherence says nothing then. -/
theorem coherent_overlap {s : State} (hr : s.status.ready = true) (ht : TablesBuilt s) : Coherent (overlap s) := by
  obtain ⟨hgtl, hltg, hready, -, hfault, -, henv, -⟩ := overlap_frame s
  exact coherent_of_fault (hready.trans hr) (by simp [hfault]) (ht.congr hgtl hltg (by rw [henv]))

/-- What stays presented has no part in coherence. -/
theorem Coherent.keepWords {s : State} (h : Coherent s) (ws : List Word) : Coherent (s.keepWords ws) := by
  rw [State.keepWords_eq]
  exact h

/-- The issue of a command has no part in coherence either. -/
theorem Coherent.issued {s : State} (h : Coherent s) (ws : List Word) (b : Option (Word × Word)) :
    Coherent (((s.keepWords ws).setBusy true).setBuffer b) := h.keepWords ws

/-- A block in reset is coherent where GAIN_VALID = 0 and PLUT_VALID = 0. -/
theorem coherent_of_not_ready {s : State} (hr : s.status.ready = false) (hg : s.status.gainValid = false)
    (hp : s.status.plutValid = false) : Coherent s := by
  refine ⟨?_, ?_, ?_, fun _ => ⟨hg, hp⟩⟩ <;> exact fun h => absurd (hr.symm.trans h) Bool.noConfusion

/-- The end of a reset makes a block coherent, as it builds the tables and finds no curve and no pixel table valid. -/
theorem coherent_resetFinish {s : State} (hr : s.status.ready = false) (hc : Coherent s) : Coherent (resetFinish s) := by
  obtain ⟨-, -, -, hclear⟩ := hc
  obtain ⟨hg, hp⟩ := hclear hr
  exact ⟨fun _ => ⟨rfl, rfl⟩, fun _ _ h => absurd (hg.symm.trans h) Bool.noConfusion,
    fun _ _ h => absurd (hp.symm.trans h) Bool.noConfusion, fun h => Bool.noConfusion h⟩

/-- R27: a command that runs in a ready block with no fault recorded keeps it coherent. -/
theorem exec_coherent {i : Instr} {s t : State} (hc : Coherent s) (hr : s.status.ready = true)
    (hf : s.status.fault = .none) (h : exec i s = .next t) : Coherent t := by
  obtain ⟨htab, hgain, -, -⟩ := id hc
  have hready : s.status.ready ≠ false := by simp [hr]
  cases i with
  | init p gains matrix =>
    rcases execInit_cases p gains matrix s with ⟨-, he⟩ | ⟨-, u, he, hp, hg, hst, hu⟩ <;> cases he.symm.trans h
    · exact coherent_setFault hr (by simp) (htab hr)
    · rw [hu, hst]
      exact ⟨htab, fun _ _ _ => ⟨p, hp, hg⟩, fun _ _ h => Bool.noConfusion h, fun h => absurd h hready⟩
  | apply base len width height =>
    rcases execApply_of_coherent base len width height hc hr hf with ⟨c, hcode, he⟩ | ⟨hgv, p, m, q, hpg, he⟩ <;>
      cases he.symm.trans h
    · exact coherent_setFault hr (by rcases hcode with rfl | rfl <;> simp) (htab hr)
    · exact ⟨htab, hgain, fun _ _ _ => ⟨hgv, hpg⟩, fun h => absurd h hready⟩
  | pmin | pmax | defp => cases h; exact hc

/-- Settles O28: a command keeps coherence, a fault of the port leaves the tables, a reset clears what it would speak of, and
the rest does not touch it. -/
theorem stepKeepsCoherence : Obligations.StepKeepsCoherence := by
  intro s t hs hc hst
  cases stepped_of_step hst with
  | resetEnds hr => exact coherent_resetFinish hr hc
  | runs i _ hr hi h =>
    obtain ⟨-, hf, -⟩ := hs.of_inFlight hi
    exact exec_coherent (s := s.setInFlight none) hc hr hf h
  | stays | crRead | pixRead | pixWrite => exact hc
  | dropped ws _ rest => exact Coherent.keepWords (s := s.setPort rest) hc _
  | started i ws ws' _ rest => exact Coherent.issued (s := s.setPort rest) hc ws' (bufferOf i)
  | issued i _ ws ws' _ rest _ _ hr hf _ h =>
    exact exec_coherent (Coherent.issued (s := s.setPort rest) hc ws' _) (by simpa using hr) (by simpa using hf) h
  | illegal ws _ rest _ hr =>
    exact coherent_setFault (by simpa using hr) (by simp) ((hc.tablesBuilt hr).congr (by simp) (by simp) (by simp))
  | overlaps ws _ rest _ _ hr =>
    exact coherent_overlap (by simpa using hr) ((hc.tablesBuilt hr).congr (by simp) (by simp) (by simp))
  | resetBegins => exact coherent_of_not_ready rfl rfl rfl

/-! ### F_UNWRITTEN -/

/-- R24: a command that runs in a coherent, ready block with no fault recorded reads nothing unwritten. -/
theorem exec_fault_ne_unwritten {i : Instr} {s t : State} (hc : Coherent s) (hr : s.status.ready = true)
    (hf : s.status.fault = .none) (h : exec i s = .next t) : t.status.fault ≠ .unwritten := by
  cases i with
  | init p gains matrix =>
    rcases execInit_cases p gains matrix s with ⟨-, he⟩ | ⟨-, u, he, -, -, hst, -⟩ <;> cases he.symm.trans h
    · simp
    · simp [hst, hf]
  | apply base len width height =>
    rcases execApply_of_coherent base len width height hc hr hf with ⟨c, hcode, he⟩ | ⟨-, p, m, q, -, he⟩ <;>
      cases he.symm.trans h
    · rcases hcode with rfl | rfl <;> simp
    · simp [hf]
  | pmin | pmax | defp => cases h; simp [writeResult, hf]

/-- Settles O31: commands record no F_UNWRITTEN in a coherent block, the port records F_OVERLAP and F_ILLEGAL only, and
otherwise the fault recorded stays or is cleared. -/
theorem noUnwrittenRead : Obligations.NoUnwrittenRead := by
  intro s t hs hc hu hst
  cases stepped_of_step hst with
  | resetEnds | stays | crRead | pixRead | pixWrite => exact hu
  | dropped | started => simpa using hu
  | runs i _ hr hi h =>
    obtain ⟨-, hf, -⟩ := hs.of_inFlight hi
    exact exec_fault_ne_unwritten (s := s.setInFlight none) hc hr hf h
  | issued i _ ws ws' _ rest _ _ hr hf _ h =>
    exact exec_fault_ne_unwritten (Coherent.issued (s := s.setPort rest) hc ws' _) (by simpa using hr)
      (by simpa using hf) h
  | overlaps | illegal | resetBegins => exact FaultCode.noConfusion

/-! ### What else a step keeps -/

/-- With no command in flight a block is sequenced where BUSY = 1 tells of a recorded fault, and only of that. -/
theorem sequenced_of_no_flight {s : State} (hi : s.env.inFlight = none) (hb : s.status.busy = true → s.status.fault ≠ .none)
    (hf : s.status.fault ≠ .none → s.status.ready = true ∧ s.status.busy = true) : Sequenced s :=
  ⟨fun h => by simp [hi] at h, fun h => .inr (hb h), hf, fun i h => by simp [hi] at h⟩

/-- R119: with BUSY = 0 no command is in flight. -/
theorem Sequenced.inFlight_of_not_busy {s : State} (hs : Sequenced s) (hb : s.status.busy = false) :
    s.env.inFlight = none := by
  by_contra h
  obtain ⟨i, hi⟩ := Option.ne_none_iff_exists'.mp h
  obtain ⟨-, -, hbusy⟩ := hs.of_inFlight hi
  exact absurd (hb.symm.trans hbusy) Bool.noConfusion

/-- A block in reset has no fault recorded, nothing in flight and BUSY = 0. -/
theorem Sequenced.of_not_ready {s : State} (hs : Sequenced s) (hr : s.status.ready = false) :
    s.status.fault = .none ∧ s.env.inFlight = none ∧ s.status.busy = false := by
  obtain ⟨-, hbusy, hfault, -⟩ := id hs
  have hf : s.status.fault = .none := by simpa [hr] using hfault
  have hi : s.env.inFlight = none := by
    by_contra h
    obtain ⟨i, hi⟩ := Option.ne_none_iff_exists'.mp h
    exact absurd (hr.symm.trans (hs.of_inFlight hi).1) Bool.noConfusion
  exact ⟨hf, hi, by simpa [hf, hi] using hbusy⟩

/-- R113, R119: a command ends with BUSY = 0, or with a fault of its own and BUSY = 1. -/
theorem exec_sequenced {i : Instr} {s t : State} (hr : s.status.ready = true) (hf : s.status.fault = .none)
    (hb : s.status.busy = true) (hi : s.env.inFlight = none) (h : exec i s = .next t) : Sequenced t := by
  obtain ⟨henv, -, -, hready, -, -, hend⟩ := exec_frame h
  rcases hend with ⟨hfault, hbusy⟩ | ⟨hfault, -, hbusy⟩
  · exact sequenced_of_no_flight (henv ▸ hi) (by simp [hbusy]) (by simp [hfault, hf])
  · exact sequenced_of_no_flight (henv ▸ hi) (fun _ => hfault) fun _ => ⟨hready.trans hr, hbusy.trans hb⟩

/-- Settles O29: a command in flight ends or is abandoned, an idle block starts one or records a fault, and the rest changes
neither BUSY nor FAULT, but for a reset, which clears both. -/
theorem stepKeepsSequencing : Obligations.StepKeepsSequencing := by
  intro s t hs hst
  cases stepped_of_step hst with
  | resetEnds hr =>
    obtain ⟨hf, hi, hb⟩ := hs.of_not_ready hr
    exact sequenced_of_no_flight hi (fun h => by simp [resetFinish_eq, hb] at h) fun h => absurd hf h
  | stays | crRead | pixRead | pixWrite => exact hs
  | dropped => rw [State.keepWords_eq]; exact hs
  | runs i _ hr hi h =>
    obtain ⟨-, hf, hb⟩ := hs.of_inFlight hi
    exact exec_sequenced (s := s.setInFlight none) hr hf hb rfl h
  | issued i _ ws ws' _ rest _ _ hr hf hb h =>
    have hi := hs.inFlight_of_not_busy hb
    exact exec_sequenced (by simpa using hr) (by simpa using hf) (by simp) (by simpa using hi) h
  | started i ws ws' _ rest _ _ hr hf =>
    exact ⟨by simp [hr, hf], by simp, by simp [hf], by simp⟩
  | overlaps ws _ rest _ _ hr _ hb =>
    obtain ⟨-, -, hready, hbusy, hfault, -, henv, -⟩ :=
      overlap_frame ((s.setPort rest).keepWords (ws.drop (descriptorLength ws)))
    exact sequenced_of_no_flight (by simp [henv]) (by simp [hfault]) fun _ => ⟨by simp [hready, hr], by simp [hbusy, hb]⟩
  | illegal _ _ _ _ hr _ hb =>
    have hi := hs.inFlight_of_not_busy hb
    exact sequenced_of_no_flight (by simpa using hi) (by simp) (by simp [hr])
  | resetBegins => exact sequenced_of_no_flight rfl (fun h => Bool.noConfusion h) fun h => absurd rfl h

/-- A table that is as it was above the diagonal holds nothing there if it held nothing. -/
theorem Triangular.congr {s t : State} (hs : Triangular s) (h : ∀ i j : Fin 256, i < j → t.plut[i][j] = s.plut[i][j]) :
    Triangular t := fun i j hij => (h i j hij).trans (hs i j hij)

/-- Settles O30: commands and F_OVERLAP leave the entries above the diagonal, a reset un-writes all of them. -/
theorem stepKeepsTriangle : Obligations.StepKeepsTriangle := by
  intro s t hs hst
  cases stepped_of_step hst with
  | resetEnds | stays | crRead | pixRead | pixWrite => exact hs
  | dropped | illegal | started => exact hs.congr (by simp)
  | runs i _ _ _ h =>
    obtain ⟨-, -, -, -, -, hplut, -⟩ := exec_frame h
    exact hs.congr hplut
  | issued i _ _ _ _ _ _ _ _ _ _ h =>
    obtain ⟨-, -, -, -, -, hplut, -⟩ := exec_frame h
    exact hs.congr (by simpa using hplut)
  | overlaps ws _ rest =>
    obtain ⟨-, -, -, -, -, -, -, hplut⟩ := overlap_frame ((s.setPort rest).keepWords (ws.drop (descriptorLength ws)))
    exact hs.congr (by simpa using hplut)
  | resetBegins => exact fun i j _ => plutUnwritten_getElem i j

/-- Settles O32: only the end of a reset writes the tables, and then READY = 0; nothing writes a parameter. -/
theorem tablesAreConstants : Obligations.TablesAreConstants := by
  intro s t hst
  cases stepped_of_step hst with
  | resetEnds hr => exact ⟨fun h => absurd (hr.symm.trans h) Bool.noConfusion, rfl⟩
  | stays | crRead | pixRead | pixWrite => exact ⟨fun _ => ⟨rfl, rfl⟩, rfl⟩
  | dropped | illegal | started => simp
  | runs i _ _ _ h =>
    obtain ⟨henv, hgtl, hltg, -⟩ := exec_frame h
    exact ⟨fun _ => ⟨hgtl, hltg⟩, by rw [henv]; rfl⟩
  | issued i _ _ _ _ _ _ _ _ _ _ h =>
    obtain ⟨henv, hgtl, hltg, -⟩ := exec_frame h
    simp [henv, hgtl, hltg]
  | overlaps ws _ rest =>
    obtain ⟨hgtl, hltg, -, -, -, -, henv, -⟩ := overlap_frame ((s.setPort rest).keepWords (ws.drop (descriptorLength ws)))
    simp [henv, hgtl, hltg]
  | resetBegins =>
    rw [resetBegin_abandon]
    exact ⟨fun _ => ⟨rfl, rfl⟩, rfl⟩

/-! ### The reset event -/

/-- With no hasty action next, a block in which a reset or a command is in progress goes its own way. -/
theorem step_of_active {s : State} (ha : s.active = true) (hn : s.nextHasty = false) : step s = progress s := by
  cases hp : s.env.port with
  | nil => exact step_nil hp
  | cons e rest =>
    have he : e.hasty = false := by simpa [State.nextHasty, hp] using hn
    exact step_wait hp (by simp [mustWait, ha, he])

/-- R130: with no hasty action next, a reset in progress ends. -/
theorem step_of_not_ready {s : State} (hr : s.status.ready = false) (hn : s.nextHasty = false) :
    step s = .next (resetFinish s) := by
  rw [step_of_active (by simp [State.active, hr]) hn, progress, if_pos hr]

/-- An action other than a presentation waits only where the host does and something is in progress. -/
theorem mustWait_of_due {s : State} {act : HostAction} {h : Bool} (hpr : act.presents = false)
    (hdue : h = true ∨ s.active = false) : mustWait ⟨act, h⟩ s = false := by
  rcases hdue with rfl | ha
  · simp [mustWait, hpr]
  · simp [mustWait, hpr, ha]

/-- Abandoning a command other than an APPLY touches no word of PIXMEM. -/
theorem abandonCommand_pixmem {s : State}
    (h : ∀ base len width height, s.env.inFlight ≠ some (.apply base len width height)) :
    (abandonCommand s).pixmem = s.pixmem := by
  obtain ⟨-, -, hkeep⟩ := abandonCommand_frame s
  exact (hkeep h).1

/-- The end of a reset leaves the tables built. -/
theorem tablesBuilt_resetFinish (s : State) : TablesBuilt (resetFinish s) := ⟨rfl, rfl⟩

/-- STATUS with every field 0 is the word 0. -/
theorem statusWord_clear :
    statusWord { ready := false, gainValid := false, plutValid := false, busy := false, fault := .none } = 0x00000000#32 := by
  decide

/-- STATUS as a reset leaves it is the word 1 (R26). -/
theorem statusWord_reset : statusWord Status.reset = 0x00000001#32 := by decide

/-- Settles O19: the first step clears and un-writes, the second builds the tables and sets READY. -/
theorem resetEvent : Obligations.ResetEvent := by
  intro s h events hp hdue
  have hstep : step s = .next (resetBegin (abandonCommand (s.setPort events))).nextFree :=
    step_act hp (mustWait_of_due rfl hdue)
  rw [resetBegin_abandon] at hstep
  refine ⟨_, hstep, statusWord_clear, rfl, rfl, gainUnwritten_getElem, plutUnwritten_getElem, rfl, rfl, rfl,
    fun hno => abandonCommand_pixmem (s := s.setPort events) hno, fun hn => ?_⟩
  refine ⟨_, step_of_not_ready rfl hn, statusWord_reset, tablesBuilt_resetFinish _, ?_⟩
  rw [resetFinish_eq]

/-- Settles O18: each field as reset leaves it, the tables entry by entry. -/
theorem resetValues : Obligations.ResetValues :=
  ⟨statusWord_reset, rfl, rfl, gainUnwritten_getElem, plutUnwritten_getElem, buildGtl_getElem _, buildLtg_getElem _ _, rfl⟩

/-- Right after reset the tables are built, and there is no gain curve or pixel table to speak of. -/
theorem coherent_reset : Coherent State.reset :=
  ⟨fun _ => ⟨rfl, rfl⟩, fun _ _ h => Bool.noConfusion h, fun _ _ h => Bool.noConfusion h, fun h => Bool.noConfusion h⟩

/-- Settles O27: reset sets one bit of STATUS, READY, and leaves nothing written, in flight or presented. -/
theorem resetMeetsInvariants : Obligations.ResetMeetsInvariants :=
  ⟨coherent_reset, sequenced_of_no_flight rfl (fun h => Bool.noConfusion h) fun h => absurd rfl h,
    fun i j _ => plutUnwritten_getElem i j, ⟨rfl, by simp [State.reset, Env.reset]⟩, State.reset_pixmem_wf⟩

/-! ### Control registers -/

/-- Settles O22: the step is the read, which changes what the host last read and the count of free values. -/
theorem controlRegisterReads : Obligations.ControlRegisterReads := by
  intro s n h events hp hdue
  refine ⟨_, step_act hp (mustWait_of_due rfl hdue), rfl, rfl, rfl, rfl, rfl, ?_, ?_, ?_⟩
  · rintro rfl
    rfl
  · rintro w rfl hb hw
    simp [crValue, hb, hw]
  · intro hn
    obtain ⟨m, rfl⟩ := Nat.exists_eq_add_of_le' hn
    rfl

/-- Above bit 3 the word is the fault code and zeros. -/
theorem statusWord_extractLsb' (t : Status) {start : Nat} (len : Nat) (h : 4 ≤ start) :
    (statusWord t).extractLsb' start len = (0#24 ++ t.fault.code).extractLsb' (start - 4) len := by
  simp (disch := omega) only [statusWord, BitVec.extractLsb'_append_eq_of_le, Nat.sub_sub]

/-- Settles O23: each flag is one bit in the order they are put together, the code and the zeros stand above them. -/
theorem statusLayout : Obligations.StatusLayout := by
  refine ⟨fun t => ⟨?_, ?_, ?_, ?_, ?code, ?zeros⟩, rfl, rfl, rfl, rfl, rfl, rfl, rfl⟩
  case code =>
    rw [statusWord_extractLsb' t 4 le_rfl]
    exact BitVec.extractLsb'_append_eq_right
  case zeros =>
    rw [statusWord_extractLsb' t 24 (by decide)]
    exact BitVec.extractLsb'_append_eq_left
  all_goals
    simp only [statusWord, BitVec.getLsbD_append]
    simp

/-! ### The host's access to PIXMEM -/

/-- A word outside the buffer on record is the host's, and so is every word while BUSY = 0. -/
theorem inBuffer_eq_false {s : State} {a : Word}
    (h : ∀ base len, s.status.busy = true → s.env.buffer = some (base, len) → ¬ InBuffer base len a) :
    inBuffer a s = false := by
  rw [← Bool.not_eq_true, inBuffer_iff]
  rintro ⟨hb, base, len, hbuf, hin⟩
  exact h base len hb hbuf hin

/-- The host's write of a word that is its own, when it is due. -/
theorem step_pixWrite {s : State} {a v : Word} {h : Bool} {events : List HostEvent}
    (hp : s.env.port = ⟨.pixWrite a v, h⟩ :: events) (hdue : h = true ∨ s.active = false) (ha : inBuffer a s = false) :
    step s = .next (memWrite (s.setPort events) a v) := by
  have hb : ¬ inBuffer a (s.setPort events) = true := Bool.not_eq_true _ ▸ ha
  exact (step_act hp (mustWait_of_due rfl hdue)).trans (if_neg hb)

/-- The host's read of a word that is its own, when it is due. -/
theorem step_pixRead {s : State} {a : Word} {h : Bool} {events : List HostEvent}
    (hp : s.env.port = ⟨.pixRead a, h⟩ :: events) (hdue : h = true ∨ s.active = false) (ha : inBuffer a s = false) :
    step s = .next ((s.setPort events).setHostData (memRead s a)) := by
  have hb : ¬ inBuffer a (s.setPort events) = true := Bool.not_eq_true _ ▸ ha
  exact (step_act hp (mustWait_of_due rfl hdue)).trans (if_neg hb)

/-- R30: a word reads as written, every other word as before. -/
theorem memRead_memWrite {s : State} (hwf : Pixmem.wf s.pixmem = true) (a b v : Word) :
    memRead (memWrite s a v) b = if b = a then v else memRead s b := by
  simp only [memRead, memWrite_eq, State.withPixmem_pixmem, Pixmem.lookup_store v b.toNat hwf, BitVec.toNat_inj]

/-- Settles O24: the write and the read are a step each, and the memory between them is the written one. -/
theorem hostWriteThenRead : Obligations.HostWriteThenRead := by
  intro s a b v events hact hwf hown hp
  have ha : inBuffer a s = false := inBuffer_eq_false fun base len hb hbuf => (hown base len hb hbuf).1
  have hb : inBuffer b s = false := inBuffer_eq_false fun base len hb hbuf => (hown base len hb hbuf).2
  exact ⟨_, _, step_pixWrite hp (.inr hact) ha, step_pixRead (a := b) (events := events) rfl (.inr hact) hb,
    memRead_memWrite (s := s.setPort _) hwf a b v⟩

/-! ### colorInfo -/

/-- INIT presented to an idle block, in terms of its parameter alone. -/
theorem step_present_init {s : State} {p : Word} {gains : Gains} {matrix : Option (List Word)} {events : List HostEvent}
    (hs : Idle s) (hw : (Instr.init p gains matrix).WellFormed) (hn : (s.setPort events).nextHasty = false) :
    step (s.setPort (⟨.present (encode (.init p gains matrix)), false⟩ :: events)) =
      execInit p ⟨0#32, 0#32, 0#32⟩ none (((s.setPort events).setBusy true).setBuffer none) := by
  have hd : decode (encode (.init p gains matrix)) = .ok (.init p gains matrix, []) := by
    simpa using decode_encode_append _ [] hw
  rw [step_of_idle_of_decode (s := s.setPort (_ :: events)) hs rfl hd, State.keepWords_nil]
  exact startCommand_runs (.inl hn)

/-- Settles O34: INIT presented with either colorInfo is INIT with none. -/
theorem colorInfoIgnored : Obligations.ColorInfoIgnored := by
  intro s p gains gains' matrix matrix' events hs hw hw' hn
  rw [step_present_init hs hw hn, step_present_init hs hw' hn]

end Sys2Proof.Machine
end

section
/-!
PROOFS of the statements of spec/20_memory.md: which commands touch PIXMEM (R33), the buffer that is not the host's while
BUSY = 1 (R38, R137), and the table cache of APPLY (R43, R94).
-/

namespace Sys2Proof.Machine

/-! ### Who touches PIXMEM -/

/-- R33: no command but APPLY touches PIXMEM. -/
theorem exec_pixmem {i : Instr} {s t : State} (hi : ∀ base len width height, i ≠ .apply base len width height)
    (h : exec i s = .next t) : t.pixmem = s.pixmem := by
  cases i with
  | init p gains matrix =>
    rcases execInit_cases p gains matrix s with ⟨-, he⟩ | ⟨-, u, he, -, -, -, hu⟩ <;> cases he.symm.trans h
    · exact State.setFault_pixmem s .param
    · rw [hu]
  | apply base len width height => exact absurd rfl (hi base len width height)
  | pmin | pmax | defp => cases h; rfl

/-- The end of a reset leaves PIXMEM alone. -/
@[simp] theorem resetFinish_pixmem (s : State) : (resetFinish s).pixmem = s.pixmem := by
  rw [resetFinish_eq]

/-- Settles O26: each of the four commands has PIXMEM in its frame, and so has the end of a reset. -/
theorem onlyApplyTouchesPixmem : Obligations.OnlyApplyTouchesPixmem := by
  refine ⟨fun i s t hi h => exec_pixmem hi h, fun s t hr hn hst => ?_⟩
  cases (step_of_not_ready hr hn).symm.trans hst
  exact resetFinish_pixmem s

/-! ### The buffer of the command issued last -/

/-- A ready block with no command in flight has nothing in progress. -/
theorem active_eq_false {s : State} (hr : s.status.ready = true) (hi : s.env.inFlight = none) : s.active = false := by
  simp [State.active, hr, hi]

/-- While BUSY = 1 the words that are not the host's are those of the buffer on record. -/
theorem inBuffer_iff_of_busy {s : State} {base len : Word} (hb : s.status.busy = true)
    (hbuf : s.env.buffer = some (base, len)) (a : Word) : inBuffer a s = true ↔ InBuffer base len a := by
  simp [inBuffer_iff, hb, hbuf]

/-- The host's read of a word that is not its own is refused, when it is due. -/
theorem step_pixRead_refused {s : State} {a : Word} {h : Bool} {events : List HostEvent}
    (hp : s.env.port = ⟨.pixRead a, h⟩ :: events) (hdue : h = true ∨ s.active = false) (ha : inBuffer a s = true) :
    step s = .refused .hostInBuffer :=
  (step_act hp (mustWait_of_due rfl hdue)).trans (if_pos (c := inBuffer a (s.setPort events) = true) ha)

/-- The host's write of a word that is not its own is refused, when it is due. -/
theorem step_pixWrite_refused {s : State} {a v : Word} {h : Bool} {events : List HostEvent}
    (hp : s.env.port = ⟨.pixWrite a v, h⟩ :: events) (hdue : h = true ∨ s.active = false) (ha : inBuffer a s = true) :
    step s = .refused .hostInBuffer :=
  (step_act hp (mustWait_of_due rfl hdue)).trans (if_pos (c := inBuffer a (s.setPort events) = true) ha)

/-- Settles O17: the action is due, and BUSY = 1 and the record decide whose word it names. -/
theorem bufferIsTheBlocks : Obligations.BufferIsTheBlocks := by
  intro s base len a v h events hr hb hbuf hdue
  have hdue : h = true ∨ s.active = false := hdue.imp_right (active_eq_false hr)
  have hin : inBuffer a s = true ↔ InBuffer base len a := inBuffer_iff_of_busy hb hbuf a
  have hout (hn : ¬ InBuffer base len a) : inBuffer a s = false := Bool.eq_false_iff.mpr (mt hin.mp hn)
  exact ⟨fun hp => ⟨fun h => step_pixRead_refused hp hdue (hin.mpr h), fun h => step_pixRead hp hdue (hout h)⟩,
    fun hp => ⟨fun h => step_pixWrite_refused hp hdue (hin.mpr h), fun h => step_pixWrite hp hdue (hout h)⟩⟩

/-! ### APPLY and the table it finds -/

/-- R85: an accepted APPLY counts as many pixels as its buffer has words. -/
theorem Accepted.pixelCount_toNat {base len width height : Word} {s : State} (ha : Accepted base len width height s) :
    (pixelCount width height).toNat = len.toNat := by
  obtain ⟨-, -, -, hcount, -⟩ := ha
  simp [pixelCount, signed, hcount]

/-- R43: the table build is skipped where the cache holds a valid table. -/
theorem compileIfNeeded_of_cached {s : State} (hc : s.env.cfg.plutCache = .cache) (hv : s.status.plutValid = true) :
    compileIfNeeded s = .ok s := by
  simp [compileIfNeeded, hc, hv]

/-- R86, R94: the pixel loop over a buffer inside the index space, with PLUT written, remaps each word of the buffer and
changes nothing else but the sequencer registers. -/
theorem pixelLoop_buffer {base len : Word} {s : State} (hbase : s.seq.base = base) (hidx : s.seq.pixIdx = 0)
    (hend : base.toNat + len.toNat ≤ 2 ^ 32) (hp : PlutWritten s) (hwf : Pixmem.wf s.pixmem = true) :
    ∃ t, pixelLoop len.toNat s = .ok t ∧
      (∀ a, InBuffer base len a → some (memRead t a) = remapWord s (memRead s a)) ∧
      (∀ a, ¬ InBuffer base len a → memRead t a = memRead s a) ∧
      t = { s with pixmem := t.pixmem, seq := t.seq } := by
  obtain ⟨t, ht, hwords⟩ := pixelLoop_words len.toNat s hwf (by simpa [hbase, hidx] using hend) (remapWord_isSome hp)
  simp only [hbase, hidx, Nat.add_zero] at hwords
  obtain ⟨hframe, -⟩ := (pixelLoop_frame len.toNat s).1 t ht
  refine ⟨t, ht, fun a ha => ?_, fun a ha => ?_, ?_⟩
  · exact ((if_pos ha).mp (hwords a)).symm
  · exact (if_neg ha).mp (hwords a)
  · rw [hframe]

/-- Settles O49: the checks pass, the build is skipped, and the pixel loop runs over the buffer with the PLUT found. -/
theorem applyWithCachedTable : Obligations.ApplyWithCachedTable := by
  intro base len width height s ha hp hwf hc hv
  obtain ⟨-, -, -, -, hend⟩ := id ha
  obtain ⟨t, ht, hin, hout, hframe⟩ :=
    pixelLoop_buffer (s := (latchApply base len width height s).setPixIdx 0) rfl rfl hend hp hwf
  refine ⟨t.setBusy false, ?_, hin, hout, ?_, ?_⟩
  · simp [exec, execApply, (applyCheck_none_iff base len width height s).mpr ha, applyBody,
      compileIfNeeded_of_cached (s := latchApply base len width height s) hc hv, ha.pixelCount_toNat, ht]
  · rw [hframe]; rfl
  · rw [hframe]; rfl

/-! ### The setting of PLUT_CACHE -/

/-- R43, R74: compiling again the GAIN that PLUT is the compile of changes no entry. -/
theorem PlutOfGain.plutCompiled_eq {s : State} (h : PlutOfGain s) : plutCompiled s 256 = s.plut := by
  ext i hi j hj : 2
  change (plutCompiled s 256)[(⟨i, hi⟩ : Fin 256)][(⟨j, hj⟩ : Fin 256)] = s.plut[(⟨i, hi⟩ : Fin 256)][(⟨j, hj⟩ : Fin 256)]
  rcases le_or_gt (⟨j, hj⟩ : Fin 256) ⟨i, hi⟩ with hji | hij
  · obtain ⟨g, hg, hpl⟩ := h _ _ hji
    rw [plutCompiled_getElem s _ _ hg, if_pos hji, hpl]
  · exact plutCompiled_above s 256 hij

/-- R43: where GAIN is written, and PLUT_VALID tells the truth, the table build ends as TC.COMPILE does, skipped or not. -/
theorem compileIfNeeded_of_truthful {s : State} (hg : GainWritten s) (hp : s.status.plutValid = true → PlutOfGain s) :
    compileIfNeeded s = .ok ((s.withPlut (plutCompiled s 256)).setPlutValid true) := by
  rcases compileIfNeeded_cases s with ⟨h, hv, -⟩ | ⟨-, -, h⟩ | ⟨hn, -⟩
  · rw [h, (hp hv).plutCompiled_eq, State.setPlutValid, State.withPlut_status, ← hv]
    rfl
  · exact h
  · exact absurd hg hn

/-- PX.REMAP does under one setting of PLUT_CACHE what it does under another. -/
theorem pxRemap_withPlutCache (c : PlutCache) {a : Word} {s t : State} (h : pxRemap a s = .ok t) :
    pxRemap a (s.withPlutCache c) = .ok (t.withPlutCache c) := by
  rcases pxRemap_cases a s with ⟨w, hw, hpx⟩ | ⟨-, hpx⟩ <;> cases hpx.symm.trans h
  have hcache : remapWord (s.withPlutCache c) (memRead (s.withPlutCache c) a) = some w := hw
  rw [pxRemap, hcache]
  rfl

/-- The pixel loop runs through under one setting of PLUT_CACHE as under another. -/
theorem pixelLoop_withPlutCache (c : PlutCache) (n : Nat) : ∀ {s t : State}, pixelLoop n s = .ok t →
    pixelLoop n (s.withPlutCache c) = .ok (t.withPlutCache c) := by
  induction n with
  | zero => intro s t h; cases h; rfl
  | succ n ih =>
    intro s t h
    have hnext : nextPixel (s.withPlutCache c) = nextPixel s := rfl
    rw [pixelLoop] at h ⊢
    cases hpx : pxRemap (nextPixel s) s with
    | ok u =>
      rw [hpx] at h
      rw [hnext, pxRemap_withPlutCache c hpx]
      exact ih h
    | error u =>
      rw [hpx] at h
      cases h

/-- R74: the compile of GAIN is what TC.COMPILE leaves in PLUT, where GAIN is written. -/
theorem GainWritten.plutOfGain_plutCompiled {s : State} (hg : GainWritten s) :
    PlutOfGain (s.withPlut (plutCompiled s 256)) := by
  intro i j hji
  obtain ⟨g, hgi⟩ := Option.isSome_iff_exists.mp (hg i)
  exact ⟨g, hgi, (plutCompiled_getElem s i j hgi).trans (if_pos hji)⟩

/-- R43: an accepted APPLY with GAIN written, and PLUT_VALID telling the truth, ends alike under every setting of
PLUT_CACHE. -/
theorem execApply_withPlutCache_of_accepted {base len width height : Word} {s : State}
    (ha : Accepted base len width height s) (hg : GainWritten s) (hp : s.status.plutValid = true → PlutOfGain s) :
    ∃ t : State, ∀ c, execApply base len width height (s.withPlutCache c) = .next (t.withPlutCache c) := by
  obtain ⟨t, ht⟩ := pixelLoop_ok (pixelCount width height).toNat
    (s := (((latchApply base len width height s).withPlut (plutCompiled s 256)).setPlutValid true).setPixIdx 0)
    hg.plutOfGain_plutCompiled.written
  refine ⟨t.setBusy false, fun c => ?_⟩
  have hbuild := compileIfNeeded_of_truthful (s := latchApply base len width height (s.withPlutCache c)) hg hp
  have hloop := pixelLoop_withPlutCache c _ ht
  rw [execApply, (applyCheck_none_iff base len width height (s.withPlutCache c)).mpr ha]
  dsimp only
  rw [applyBody, hbuild]
  exact congrArg settle hloop

/-- R43: from a coherent block APPLY ends alike under every setting of PLUT_CACHE, with a fault or without. -/
theorem execApply_withPlutCache (base len width height : Word) {s : State} (hc : Coherent s)
    (hr : s.status.ready = true) (hf : s.status.fault = .none) :
    ∃ t : State, ∀ c, execApply base len width height (s.withPlutCache c) = .next (t.withPlutCache c) := by
  cases hck : applyCheck base len width height s with
  | some code =>
    refine ⟨s.setFault code, fun c => ?_⟩
    rw [execApply, show applyCheck base len width height (s.withPlutCache c) = some code from hck]
    rfl
  | none =>
    have ha := (applyCheck_none_iff base len width height s).mp hck
    obtain ⟨hgv, -⟩ := id ha
    obtain ⟨-, hgain, hplut, -⟩ := hc
    exact execApply_withPlutCache_of_accepted ha (hgain hr hf hgv).written fun hv => (hplut hr hf hv).2

/-- Settles O50: what APPLY ends in, the setting apart, is one state for all settings. -/
theorem cacheUnobservable : Obligations.CacheUnobservable := by
  intro base len width height s hc hr hf
  obtain ⟨t, ht⟩ := execApply_withPlutCache base len width height hc hr hf
  exact ⟨t, ht .rebuild, ht .cache⟩

end Sys2Proof.Machine
end

section
/-!
PROOFS of the statements of spec/30_encoding.md: decoder and encoder agree, a descriptor's length and the illegal headers
(R46 to R54), what issue does with words that start no command (R114, R116), and binary32 patterns (R52).
-/

namespace Sys2Proof

/-! ### The kinds of descriptor -/

/-- The header that selects a kind of descriptor (R50). -/
def HeaderKind.word : HeaderKind → Word
  | .init false => 0x00000001#32
  | .init true => 0x00000101#32
  | .apply => 0x00000002#32
  | .pmin => 0x00000003#32
  | .pmax => 0x00000004#32
  | .defp => 0x00000005#32

/-- R50, R53: a kind of descriptor has one header. -/
theorem headerKind_eq_ok_iff (w : Word) (k : HeaderKind) : headerKind w = .ok k ↔ w = k.word := by
  rw [headerKind_ok_iff]
  cases k with
  | init m => cases m <;> simp [HeaderKind.word]
  | apply | pmin | pmax | defp => simp [HeaderKind.word]

@[simp] theorem headerKind_word (k : HeaderKind) : headerKind k.word = .ok k := (headerKind_eq_ok_iff _ k).mpr rfl

/-- R54: a descriptor has 1, 2, 5 or 14 words. -/
theorem HeaderKind.length_mem (k : HeaderKind) : k.length ∈ [1, 2, 5, 14] := by
  cases k with
  | init m => cases m <;> decide
  | apply | pmin | pmax | defp => decide

theorem HeaderKind.length_pos (k : HeaderKind) : 0 < k.length := by
  refine Nat.pos_of_ne_zero fun h => absurd k.length_mem ?_
  simp [h]

/-- R54: the length by the fields OPC and M of the header. -/
theorem HeaderKind.length_eq (k : HeaderKind) :
    k.length =
      if k.word.toNat % 256 = 1 then (if k.word.getLsbD 8 then 5 + 9 else 5)
      else if k.word.toNat % 256 = 2 then 5 else if k.word.toNat % 256 = 5 then 2 else 1 := by
  cases k with
  | init m => cases m <;> rfl
  | apply | pmin | pmax | defp => rfl

end Sys2Proof

namespace Sys2Proof.Machine

/-! ### Headers -/

/-- R53: a header that is not illegal is the header of some kind of descriptor. -/
theorem exists_kindWord_of_legal {w : Word} (h : ¬ IllegalHeader w) : ∃ k : HeaderKind, w = k.word := by
  rw [illegalHeader_iff] at h
  cases hk : headerKind w with
  | ok k => exact ⟨k, (headerKind_eq_ok_iff w k).mp hk⟩
  | error e => exact absurd ⟨e, hk⟩ h

@[simp] theorem decode_kindWord (k : HeaderKind) (ws : List Word) :
    decode (k.word :: ws) = decodeOperands k ws := decode_of_headerKind (headerKind_word k) ws

@[simp] theorem descriptorLength_kindWord (k : HeaderKind) (ws : List Word) :
    descriptorLength (k.word :: ws) = k.length := by
  simp [descriptorLength]

/-- Words that decode begin with the header of some kind of descriptor, and the rest is read as its operands. -/
theorem decode_ok {ws rest : List Word} {i : Instr} (h : decode ws = .ok (i, rest)) :
    ∃ k ops, ws = k.word :: ops ∧ decodeOperands k ops = .ok (i, rest) := by
  cases ws with
  | nil => cases h
  | cons w ops =>
    rw [decode] at h
    split at h
    case h_1 k hk => exact ⟨k, ops, by rw [(headerKind_eq_ok_iff w k).mp hk], h⟩
    case h_2 => cases h

/-! ### Operands -/

/-- R46 to R52: operand words that are read are, with their header, the descriptor of the well-formed command they are
read as, and the words left. -/
theorem encode_of_decodeOperands {k : HeaderKind} {ops rest : List Word} {i : Instr}
    (h : decodeOperands k ops = .ok (i, rest)) : i.WellFormed ∧ k.word :: ops = encode i ++ rest := by
  fun_cases decodeOperands k ops
  case case2 p r g b ws hlen =>
    rw [decodeOperands, if_pos hlen] at h
    cases h
    have htake : (ws.take 9).length = 9 := List.length_take_of_le hlen
    exact ⟨by simp [Instr.WellFormed, Instr.wellFormed, matrixWellFormed, htake],
      by simp [HeaderKind.word, encode, List.take_append_drop]⟩
  case case3 p r g b ws hlen =>
    rw [decodeOperands, if_neg hlen] at h
    cases h
  case case8 =>
    simp [decodeOperands] at h
  all_goals
    cases h
    exact ⟨rfl, rfl⟩

/-- R54: with fewer words than the header tells the descriptor is incomplete. -/
theorem decodeOperands_of_lt {k : HeaderKind} {ops : List Word} (h : ops.length + 1 < k.length) :
    decodeOperands k ops = .error .incomplete := by
  fun_cases decodeOperands k ops
  case case3 | case8 => rfl
  all_goals
    simp only [HeaderKind.length, List.length_cons] at h
    omega

/-- R54: with all the words that the header tells a command is read, and the words after them are left. -/
theorem decodeOperands_of_le : ∀ {k : HeaderKind} {ops : List Word}, k.length ≤ ops.length + 1 →
    ∃ i, decodeOperands k ops = .ok (i, ops.drop (k.length - 1))
  | .init false, _ :: _ :: _ :: _ :: _, _ => ⟨_, rfl⟩
  | .init true, _ :: _ :: _ :: _ :: ws, h => ⟨_, if_pos (by simpa [HeaderKind.length] using h)⟩
  | .apply, _ :: _ :: _ :: _ :: _, _ => ⟨_, rfl⟩
  | .pmin, _, _ => ⟨_, rfl⟩
  | .pmax, _, _ => ⟨_, rfl⟩
  | .defp, _ :: _, _ => ⟨_, rfl⟩

/-- R54: a descriptor that decodes takes as many words as its header tells. -/
theorem descriptorLength_add_of_decode {ws rest : List Word} {i : Instr} (h : decode ws = .ok (i, rest)) :
    descriptorLength ws + rest.length = ws.length := by
  obtain ⟨k, ops, rfl, hops⟩ := decode_ok h
  have hk := k.length_pos
  have hle : k.length ≤ ops.length + 1 := by
    by_contra hlt
    cases (decodeOperands_of_lt (by omega)).symm.trans hops
  obtain ⟨j, hj⟩ := decodeOperands_of_le hle
  cases hj.symm.trans hops
  simp only [descriptorLength_kindWord, List.length_drop, List.length_cons]
  omega

/-! ### Illegal headers -/

/-- R53: an illegal header is refused under a name that says what is wrong with it. -/
theorem decode_of_illegal {w : Word} (h : IllegalHeader w) (ws : List Word) :
    ∃ e, decode (w :: ws) = .error e ∧ e ≠ .incomplete ∧ e ≠ .noHeader := by
  obtain ⟨e, he⟩ := (illegalHeader_iff w).mp h
  exact ⟨e, by simp [decode, he], headerKind_error he⟩

/-- R53: an illegal header is a one-word descriptor. -/
theorem descriptorLength_of_illegal {w : Word} (h : IllegalHeader w) (ws : List Word) :
    descriptorLength (w :: ws) = 1 := by
  obtain ⟨e, he⟩ := (illegalHeader_iff w).mp h
  simp [descriptorLength, he]

/-! ### Issue -/

/-- A ready block with nothing in flight makes no action of the host's wait. -/
theorem mustWait_of_not_active {s : State} (hr : s.status.ready = true) (hi : s.env.inFlight = none) (e : HostEvent) :
    mustWait e s = false := by
  simp [mustWait, active_eq_false hr hi, hr]

/-- Words presented next to a ready block with nothing in flight are issued. -/
theorem step_present {s : State} {ws : List Word} {h : Bool} {events : List HostEvent} (hr : s.status.ready = true)
    (hi : s.env.inFlight = none) (hp : s.env.port = ⟨.present ws, h⟩ :: events) :
    step s = issue ws (s.setPort events) := step_act hp (mustWait_of_not_active hr hi _)

/-- R114, R116: with a fault recorded the descriptor is dropped. -/
theorem issue_of_fault {s : State} {ws : List Word} (hf : s.status.fault ≠ .none) (hws : ws ≠ []) :
    issue ws s = .next (s.keepWords (ws.drop (descriptorLength ws))) := by
  rw [issue, if_neg hws, if_pos hf]

/-- R114: with no fault recorded and BUSY = 0 an illegal header sets BUSY and records F_ILLEGAL. -/
theorem issue_of_illegal {s : State} {w : Word} (hf : s.status.fault = .none) (hb : s.status.busy = false)
    (hw : IllegalHeader w) (ws : List Word) :
    issue (w :: ws) s = .next ((((s.keepWords ws).setBusy true).setBuffer none).setFault .illegal) := by
  obtain ⟨e, he, hne, -⟩ := decode_of_illegal hw ws
  cases e with
  | incomplete => exact absurd rfl hne
  | noHeader | opcode | reservedBits | matrixOutsideInit => simp [issue, hf, hb, he]

/-- With no fault recorded and BUSY = 0 an incomplete descriptor is refused. -/
theorem issue_of_incomplete {s : State} {ws : List Word} (hf : s.status.fault = .none) (hb : s.status.busy = false)
    (hd : decode ws = .error .incomplete) : issue ws s = .refused .descriptorIncomplete := by
  have hws : ws ≠ [] := by
    rintro rfl
    cases hd
  simp [issue, hws, hf, hb, hd]

/-! ### The statements -/

/-- Settles O1: each format is read back, whatever words follow. -/
theorem decodeEncodeAgree : Obligations.DecodeEncodeAgree := decode_encode_append

/-- Settles O2: the header is the one of its kind, and the operand words are the command's own. -/
theorem encodeDecodeAgree : Obligations.EncodeDecodeAgree := by
  intro ws rest i h
  obtain ⟨k, ops, rfl, hops⟩ := decode_ok h
  exact encode_of_decodeOperands hops

/-- Settles O3: a legal header is one of six, an illegal one tells one word, and what `encode` writes is read back whole. -/
theorem lengthFromHeader : Obligations.LengthFromHeader := by
  refine ⟨fun _ _ _ => rfl, fun w ws => ?_, fun w ws hw => ?_, fun i rest hi => ?_⟩
  · by_cases hw : IllegalHeader w
    · simp [descriptorLength_of_illegal hw]
    · obtain ⟨k, rfl⟩ := exists_kindWord_of_legal hw
      rw [descriptorLength_kindWord]
      exact k.length_mem
  · obtain ⟨k, rfl⟩ := exists_kindWord_of_legal hw
    rw [descriptorLength_kindWord]
    exact k.length_eq
  · have hlen := descriptorLength_add_of_decode (decode_encode_append i rest hi)
    rw [List.length_append] at hlen
    omega

/-- Settles O4: illegal is what selects no command; a legal header with its operand words does, and the words after them
are left; issue of an illegal header touches STATUS, the record of the buffer and the queue. -/
theorem illegalHeaders : Obligations.IllegalHeaders := by
  refine ⟨fun w ws hw => ⟨decode_of_illegal hw ws, descriptorLength_of_illegal hw ws⟩, fun w ws hw hlen => ?_,
    fun s w ws h events hs hw hp => ?_⟩
  · obtain ⟨k, rfl⟩ := exists_kindWord_of_legal hw
    rw [descriptorLength_kindWord] at hlen ⊢
    rw [decode_kindWord, List.drop_cons k.length_pos]
    exact decodeOperands_of_le hlen
  · obtain ⟨hready, hfault, hbusy, hflight⟩ := hs
    rw [step_present hready hflight hp, issue_of_illegal (s := s.setPort events) hfault hbusy hw, State.keepWords_eq]
    rfl

/-- Settles O5: each descriptor word by word. -/
theorem specWordsDecode : Obligations.SpecWordsDecode :=
  ⟨rfl, rfl, rfl, rfl, rfl, rfl, rfl, rfl, rfl, rfl, rfl⟩

/-- Settles O10: nothing is in progress, so the words are issued, and the recorded fault drops them. -/
theorem droppedAfterFault : Obligations.DroppedAfterFault := by
  intro s ws h events hr hf hi hws hp
  rw [step_present hr hi hp]
  exact issue_of_fault hf hws

/-- Settles O16: the legal header leaves an incomplete descriptor, which issue refuses. -/
theorem incompleteDescriptorRefused : Obligations.IncompleteDescriptorRefused := by
  intro s w ws h events hs hw hlen hp
  obtain ⟨k, rfl⟩ := exists_kindWord_of_legal hw
  obtain ⟨hready, hfault, hbusy, hflight⟩ := hs
  rw [descriptorLength_kindWord] at hlen
  rw [step_present hready hflight hp]
  exact issue_of_incomplete hfault hbusy ((decode_kindWord k ws).trans (decodeOperands_of_lt hlen))

/-! ### Binary32 patterns are read -/

/-- The exponent field on the pattern's number. -/
theorem f32Exponent_eq (w : Word) : f32Exponent w = w.toNat / 2 ^ 23 % 256 := by
  simp [f32Exponent, BitVec.extractLsb'_toNat, Nat.shiftRight_eq_div_pow]

/-- The fraction field on the pattern's number. -/
theorem f32Fraction_eq (w : Word) : f32Fraction w = w.toNat % 2 ^ 23 := by
  simp [f32Fraction, BitVec.extractLsb'_toNat]

/-- The sign bit on the pattern's number. -/
theorem f32Negative_iff (w : Word) : f32Negative w = true ↔ 2 ^ 31 ≤ w.toNat := by
  have := w.isLt
  rw [f32Negative, BitVec.getLsbD, Nat.testBit_eq_decide_div_mod_eq, decide_eq_true_iff]
  omega

/-- The magnitude as a real number: subnormal where the exponent field is 0. -/
theorem f32Magnitude_real (w : Word) :
    ((f32Magnitude w : ℚ) : ℝ) =
      if f32Exponent w = 0 then (f32Fraction w : ℝ) * 2 ^ (-149 : ℤ)
      else (2 ^ 23 + (f32Fraction w : ℝ)) * 2 ^ ((f32Exponent w : ℤ) - 150) := by
  unfold f32Magnitude
  split <;> push_cast [pow2_eq] <;> norm_num

/-- The value as a real number: the sign bit, then the magnitude. -/
theorem f32Value_real (w : Word) :
    ((f32Value w : ℚ) : ℝ) = (if f32Negative w then -1 else 1) * ((f32Magnitude w : ℚ) : ℝ) := by
  unfold f32Value
  split <;> push_cast <;> ring

/-- The two zeros have the value 0 (R52). -/
theorem f32Value_zero {w : Word} (hw : w = 0x00000000#32 ∨ w = 0x80000000#32) : f32Value w = 0 := by
  have hzero : f32Magnitude w = 0 := by
    rcases hw with rfl | rfl <;> simp [f32Magnitude, f32Exponent, f32Fraction]
  simp [f32Value, hzero]

/-- Settles O35: sign and magnitude, each by its fields. -/
theorem parameterReading : Obligations.ParameterReading := by
  intro p _
  refine ⟨?_, f32Value_zero⟩
  rw [f32Value_real, f32Magnitude_real, f32Exponent_eq, f32Fraction_eq]
  rfl

/-! ### Powers of two -/

theorem pow2_eq_zpow (e : Int) : pow2 e = (2 : ℚ) ^ e := by
  refine Rat.cast_injective (α := ℝ) ?_
  rw [pow2_eq]
  push_cast
  rfl

theorem pow2_add_natCast (e : Int) (n : Nat) : pow2 (e + n) = 2 ^ n * pow2 e := by
  rw [pow2_eq_zpow, pow2_eq_zpow, zpow_add₀ two_ne_zero, zpow_natCast, mul_comm]

theorem pow2_lt_pow2_iff {m n : Int} : pow2 m < pow2 n ↔ m < n := by
  rw [pow2_eq_zpow, pow2_eq_zpow, zpow_lt_zpow_iff_right₀ one_lt_two]

theorem floorLog2_lt_iff {q : ℚ} (hq : 0 < q) {n : Int} : floorLog2 q < n ↔ q < pow2 n := by
  obtain ⟨hlo, hhi⟩ := floorLog2_spec hq
  constructor
  · intro h
    refine hhi.trans_le (le_of_not_gt fun hlt => ?_)
    have := pow2_lt_pow2_iff.mp hlt
    omega
  · exact fun h => pow2_lt_pow2_iff.mp (hlo.trans_lt h)

/-! ### Binary32 patterns are written -/

/-- The magnitude of a finite pattern in units of its quantum: the hidden bit is 1 unless the exponent field is 0. -/
def f32Significand (w : Word) : Nat := if f32Exponent w = 0 then f32Fraction w else 2 ^ 23 + f32Fraction w

/-- The exponent of the quantum of a finite pattern. -/
def f32Quantum (w : Word) : Int := if f32Exponent w = 0 then -149 else f32Exponent w - 150

theorem f32Magnitude_eq (w : Word) : f32Magnitude w = (f32Significand w : ℚ) * pow2 (f32Quantum w) := by
  unfold f32Magnitude f32Significand f32Quantum
  split <;> rfl

/-- The significand of a finite pattern has 24 bits; the topmost is 0 only at the least quantum. -/
theorem f32Significand_bounds (w : Word) :
    f32Significand w < 2 ^ 24 ∧ -149 ≤ f32Quantum w ∧ (f32Quantum w = -149 ∨ 2 ^ 23 ≤ f32Significand w) := by
  unfold f32Significand f32Quantum
  rw [f32Fraction_eq]
  split <;> omega

/-- The magnitude bits of a pattern from its significand and its quantum: the hidden bit counts the exponent up. -/
theorem f32_bits_eq (w : Word) :
    (f32Quantum w + 149).toNat * 2 ^ 23 + f32Significand w = w.toNat % 2 ^ 31 := by
  unfold f32Significand f32Quantum
  rw [f32Fraction_eq, f32Exponent_eq]
  split <;> omega

/-- A natural number is the integer nearest itself. -/
theorem roundHalfEven_natCast (n : Nat) : roundHalfEven (n : ℚ) = n := by
  have hfloor : (n : ℚ).floor = n := mod_cast Rat.floor_intCast (n : ℤ)
  simp [roundHalfEven, hfloor]

/-- A number of at most 24 bits in units of a quantum is encoded as it is. -/
theorem f32MagnitudeBits_of_significand {m : Nat} {q : Int} (h0 : 0 < m) (hm : m < 2 ^ 24) (hq : -149 ≤ q)
    (hn : q = -149 ∨ 2 ^ 23 ≤ m) :
    f32MagnitudeBits (m * pow2 q) = min ((q + 149).toNat * 2 ^ 23 + m) 0x7F800000 := by
  have hpos : (0 : ℚ) < m * pow2 q := mul_pos (by exact_mod_cast h0) (pow2_pos q)
  have hlt : floorLog2 (m * pow2 q) < q + 24 := by
    rw [floorLog2_lt_iff hpos, show q + 24 = q + (24 : ℕ) from rfl, pow2_add_natCast,
      mul_lt_mul_iff_left₀ (pow2_pos q)]
    exact_mod_cast hm
  have hge : floorLog2 (m * pow2 q) < q + 23 → m < 2 ^ 23 := by
    rw [floorLog2_lt_iff hpos, show q + 23 = q + (23 : ℕ) from rfl, pow2_add_natCast,
      mul_lt_mul_iff_left₀ (pow2_pos q)]
    exact fun h => by exact_mod_cast h
  have hmax : max (floorLog2 (m * pow2 q)) (-126) = q + 23 := by omega
  have hdiv : (m : ℚ) * pow2 q / pow2 q = m := mul_div_cancel_right₀ _ (pow2_pos q).ne'
  have hexp : q + 23 + 126 = q + 149 := by ring
  simp only [f32MagnitudeBits, hmax, hexp, add_sub_cancel_right, hdiv, roundHalfEven_natCast]

/-- The magnitude of a finite pattern other than a zero is encoded as its own bits. -/
theorem f32MagnitudeBits_f32Magnitude {w : Word} (hw : f32Exponent w ≠ 255) (h0 : 0 < f32Significand w) :
    f32MagnitudeBits (f32Magnitude w) = w.toNat % 2 ^ 31 := by
  obtain ⟨hlt, hq, hn⟩ := f32Significand_bounds w
  rw [f32Magnitude_eq, f32MagnitudeBits_of_significand h0 hlt hq hn, f32_bits_eq]
  rw [f32Exponent_eq] at hw
  omega

/-- A finite pattern with significand 0 is one of the two zeros. -/
theorem eq_zero_of_f32Significand {w : Word} (h : f32Significand w = 0) : w = 0x00000000#32 ∨ w = 0x80000000#32 := by
  obtain ⟨-, -, hq⟩ := f32Significand_bounds w
  have hbits := f32_bits_eq w
  have hlt := w.isLt
  simp only [← BitVec.toNat_inj, BitVec.toNat_ofNat]
  omega

/-- The nearest pattern to the value of a finite pattern other than -0 is that pattern. -/
theorem f32OfRat_f32Value {w : Word} (hw : f32Exponent w ≠ 255) (hneg : w ≠ 0x80000000#32) :
    f32OfRat (f32Value w) = w := by
  rcases Nat.eq_zero_or_pos (f32Significand w) with h0 | h0
  · obtain rfl := (eq_zero_of_f32Significand h0).resolve_right hneg
    simp [f32OfRat, f32Value_zero]
  have hbits := f32MagnitudeBits_f32Magnitude hw h0
  have hpos : 0 < f32Magnitude w := by
    rw [f32Magnitude_eq]
    exact mul_pos (by exact_mod_cast h0) (pow2_pos _)
  have hlt := w.isLt
  refine BitVec.eq_of_toNat_eq ?_
  by_cases hs : f32Negative w = true
  · have hsign := (f32Negative_iff w).mp hs
    have hval : f32Value w = -f32Magnitude w := if_pos hs
    rw [f32OfRat, hval, if_neg (neg_ne_zero.mpr hpos.ne'), if_pos (neg_neg_of_pos hpos), neg_neg, hbits,
      BitVec.toNat_ofNat]
    omega
  · have hsign := mt (f32Negative_iff w).mpr hs
    have hval : f32Value w = f32Magnitude w := if_neg hs
    rw [f32OfRat, hval, if_neg hpos.ne', if_neg hpos.not_gt, hbits, BitVec.toNat_ofNat]
    omega

/-- The nearest pattern to a rational number is computed. -/
theorem f32enc_rat (q : ℚ) : f32enc (.rat q) = f32OfRat q := rfl

/-- Settles O59: the value is the significand times the quantum, and the encoder finds both again. -/
theorem encodeFiniteBack : Obligations.EncodeFiniteBack := by
  intro w hw hneg
  rw [← f32Exponent_eq] at hw
  rw [f32enc_rat]
  exact f32OfRat_f32Value hw hneg

end Sys2Proof.Machine
end

section
/-!
PROOFS of the statements of spec/40_gamma_expander.md: the entries of GTL and of LTG over the real numbers (R60, R61, R66,
R67), GX.DELIN (R64, R68), and the round trip through both tables (R65).
-/

namespace Sys2Proof.Machine

/-! ### Powers with a rational exponent -/

/-- A power with a rational exponent is compared through powers with natural exponents. -/
theorem le_rpow_div_iff {x y : ℝ} (hx : 0 ≤ x) (hy : 0 ≤ y) (p : ℕ) {q : ℕ} (hq : q ≠ 0) :
    y ≤ x ^ ((p : ℝ) / q) ↔ y ^ q ≤ x ^ p := by
  rw [div_eq_mul_inv, Real.rpow_mul hx, Real.rpow_natCast,
    Real.le_rpow_inv_iff_of_pos hy (pow_nonneg hx p) (by positivity), Real.rpow_natCast]

/-! ### GTL -/

/-- What the two branches of R60 build. -/
theorem gtlCurve_real {g : ExactReal} (hg : g.Defined) :
    gtlCurve Numerics.real g =
      if g.val ≤ 0.04045 then realDiv g (lit 1292 100)
      else realPow (realDiv (realAdd g (lit 55 1000)) (lit 1055 1000)) (lit 24 10) := by
  have hle : realLe g (lit 4045 100000) = true ↔ g.val ≤ 0.04045 := by
    rw [realLe_iff hg (defined_lit _ _), val_lit]
    norm_num
  simp only [gtlCurve, Numerics.real, hle]

/-- R60: the curve stands for the sRGB transfer function. -/
theorem val_gtlCurve {g : ExactReal} (hg : g.Defined) : (gtlCurve Numerics.real g).val = gtlReal g.val := by
  rw [gtlCurve_real hg, gtlReal]
  split
  · rw [val_realDiv, val_lit]; norm_num
  · rw [val_realPow, val_realDiv, val_realAdd, val_lit, val_lit, val_lit]; norm_num

theorem defined_gtlCurve {g : ExactReal} (hg : g.Defined) : (gtlCurve Numerics.real g).Defined := by
  rw [gtlCurve_real hg]
  split
  · exact defined_realDiv hg (defined_lit _ _) (by norm_num)
  · rename_i h
    have hbase : 0 < (realDiv (realAdd g (lit 55 1000)) (lit 1055 1000)).val := by
      rw [val_realDiv, val_realAdd, val_lit, val_lit]
      have : 0 < g.val := by linarith
      positivity
    exact defined_realPow
      (defined_realDiv (defined_realAdd hg (defined_lit _ _)) (defined_lit _ _) (by norm_num)) (defined_lit _ _) (.inl hbase)

/-- The gamma value of an index of GTL is computed. -/
theorem gtlEntry_real (i : ℕ) : gtlEntry Numerics.real i = gtlCurve Numerics.real (.rat (i / 255)) := by
  have h : mkRat 255 1 = 255 := by norm_num
  simp [gtlEntry, Numerics.real, realDiv, lit, h]

theorem val_gtlEntry (i : ℕ) : (gtlEntry Numerics.real i).val = gtlReal (i / 255) := by
  rw [gtlEntry_real, val_gtlCurve (defined_rat _), val_rat]
  push_cast
  rfl

theorem defined_gtlEntry (i : ℕ) : (gtlEntry Numerics.real i).Defined := by
  rw [gtlEntry_real]
  exact defined_gtlCurve (defined_rat _)

/-- Settles O39: each entry is the curve at its gamma value. -/
theorem gtlFormula : Obligations.GtlFormula := by
  intro i
  rw [buildGtl_getElem, val_gtlEntry]

/-- The power branch, for a base that is not negative, through natural powers. -/
theorem le_rpow_gamma_iff {x y : ℝ} (hx : 0 ≤ x) (hy : 0 ≤ y) : y ≤ x ^ (2.4 : ℝ) ↔ y ^ 5 ≤ x ^ 12 := by
  rw [show (2.4 : ℝ) = (12 : ℕ) / (5 : ℕ) by norm_num]
  exact le_rpow_div_iff hx hy 12 (by norm_num)

/-- The sRGB transfer function rises strictly: on each branch, and where the two meet it jumps up. -/
theorem gtlReal_strictMono : StrictMono gtlReal := by
  have hjump : (0.04045 : ℝ) / 12.92 ≤ ((0.04045 + 0.055) / 1.055) ^ (2.4 : ℝ) := by
    rw [le_rpow_gamma_iff (by norm_num) (by norm_num)]
    norm_num
  have hpow : ∀ {g g' : ℝ}, 0.04045 ≤ g → g < g' →
      ((g + 0.055) / 1.055) ^ (2.4 : ℝ) < ((g' + 0.055) / 1.055) ^ (2.4 : ℝ) := fun hg h =>
    Real.rpow_lt_rpow (by positivity) (by gcongr) (by norm_num)
  intro g g' h
  unfold gtlReal
  split <;> split
  · gcongr
  · rename_i hg hg'
    calc g / 12.92 ≤ 0.04045 / 12.92 := by gcongr
      _ ≤ _ := hjump
      _ < _ := hpow le_rfl (not_le.mp hg')
  · linarith
  · rename_i hg _
    exact hpow (not_le.mp hg).le h

@[simp] theorem gtlReal_zero : gtlReal 0 = 0 := by norm_num [gtlReal]

@[simp] theorem gtlReal_one : gtlReal 1 = 1 := by norm_num [gtlReal]

theorem gtlReal_nonneg {g : ℝ} (hg : 0 ≤ g) : 0 ≤ gtlReal g := by
  simpa using gtlReal_strictMono.monotone hg

/-- Settles O40: the curve rises strictly, is 0 at 0 and 1 at 1. -/
theorem gtlIncreasing : Obligations.GtlIncreasing := by
  simp only [Obligations.GtlIncreasing, gtlFormula _]
  refine ⟨fun i j h => gtlReal_strictMono ?_, by simp, by simp, fun i => ⟨gtlReal_nonneg (by positivity), ?_⟩⟩
  · gcongr
    exact h
  · have hi : (i.val : ℝ) / 255 ≤ 1 := by
      rw [div_le_one (by norm_num)]
      exact_mod_cast Nat.le_of_lt_succ i.isLt
    simpa using gtlReal_strictMono.monotone hi

/-! ### LTG -/

/-- The real number of which the entry of LTG at `k` is the integer part (R61). -/
noncomputable def ltgReal (k : ℕ) : ℝ := 255 * ((k : ℝ) / 1024) ^ ((1 : ℝ) / 2.2)

/-- R61's real number is compared through natural numbers. -/
theorem le_ltgReal_iff (v k : ℕ) : (v : ℝ) ≤ ltgReal k ↔ v ^ 11 * 1024 ^ 5 ≤ k ^ 5 * 255 ^ 11 := by
  have hexp : (1 : ℝ) / 2.2 = (5 : ℕ) / (11 : ℕ) := by norm_num
  calc (v : ℝ) ≤ ltgReal k ↔ (v : ℝ) / 255 ≤ ((k : ℝ) / 1024) ^ ((1 : ℝ) / 2.2) := by
        rw [ltgReal, div_le_iff₀' (by norm_num)]
    _ ↔ ((v : ℝ) / 255) ^ 11 ≤ ((k : ℝ) / 1024) ^ 5 := by
        rw [hexp, le_rpow_div_iff (by positivity) (by positivity) 5 (by norm_num)]
    _ ↔ (v : ℝ) ^ 11 * 1024 ^ 5 ≤ (k : ℝ) ^ 5 * 255 ^ 11 := by
        rw [div_pow, div_pow, div_le_div_iff₀ (by norm_num) (by norm_num)]
    _ ↔ v ^ 11 * 1024 ^ 5 ≤ k ^ 5 * 255 ^ 11 := by exact_mod_cast Iff.rfl

/-- An integer from 0 to 255 is stored as it is. -/
theorem toNat_toByte {n : ℤ} (h0 : 0 ≤ n) (h : n ≤ 255) : ((toByte n).toNat : ℤ) = n := by
  rw [toByte, if_pos ⟨h0, h⟩, BitVec.toNat_ofInt]
  omega

theorem floor_ltgReal_mem {k : ℕ} (hk : k ≤ 1024) : 0 ≤ ⌊ltgReal k⌋ ∧ ⌊ltgReal k⌋ ≤ 255 := by
  have hlt : ¬ ((256 : ℕ) : ℝ) ≤ ltgReal k := by
    rw [le_ltgReal_iff, not_le]
    calc k ^ 5 * 255 ^ 11 ≤ 1024 ^ 5 * 255 ^ 11 := by gcongr
      _ < 256 ^ 11 * 1024 ^ 5 := by norm_num
  refine ⟨Int.floor_nonneg.mpr (by unfold ltgReal; positivity), Int.lt_add_one_iff.mp (Int.floor_lt.mpr ?_)⟩
  push_cast at hlt ⊢
  linarith

/-- The expression of which GX.BUILD stores the integer part at `k` (R61). -/
def ltgExpr (k : ℕ) : ExactReal :=
  realMul (lit 255 1) (realPow (realDiv (.rat k) (.rat 1024)) (realDiv (lit 1 1) (lit 22 10)))

theorem ltgEntry_real {k : ℕ} (hk : k ≠ 1024) : ltgEntry Numerics.real 1024 k = toByte (realTrunc (ltgExpr k)) := by
  simp [ltgEntry, gammaSize, hk, Numerics.real, ltgExpr]

theorem val_ltgExpr (k : ℕ) : (ltgExpr k).val = ltgReal k := by
  simp only [ltgExpr, ltgReal, val_realMul, val_realPow, val_realDiv, val_lit, val_rat]
  norm_num

/-- The base of the power is 0 at index 0 only, and the exponent is positive. -/
theorem defined_ltgExpr (k : ℕ) : (ltgExpr k).Defined := by
  refine defined_realMul (defined_lit _ _) (defined_realPow
    (defined_realDiv (defined_rat _) (defined_rat _) (by norm_num))
    (defined_realDiv (defined_lit _ _) (defined_lit _ _) (by norm_num)) ?_)
  simp only [val_realDiv, val_rat, val_lit]
  rcases Nat.eq_zero_or_pos k with rfl | hpos
  · exact .inr (by norm_num)
  · exact .inl (by push_cast; positivity)

/-- R61: the entries of LTG, the last one too, are the integer parts. -/
theorem toNat_ltgEntry {k : ℕ} (hk : k ≤ 1024) : ((ltgEntry Numerics.real 1024 k).toNat : ℤ) = ⌊ltgReal k⌋ := by
  by_cases hlast : k = 1024
  · subst hlast
    norm_num [ltgEntry, gammaSize, ltgReal]
  obtain ⟨h0, h255⟩ := floor_ltgReal_mem hk
  rw [ltgEntry_real hlast, realTrunc_eq (defined_ltgExpr k), val_ltgExpr, truncReal, if_pos (Int.floor_nonneg.mp h0),
    toNat_toByte h0 h255]

/-- Which values an entry of LTG reaches, in natural numbers. -/
theorem le_toNat_ltg_iff (v : ℕ) (k : Fin 1025) :
    v ≤ (buildLtg Numerics.real 1024)[k].toNat ↔ v ^ 11 * 1024 ^ 5 ≤ k.val ^ 5 * 255 ^ 11 := by
  rw [buildLtg_getElem, ← le_ltgReal_iff, ← Int.ofNat_le, toNat_ltgEntry (Nat.le_of_lt_succ k.isLt), Int.le_floor]
  norm_cast

theorem ltg_mono {k k' : Fin 1025} (h : k ≤ k') :
    (buildLtg Numerics.real 1024)[k].toNat ≤ (buildLtg Numerics.real 1024)[k'].toNat := by
  rw [le_toNat_ltg_iff]
  exact ((le_toNat_ltg_iff _ k).mp le_rfl).trans (by gcongr; exact h)

theorem ltg_zero : (buildLtg Numerics.real 1024)[(0 : Fin 1025)] = 0#8 := by
  have h : ¬ 1 ≤ (buildLtg Numerics.real 1024)[(0 : Fin 1025)].toNat := by
    rw [le_toNat_ltg_iff]
    decide
  exact BitVec.eq_of_toNat_eq (by simpa using h)

theorem ltg_last : (buildLtg Numerics.real 1024)[(1024 : Fin 1025)] = 255#8 := by
  rw [buildLtg_getElem]
  rfl

/-- Settles O41: entry by entry the integer part, and the last entry as it is fixed. -/
theorem ltgFormula : Obligations.LtgFormula := by
  refine ⟨fun k hk => ?_, ltg_last⟩
  rw [buildLtg_getElem, toNat_ltgEntry hk.le, ltgReal]

/-- The least index at which LTG reaches the value `v`: a fifth root, rounded up. -/
def ltgFirst (v : ℕ) : ℕ := if v = 0 then 0 else Nat.nthRoot 5 ((v ^ 11 * 1024 ^ 5 - 1) / 255 ^ 11) + 1

theorem ltgFirst_le_iff (v k : ℕ) : ltgFirst v ≤ k ↔ v ^ 11 * 1024 ^ 5 ≤ k ^ 5 * 255 ^ 11 := by
  unfold ltgFirst
  split
  · rename_i h
    simp [h]
  · have hpos : 0 < v ^ 11 * 1024 ^ 5 := by positivity
    rw [Nat.add_one_le_iff, ← not_le, Nat.le_nthRoot_iff (by norm_num), Nat.le_div_iff_mul_le (by norm_num)]
    omega

/-- A value occurs in LTG exactly if LTG does not pass it by where it first reaches it. -/
theorem exists_ltg_eq_iff (v : Byte) : (∃ k : Fin 1025, (buildLtg Numerics.real 1024)[k] = v) ↔
    (ltgFirst v.toNat) ^ 5 * 255 ^ 11 < (v.toNat + 1) ^ 11 * 1024 ^ 5 := by
  have hv : v.toNat < 256 := v.isLt
  have hfirst : ltgFirst v.toNat < 1025 := by
    rw [Nat.lt_succ_iff, ltgFirst_le_iff, mul_comm]
    gcongr
    omega
  have hreach : ∀ k : Fin 1025, v.toNat ≤ (buildLtg Numerics.real 1024)[k].toNat ↔ ⟨_, hfirst⟩ ≤ k := fun k =>
    (le_toNat_ltg_iff _ k).trans (ltgFirst_le_iff _ _).symm
  rw [← not_le, ← le_toNat_ltg_iff _ ⟨_, hfirst⟩, Nat.add_one_le_iff, not_lt]
  constructor
  · rintro ⟨k, rfl⟩
    exact ltg_mono ((hreach k).mp le_rfl)
  · exact fun h => ⟨_, BitVec.eq_of_toNat_eq (h.antisymm ((hreach _).mpr le_rfl))⟩

/-- Where LTG first reaches a value, it passes by exactly the 22 values of R67. -/
theorem ltgFirst_passes : ∀ v : Fin 256, (ltgFirst v) ^ 5 * 255 ^ 11 < (v.val + 1) ^ 11 * 1024 ^ 5 ↔
    v.val ∉ [1, 2, 3, 4, 5, 6, 7, 8, 9, 11, 12, 13, 15, 16, 18, 19, 21, 23, 25, 27, 30, 34] := by
  decide +kernel

/-- Settles O42: LTG rises with its real number; a value is absent where LTG passes it by. -/
theorem ltgMonotone : Obligations.LtgMonotone :=
  ⟨fun _ _ => ltg_mono, ltg_zero, ltg_last, fun v => (exists_ltg_eq_iff v).trans (ltgFirst_passes v.toFin)⟩

/-! ### GX.DELIN -/

theorem clampReal_eq_max_min {v lo hi : ℝ} (h : lo ≤ hi) : clampReal v lo hi = max lo (min v hi) := by
  unfold clampReal
  split
  · rename_i hlo
    rw [min_eq_left (hlo.le.trans h), max_eq_left hlo.le]
  · rename_i hlo
    split
    · rename_i hhi
      rw [min_eq_right hhi.le, max_eq_right h]
    · rename_i hhi
      rw [min_eq_left (not_lt.mp hhi), max_eq_right (not_lt.mp hlo)]

theorem defined_clampBy {v lo hi : ExactReal} (hv : v.Defined) (hlo : lo.Defined) (hhi : hi.Defined) :
    (clampBy realLt v lo hi).Defined := by
  unfold clampBy
  split
  · exact hlo
  · split
    · exact hhi
    · exact hv

/-- R64: scale, clamp, truncate, over the real numbers. -/
theorem delinIndex_eq {v : ExactReal} (hv : v.Defined) :
    (delinIndex Numerics.real v : ℤ) = ⌊clampReal (v.val * 1025) 0 1024⌋ := by
  have hscaled : (realMul v (lit 1025 1)).Defined := defined_realMul hv (defined_lit _ _)
  have hval : (clampBy realLt (realMul v (lit 1025 1)) (lit 0 1) (lit 1024 1)).val =
      clampReal (v.val * 1025) 0 1024 := by
    rw [val_clampBy hscaled (defined_lit _ _) (defined_lit _ _)]
    simp
  have hnonneg : 0 ≤ clampReal (v.val * 1025) 0 1024 := by
    rw [clampReal_eq_max_min (by norm_num)]
    exact le_max_left _ _
  have htrunc : realTrunc (clampBy realLt (realMul v (lit 1025 1)) (lit 0 1) (lit 1024 1)) =
      ⌊clampReal (v.val * 1025) 0 1024⌋ := by
    rw [realTrunc_eq (defined_clampBy hscaled (defined_lit _ _) (defined_lit _ _)), hval, truncReal, if_pos hnonneg]
  calc (delinIndex Numerics.real v : ℤ) = ((⌊clampReal (v.val * 1025) 0 1024⌋.toNat : ℕ) : ℤ) :=
        congrArg (fun n : ℤ => (n.toNat : ℤ)) htrunc
    _ = _ := Int.toNat_of_nonneg (Int.floor_nonneg.mpr hnonneg)

/-- Which indices GX.DELIN reaches from a value that is not negative. -/
theorem le_delinIndex_iff {v : ExactReal} (hv : v.Defined) (h0 : 0 ≤ v.val) (m : ℕ) :
    m ≤ delinIndex Numerics.real v ↔ m ≤ 1024 ∧ (m : ℝ) ≤ v.val * 1025 := by
  have hmin : 0 ≤ min (v.val * 1025) 1024 := le_min (by positivity) (by norm_num)
  rw [← Int.ofNat_le, delinIndex_eq hv, Int.le_floor, clampReal_eq_max_min (by norm_num), max_eq_right hmin, le_min_iff,
    and_comm]
  norm_cast

theorem delinIndex_lt {v : ExactReal} (hv : v.Defined) : delinIndex Numerics.real v < 1025 := by
  have h : ⌊clampReal (v.val * 1025) 0 1024⌋ < 1025 := by
    rw [Int.floor_lt, clampReal_eq_max_min (by norm_num)]
    exact (max_le (by norm_num) (min_le_right _ _)).trans_lt (by norm_num : (1024 : ℝ) < _)
  rw [← delinIndex_eq hv] at h
  exact_mod_cast h

/-- R64: GX.DELIN reads the entry of LTG at its index. -/
theorem gxDelin_eq (ltg : Vector Byte 1025) {v : ExactReal} (hv : v.Defined) :
    gxDelin Numerics.real ltg v = ltg[(⟨_, delinIndex_lt hv⟩ : Fin 1025)] := by
  have h : min (delinIndex Numerics.real v) gammaSize = delinIndex Numerics.real v :=
    min_eq_left (Nat.le_of_lt_succ (delinIndex_lt hv))
  simp [gxDelin, ltgAt, h]

/-- Settles O43: the index is the integer part of the clamped real number, and LTG is read there. -/
theorem delinFormula : Obligations.DelinFormula :=
  fun ltg _ hv => ⟨⟨_, delinIndex_lt hv⟩, delinIndex_eq hv, gxDelin_eq ltg hv⟩

/-- A greater value has no smaller index. -/
theorem delinIndex_mono {v v' : ExactReal} (hv : v.Defined) (hv' : v'.Defined) (h : v.val ≤ v'.val) :
    delinIndex Numerics.real v ≤ delinIndex Numerics.real v' := by
  rw [← Int.ofNat_le, delinIndex_eq hv, delinIndex_eq hv', clampReal_eq_max_min (by norm_num),
    clampReal_eq_max_min (by norm_num)]
  gcongr

/-- Settles O44: neither the index nor the entries of LTG fall. -/
theorem delinMonotone : Obligations.DelinMonotone := by
  intro v v' hv hv' h
  rw [gxDelin_eq _ hv, gxDelin_eq _ hv']
  exact ltg_mono (delinIndex_mono hv hv' h)

/-! ### The round trip -/

/-- The integer part of 1025 times the entry of GTL at `i`: a quotient on the straight branch of R60, a fifth root on the
other. -/
def gtlScaled (i : ℕ) : ℕ :=
  if i ≤ 10 then 25625 * i / 82365 else Nat.nthRoot 5 ((40 * i + 561) ^ 12 * 1025 ^ 5 / 10761 ^ 12)

theorem le_gtlScaled_iff (m i : ℕ) : m ≤ gtlScaled i ↔ (m : ℝ) ≤ gtlReal (i / 255) * 1025 := by
  have hbranch : (i : ℝ) / 255 ≤ 0.04045 ↔ i ≤ 10 := by
    constructor
    · intro h
      have : (i : ℝ) < (11 : ℕ) := by push_cast; linarith
      exact Nat.lt_succ_iff.mp (by exact_mod_cast this)
    · intro h
      have : (i : ℝ) ≤ (10 : ℕ) := by exact_mod_cast h
      push_cast at this
      linarith
  simp only [gtlScaled, gtlReal, hbranch]
  split
  · have hlin : (i : ℝ) / 255 / 12.92 * 1025 = (25625 * i : ℕ) / (82365 : ℕ) := by push_cast; ring
    rw [hlin, le_div_iff₀ (by norm_num), Nat.le_div_iff_mul_le (by norm_num)]
    norm_cast
  · have hbase : ((i : ℝ) / 255 + 0.055) / 1.055 = (40 * i + 561 : ℕ) / (10761 : ℕ) := by push_cast; ring
    rw [hbase, Nat.le_nthRoot_iff (by norm_num), Nat.le_div_iff_mul_le (by norm_num), ← div_le_iff₀ (by norm_num),
      le_rpow_gamma_iff (by positivity) (by positivity), div_pow, div_pow, div_le_div_iff₀ (by norm_num) (by positivity)]
    norm_cast

/-- The index into LTG of the round trip. -/
theorem delinIndex_gtlEntry (i : ℕ) : delinIndex Numerics.real (gtlEntry Numerics.real i) = min 1024 (gtlScaled i) := by
  have hnonneg : 0 ≤ (gtlEntry Numerics.real i).val := by
    rw [val_gtlEntry]
    exact gtlReal_nonneg (by positivity)
  refine eq_of_forall_le_iff fun m => ?_
  rw [le_delinIndex_iff (defined_gtlEntry i) hnonneg, val_gtlEntry, ← le_gtlScaled_iff, le_min_iff]

/-- The round trip from `i`, as O45 forms it. -/
def roundTrip (i : Fin 256) : ℕ :=
  (gxDelin Numerics.real (buildLtg Numerics.real 1024) (gxLin (buildGtl Numerics.real) (BitVec.ofFin i))).toNat

/-- The round trip from `i` reaches the value `v`, in natural numbers. -/
abbrev RoundTripReaches (i : Fin 256) (v : ℕ) : Prop :=
  v ^ 11 * 1024 ^ 5 ≤ (min 1024 (gtlScaled i)) ^ 5 * 255 ^ 11

theorem le_roundTrip_iff (i : Fin 256) (v : ℕ) : v ≤ roundTrip i ↔ RoundTripReaches i v := by
  have hlin : gxLin (buildGtl Numerics.real) (BitVec.ofFin i) = gtlEntry Numerics.real i :=
    buildGtl_getElem _ i
  rw [roundTrip, hlin, gxDelin_eq _ (defined_gtlEntry i), le_toNat_ltg_iff]
  simp only [delinIndex_gtlEntry]

theorem roundTrip_eq_iff (i : Fin 256) (v : ℕ) :
    roundTrip i = v ↔ RoundTripReaches i v ∧ ¬ RoundTripReaches i (v + 1) := by
  rw [← le_roundTrip_iff, ← le_roundTrip_iff]
  omega

/-- The values at which the round trip is the identity, and its distance from the identity (R65), in natural numbers. -/
theorem roundTripReaches_table : ∀ i : Fin 256,
    ((RoundTripReaches i i ∧ ¬ RoundTripReaches i (i + 1)) ↔
      i.val = 0 ∨ (80 ≤ i.val ∧ i.val ≤ 95) ∨ i.val = 98 ∨ i.val = 255) ∧
    ¬ RoundTripReaches i (i + 7 + 1) ∧ RoundTripReaches i (i - 7) := by
  decide +kernel

/-- The values of the round trip that R65 names, in natural numbers. -/
theorem roundTripReaches_named :
    ∀ p ∈ [((10 : Fin 256), 17), (50, 52), (100, 99), (128, 127), (200, 198), (254, 253), (255, 255),
      (0, 0), (1, 0), (2, 0), (3, 0)], RoundTripReaches p.1 p.2 ∧ ¬ RoundTripReaches p.1 (p.2 + 1) := by
  decide +kernel

/-- Settles O45: the round trip in natural numbers, evaluated at the 256 values. -/
theorem roundTripNotIdentity : Obligations.RoundTripNotIdentity := by
  change (∀ i : Fin 256, (roundTrip i = i.val ↔ _) ∧ roundTrip i ≤ i.val + 7 ∧ i.val ≤ roundTrip i + 7) ∧ _
  refine ⟨fun i => ?_, ?_⟩
  · obtain ⟨hid, hhi, hlo⟩ := roundTripReaches_table i
    rw [← le_roundTrip_iff] at hhi hlo
    exact ⟨(roundTrip_eq_iff i i).trans hid, by omega, by omega⟩
  · have h := fun p hp => (roundTrip_eq_iff _ _).mpr (roundTripReaches_named p hp)
    simp only [List.forall_mem_cons, List.not_mem_nil, IsEmpty.forall_iff, implies_true, and_true] at h
    exact h

end Sys2Proof.Machine
end

section
/-!
PROOFS of the statements of spec/41_tone_curve_compiler.md: the command INIT (R76), TC.LUX (R70), an entry of GAIN and the
shape of the gain curve (R71 to R73), and the corner entries of PLUT (R74, R91).
-/

namespace Sys2Proof.Machine

/-! ### INIT -/

/-- A NaN pattern on the pattern's number (R52). -/
theorem f32IsNaN_iff (p : Word) : f32IsNaN p = true ↔ p.toNat / 2 ^ 23 % 256 = 255 ∧ p.toNat % 2 ^ 23 ≠ 0 := by
  rw [f32IsNaN, Bool.and_eq_true, beq_iff_eq, bne_iff_ne, f32Exponent_eq, f32Fraction_eq]

/-- Settles O33: the two cases of INIT's rule, told apart by the pattern's number. -/
theorem initCommand : Obligations.InitCommand := by
  intro p gains matrix s
  rw [← f32IsNaN_iff]
  rcases execInit_cases p gains matrix s with ⟨hnan, he⟩ | ⟨hnan, hnext⟩
  · exact ⟨fun h => absurd hnan h, fun _ => he⟩
  · exact ⟨fun _ => hnext, fun h => absurd h (by simp [hnan])⟩

/-! ### TC.LUX -/

/-- R70's number before the clamp. -/
noncomputable def luxRaw (x : ℝ) : ℝ := 2500 * 2 ^ ((x - 10) / 2)

theorem luxRaw_mono : Monotone luxRaw := by
  intro x y h
  unfold luxRaw
  gcongr
  norm_num

theorem clampReal_mem {v lo hi : ℝ} (h : lo ≤ hi) : lo ≤ clampReal v lo hi ∧ clampReal v lo hi ≤ hi := by
  rw [clampReal_eq_max_min h]
  exact ⟨le_max_left _ _, max_le h (min_le_right _ _)⟩

theorem clampReal_mono {v v' lo hi : ℝ} (h : lo ≤ hi) (hv : v ≤ v') : clampReal v lo hi ≤ clampReal v' lo hi := by
  rw [clampReal_eq_max_min h, clampReal_eq_max_min h]
  gcongr

/-- The expression that R70 clamps. -/
def luxExpr (p : ExactReal) : ExactReal :=
  realMul (lit 2500 1) (realExp2 (realDiv (realSub p (lit 10 1)) (lit 2 1)))

theorem luxMap_real (p : ExactReal) : luxMap Numerics.real p = clampBy realLt (luxExpr p) (lit 80 1) (lit 2500 1) := rfl

theorem val_luxExpr (p : ExactReal) : (luxExpr p).val = luxRaw p.val := by
  simp only [luxExpr, luxRaw, val_realMul, val_realExp2, val_realDiv, val_realSub, val_lit]
  norm_num

theorem defined_luxExpr {p : ExactReal} (hp : p.Defined) : (luxExpr p).Defined :=
  defined_realMul (defined_lit _ _)
    (defined_realExp2 (defined_realDiv (defined_realSub hp (defined_lit _ _)) (defined_lit _ _) (by norm_num)))

theorem val_luxMap {p : ExactReal} (hp : p.Defined) :
    (luxMap Numerics.real p).val = clampReal (luxRaw p.val) 80 2500 := by
  rw [luxMap_real, val_clampBy (defined_luxExpr hp) (defined_lit _ _) (defined_lit _ _), val_luxExpr, val_lit, val_lit]
  norm_num

theorem tcLux_posInf (N : Numerics) : tcLux N f32PosInf = lit 2500 1 := if_pos rfl

theorem tcLux_negInf (N : Numerics) : tcLux N f32NegInf = lit 80 1 := by
  rw [tcLux, if_neg (by decide), if_pos rfl]

/-- R70: the two infinities are taken apart, every other pattern is read as its value. -/
theorem tcLux_cases (p : Word) : p = f32PosInf ∨ p = f32NegInf ∨
    tcLux Numerics.real p = luxMap Numerics.real (.rat (f32Value p)) := by
  by_cases hpos : p = f32PosInf
  · exact .inl hpos
  by_cases hneg : p = f32NegInf
  · exact .inr (.inl hneg)
  exact .inr (.inr (by rw [tcLux, if_neg hpos, if_neg hneg]; rfl))

/-- R70 on a finite pattern. -/
theorem val_tcLux_of_finite {p : Word} (hp : p.toNat / 2 ^ 23 % 256 ≠ 255) :
    (tcLux Numerics.real p).val = clampReal (luxRaw ((f32Value p : ℚ) : ℝ)) 80 2500 := by
  rcases tcLux_cases p with rfl | rfl | h
  · exact absurd (by decide) hp
  · exact absurd (by decide) hp
  · rw [h, val_luxMap (defined_rat _), val_rat]

theorem defined_tcLux (p : Word) : (tcLux Numerics.real p).Defined := by
  rcases tcLux_cases p with rfl | rfl | h
  · rw [tcLux_posInf]
    exact defined_lit _ _
  · rw [tcLux_negInf]
    exact defined_lit _ _
  · rw [h]
    exact defined_clampBy (defined_luxExpr (defined_rat _)) (defined_lit _ _) (defined_lit _ _)

/-- R70: the lux of any parameter lies in [80, 2500]. -/
theorem val_tcLux_mem (p : Word) : 80 ≤ (tcLux Numerics.real p).val ∧ (tcLux Numerics.real p).val ≤ 2500 := by
  rcases tcLux_cases p with rfl | rfl | h
  · norm_num [tcLux_posInf]
  · norm_num [tcLux_negInf]
  · rw [h, val_luxMap (defined_rat _)]
    exact clampReal_mem (by norm_num)

/-- The lux of a finite parameter does not fall as the parameter rises. -/
theorem val_tcLux_mono {p p' : Word} (hp : p.toNat / 2 ^ 23 % 256 ≠ 255) (hp' : p'.toNat / 2 ^ 23 % 256 ≠ 255)
    (h : f32Value p ≤ f32Value p') : (tcLux Numerics.real p).val ≤ (tcLux Numerics.real p').val := by
  rw [val_tcLux_of_finite hp, val_tcLux_of_finite hp']
  exact clampReal_mono (by norm_num) (luxRaw_mono (by exact_mod_cast h))

/-- Settles O36: the two infinities by the rule's own cases, a finite pattern by the formula. -/
theorem luxFormula : Obligations.LuxFormula := by
  refine ⟨?_, ?_, fun _ => val_tcLux_of_finite, defined_tcLux⟩
  · rw [← f32PosInf, tcLux_posInf, val_lit]
    norm_num
  · rw [← f32NegInf, tcLux_negInf, val_lit]
    norm_num

/-! ### An entry of GAIN -/

@[simp] theorem val_kneeX (lux : ExactReal) : (kneeX Numerics.real lux).val = lux.val / 10000 := by
  simp [kneeX, Numerics.real]

/-- `k1` of R71, over the expression of `x1`. -/
theorem kneeGain_real (lux : ExactReal) :
    kneeGain Numerics.real lux = realMul (realSub (lit 1 2) (kneeX Numerics.real lux)) (lit 8 1) := rfl

@[simp] theorem val_kneeGain (lux : ExactReal) :
    (kneeGain Numerics.real lux).val = kneeGainReal (lux.val / 10000) := by
  norm_num [kneeGain_real, kneeGainReal]

/-- `y1` of R71, over the expressions of `k1` and `x1`. -/
theorem kneeY_real (lux : ExactReal) :
    kneeY Numerics.real lux = realMul (kneeGain Numerics.real lux) (kneeX Numerics.real lux) := rfl

@[simp] theorem val_kneeY (lux : ExactReal) : (kneeY Numerics.real lux).val = kneeYReal (lux.val / 10000) := by
  simp [kneeY_real, kneeYReal]

theorem defined_kneeX {lux : ExactReal} (hlux : lux.Defined) : (kneeX Numerics.real lux).Defined :=
  defined_realDiv hlux (defined_lit _ _) (by norm_num)

theorem defined_kneeGain {lux : ExactReal} (hlux : lux.Defined) : (kneeGain Numerics.real lux).Defined :=
  defined_realMul (defined_realSub (defined_lit _ _) (defined_kneeX hlux)) (defined_lit _ _)

theorem defined_kneeY {lux : ExactReal} (hlux : lux.Defined) : (kneeY Numerics.real lux).Defined :=
  defined_realMul (defined_kneeGain hlux) (defined_kneeX hlux)

/-- The second branch of R72, over the expressions of its constants. -/
theorem gainLine_real (lux t : ExactReal) :
    gainLine Numerics.real lux t =
      realDiv (realAdd (kneeY Numerics.real lux)
        (realDiv (realMul (realSub t (kneeX Numerics.real lux)) (realSub (lit 1 1) (kneeY Numerics.real lux)))
          (realSub (lit 1 1) (kneeX Numerics.real lux)))) t := rfl

/-- The branch of R72 is taken by the real numbers. -/
theorem gainEntry_real {lux t : ExactReal} (hlux : lux.Defined) (ht : t.Defined) :
    gainEntry Numerics.real lux t =
      if t.val < lux.val / 10000 then kneeGain Numerics.real lux else gainLine Numerics.real lux t := by
  have hlt : Numerics.real.lt t (kneeX Numerics.real lux) = true ↔ t.val < lux.val / 10000 := by
    rw [← val_kneeX]
    exact realLt_iff ht (defined_kneeX hlux)
  simp only [gainEntry, hlt]

/-- R72: an entry stands for the gain at its linear value. -/
theorem val_gainEntry {lux t : ExactReal} (hlux : lux.Defined) (ht : t.Defined) :
    (gainEntry Numerics.real lux t).val = gainReal lux.val t.val := by
  rw [gainEntry_real hlux ht, gainReal]
  split
  · exact val_kneeGain lux
  · simp [gainLine_real]

/-- R72: no division by 0, since the line is used from the breakpoint on, which lies between 0 and 1. -/
theorem defined_gainEntry {lux t : ExactReal} (hlux : lux.Defined) (ht : t.Defined) (h0 : 0 < lux.val)
    (h1 : lux.val < 10000) : (gainEntry Numerics.real lux t).Defined := by
  rw [gainEntry_real hlux ht]
  split
  · exact defined_kneeGain hlux
  · rename_i hbranch
    have htpos : 0 < t.val := lt_of_lt_of_le (by positivity) (not_lt.mp hbranch)
    have hden : (realSub (lit 1 1) (kneeX Numerics.real lux)).val ≠ 0 := by
      rw [val_realSub, val_kneeX, val_lit]
      norm_num
      linarith
    have hx := defined_kneeX hlux
    have hy := defined_kneeY hlux
    have hone : (lit 1 1).Defined := defined_lit _ _
    rw [gainLine_real]
    exact defined_realDiv (defined_realAdd hy (defined_realDiv
      (defined_realMul (defined_realSub ht hx) (defined_realSub hone hy)) (defined_realSub hone hx) hden)) ht htpos.ne'

/-- The entry of GAIN at an index that INIT writes for a parameter, under REAL and with GTL built (R72, R76). -/
def initGain (p : Word) (i : ℕ) : ExactReal :=
  gainEntry Numerics.real (tcLux Numerics.real p) (gtlEntry Numerics.real i)

theorem gainEntry_buildGtl (p : Word) (i : Fin 256) :
    gainEntry Numerics.real (tcLux Numerics.real p) (buildGtl Numerics.real)[i] = initGain p i := by
  rw [buildGtl_getElem, initGain]

theorem defined_initGain (p : Word) (i : ℕ) : (initGain p i).Defined := by
  obtain ⟨hlo, hhi⟩ := val_tcLux_mem p
  exact defined_gainEntry (defined_tcLux p) (defined_gtlEntry i) (by linarith) (by linarith)

theorem val_initGain (p : Word) (i : ℕ) :
    (initGain p i).val = gainReal (tcLux Numerics.real p).val (gtlReal (i / 255)) := by
  rw [initGain, val_gainEntry (defined_tcLux p) (defined_gtlEntry i), val_gtlEntry]

/-- Settles O37: entry by entry the curve; the lux of a parameter keeps the divisions of R72 in their domain. -/
theorem gainFormula : Obligations.GainFormula := by
  refine ⟨fun _ _ => val_gainEntry, fun p i => ?_⟩
  rw [gainEntry_buildGtl]
  exact ⟨defined_initGain p i, val_initGain p i⟩

/-! ### The shape of the gain curve -/

/-- On the flat branch the gain is `k1`. -/
theorem gainReal_of_lt {lux t : ℝ} (h : t < lux / 10000) : gainReal lux t = kneeGainReal (lux / 10000) := if_pos h

theorem kneeGainReal_strictAnti : StrictAnti kneeGainReal := by
  intro x y h
  unfold kneeGainReal
  linarith

/-- Where the line of R72 from `(x1, y1)` to `(1, 1)` meets `t = 0`. -/
noncomputable def gainIntercept (x1 : ℝ) : ℝ := (kneeYReal x1 - x1) / (1 - x1)

/-- Up to the greatest breakpoint the line starts above the diagonal, as `k1` is at least 1. -/
theorem gainIntercept_nonneg {x1 : ℝ} (h0 : 0 ≤ x1) (h1 : x1 ≤ 1 / 4) : 0 ≤ gainIntercept x1 := by
  have hy : x1 ≤ kneeYReal x1 := by
    unfold kneeYReal kneeGainReal
    nlinarith
  exact div_nonneg (by linarith) (by linarith)

/-- Both branches of R72 in one: the curve is the line's gain at the linear value or at the breakpoint, whichever is greater.
R73 items 2 and 3 are read off this form. -/
theorem gainReal_eq {lux t : ℝ} (h0 : 0 < lux) (h1 : lux < 10000) :
    gainReal lux t = 1 + gainIntercept (lux / 10000) * ((max t (lux / 10000))⁻¹ - 1) := by
  have hx0 : 0 < lux / 10000 := by positivity
  have hx1 : 1 - lux / 10000 ≠ 0 := by linarith
  unfold gainReal gainIntercept kneeYReal
  generalize lux / 10000 = x1 at hx0 hx1 ⊢
  split
  · rename_i h
    rw [max_eq_right h.le]
    field_simp
    ring
  · rename_i h
    have ht : t ≠ 0 := by linarith
    rw [max_eq_left (not_lt.mp h)]
    field_simp
    ring

/-- R73 item 3: the gain does not rise with the linear value. -/
theorem gainReal_antitone {lux : ℝ} (h80 : 80 ≤ lux) (h2500 : lux ≤ 2500) : Antitone (gainReal lux) := by
  intro t t' h
  have hc : 0 ≤ gainIntercept (lux / 10000) := gainIntercept_nonneg (by linarith) (by linarith)
  have hpos : 0 < max t (lux / 10000) := lt_max_of_lt_right (by linarith)
  rw [gainReal_eq (by linarith) (by linarith), gainReal_eq (by linarith) (by linarith)]
  gcongr

/-- R73 item 2: no change at full intensity. -/
theorem gainReal_one {lux : ℝ} (h80 : 80 ≤ lux) (h2500 : lux ≤ 2500) : gainReal lux 1 = 1 := by
  rw [gainReal_eq (by linarith) (by linarith), max_eq_left (by linarith)]
  simp

/-- R73 item 3: up to full intensity the gain is at least 1. -/
theorem one_le_gainReal {lux t : ℝ} (h80 : 80 ≤ lux) (h2500 : lux ≤ 2500) (ht : t ≤ 1) : 1 ≤ gainReal lux t :=
  (gainReal_one h80 h2500).symm.le.trans (gainReal_antitone h80 h2500 ht)

/-- R73 item 1: at the breakpoint the second branch gives the flat gain, `y1 / x1 = k1`. -/
theorem gainReal_breakpoint {lux : ℝ} (h80 : 80 ≤ lux) :
    gainReal lux (lux / 10000) = kneeGainReal (lux / 10000) := by
  have hx : lux / 10000 ≠ 0 := by linarith
  rw [gainReal, if_neg (lt_irrefl _), sub_self, zero_mul, zero_div, add_zero, kneeYReal, mul_div_cancel_right₀ _ hx]

/-- R72: entry 21 of GTL lies below the least breakpoint, 0.008. -/
theorem gtlReal_21_lt : gtlReal (21 / 255) < 0.008 := by
  rw [gtlReal, if_neg (by norm_num), ← not_le, le_rpow_gamma_iff (by norm_num) (by norm_num)]
  norm_num

/-- R73 item 4: the entries up to 21 are on the flat branch whatever the parameter. -/
theorem val_initGain_of_le_21 (p : Word) {i : ℕ} (hi : i ≤ 21) :
    (initGain p i).val = kneeGainReal ((tcLux Numerics.real p).val / 10000) := by
  have hle : gtlReal (i / 255) ≤ gtlReal (21 / 255) := gtlReal_strictMono.monotone (by gcongr; exact_mod_cast hi)
  rw [val_initGain, gainReal_of_lt]
  linarith [gtlReal_21_lt, (val_tcLux_mem p).1]

/-- R73 item 2: entry 255 is 1 for every parameter. -/
theorem val_initGain_255 (p : Word) : (initGain p 255).val = 1 := by
  obtain ⟨hlo, hhi⟩ := val_tcLux_mem p
  rw [val_initGain, Nat.cast_ofNat, div_self (by norm_num), gtlReal_one, gainReal_one hlo hhi]

/-- R73 item 3: the entries do not rise with the index. -/
theorem val_initGain_anti (p : Word) {i j : ℕ} (hij : i ≤ j) : (initGain p j).val ≤ (initGain p i).val := by
  obtain ⟨hlo, hhi⟩ := val_tcLux_mem p
  rw [val_initGain, val_initGain]
  exact gainReal_antitone hlo hhi (gtlReal_strictMono.monotone (by gcongr))

/-- R73 item 3: the entries are at least 1, as they do not rise and the last is 1. -/
theorem one_le_val_initGain (p : Word) {i : ℕ} (hi : i ≤ 255) : 1 ≤ (initGain p i).val :=
  (val_initGain_255 p).symm.le.trans (val_initGain_anti p hi)

/-- Settles O38: the shape of the curve over the real numbers, first at any defined operands, then at the lux of a parameter
and the entries of GTL. -/
theorem gainCurveShape : Obligations.GainCurveShape := by
  refine ⟨fun lux hlux hlo hhi => ⟨fun t ht hbreak => ?_, fun t ht hone => ?_, fun t t' ht ht' _ hle hone => ?_⟩,
    fun lux lux' t hlux hlux' ht hlt hflat => ?_, fun p => ?_⟩
  · rw [val_gainEntry hlux ht, hbreak, gainReal_breakpoint hlo]
  · rw [val_gainEntry hlux ht, hone, gainReal_one hlo hhi]
  · rw [val_gainEntry hlux ht, val_gainEntry hlux ht']
    exact ⟨gainReal_antitone hlo hhi hle, one_le_gainReal hlo hhi hone⟩
  · rw [val_gainEntry hlux ht, val_gainEntry hlux' ht, gainReal_of_lt hflat, gainReal_of_lt (by linarith)]
    exact kneeGainReal_strictAnti (by linarith)
  · simp only [gainEntry_buildGtl]
    refine ⟨val_initGain_255 p,
      fun i j hij => ⟨val_initGain_anti p hij, one_le_val_initGain p (Nat.le_of_lt_succ j.isLt)⟩,
      fun i hi => ⟨val_initGain_of_le_21 p hi, fun p' hp hp' hle => ?_⟩⟩
    rw [val_initGain_of_le_21 p hi, val_initGain_of_le_21 p' hi]
    have hlux := val_tcLux_mono hp hp' hle
    exact kneeGainReal_strictAnti.antitone (by gcongr)

/-! ### Black and white -/

theorem Reference.num_eq {s : State} (h : Reference s) : s.num = Numerics.real := by
  rw [State.num, h.1]
  rfl

/-- A product with an exact zero is the exact zero, whatever the other factor. -/
theorem realMul_rat_zero (a : ExactReal) : realMul a (.rat 0) = .rat 0 := by
  cases a <;> simp [realMul]

theorem gtlEntry_zero : gtlEntry Numerics.real 0 = .rat 0 := by decide +kernel

/-- GX.DELIN of 0 reads the first entry of LTG. -/
theorem gxDelin_zero : gxDelin Numerics.real (buildLtg Numerics.real 1024) (.rat 0) = 0#8 := by
  have hidx : delinIndex Numerics.real (.rat 0) = 0 := by decide +kernel
  rw [gxDelin_eq _ (defined_rat 0)]
  simp only [hidx]
  exact ltg_zero

/-- GX.DELIN of 1 reads the last entry of LTG: the index 1025 is clamped to 1024. -/
theorem gxDelin_of_val_eq_one {v : ExactReal} (hv : v.Defined) (h1 : v.val = 1) :
    gxDelin Numerics.real (buildLtg Numerics.real 1024) v = 255#8 := by
  have hidx : delinIndex Numerics.real v = 1024 :=
    (Nat.le_of_lt_succ (delinIndex_lt hv)).antisymm
      ((le_delinIndex_iff hv (by simp [h1]) 1024).mpr ⟨le_rfl, by norm_num [h1]⟩)
  rw [gxDelin_eq _ hv]
  simp only [hidx]
  exact ltg_last

/-- R74 with the reference arithmetic and built tables. -/
theorem plutEntry_reference {s : State} (href : Reference s) (ht : TablesBuilt s) (g : ExactReal) (j : Fin 256) :
    plutEntry s g j =
      gxDelin Numerics.real (buildLtg Numerics.real 1024) (realMul g (gtlEntry Numerics.real j)) := by
  obtain ⟨hgtl, hltg⟩ := ht
  rw [plutEntry, hgtl, hltg, href.num_eq, href.2, buildGtl_getElem]
  rfl

theorem plutEntry_zero {s : State} (href : Reference s) (ht : TablesBuilt s) (g : ExactReal) :
    plutEntry s g 0 = 0#8 := by
  rw [plutEntry_reference href ht, Fin.val_zero, gtlEntry_zero, realMul_rat_zero, gxDelin_zero]

theorem plutEntry_255 {s : State} (href : Reference s) (ht : TablesBuilt s) {g : ExactReal} (hg : g.Defined)
    (h1 : g.val = 1) : plutEntry s g 255 = 255#8 := by
  have hwhite : (gtlEntry Numerics.real 255).val = 1 := by
    rw [val_gtlEntry, Nat.cast_ofNat, div_self (by norm_num), gtlReal_one]
  rw [plutEntry_reference href ht]
  refine gxDelin_of_val_eq_one (defined_realMul hg (defined_gtlEntry _)) ?_
  rw [val_realMul, h1, one_mul]
  exact hwhite

/-- Settles O54: at channel 0 the product is 0, at channel 255 it is the gain, which INIT makes 1 at entry 255. -/
theorem blackAndWhite : Obligations.BlackAndWhite := by
  intro s href ht
  refine ⟨fun g => ⟨plutEntry_zero href ht g, plutEntry_255 href ht⟩, fun p => ?_⟩
  rw [ht.1, href.num_eq, gainEntry_buildGtl]
  exact plutEntry_255 href ht (defined_initGain p 255) (val_initGain_255 p)

end Sys2Proof.Machine
end

section
/-!
PROOFS of the statements of spec/42_pixel_lut_remapper.md: the checks of APPLY and what an accepted APPLY does (R85, R94),
PX.REMAP of a word (R87 to R90), the scenarios of R92, and a reset during an APPLY (R132).
-/

namespace Sys2Proof

/-! ### The fields of PIXFMT -/

/-- R7: a legal PIXFMT has its fields inside the word and pairwise disjoint. -/
theorem PixFmt.legal_iff (f : PixFmt) : f.legal = true ↔
    (f.posR ≤ 24 ∧ f.posG ≤ 24 ∧ f.posB ≤ 24 ∧ f.posA ≤ 24) ∧
      (fieldsDisjoint f.posR f.posG = true ∧ fieldsDisjoint f.posR f.posB = true ∧ fieldsDisjoint f.posR f.posA = true) ∧
      (fieldsDisjoint f.posG f.posB = true ∧ fieldsDisjoint f.posG f.posA = true) ∧
      fieldsDisjoint f.posB f.posA = true := by
  simp only [PixFmt.legal, Bool.and_eq_true, decide_eq_true_eq, and_assoc]

theorem fieldsDisjoint_iff (p q : Nat) : fieldsDisjoint p q = true ↔ p + 8 ≤ q ∨ q + 8 ≤ p := by
  simp [fieldsDisjoint]

theorem fieldsDisjoint_comm (p q : Nat) : fieldsDisjoint p q = fieldsDisjoint q p := Bool.or_comm _ _

end Sys2Proof

namespace Sys2Proof.Machine

/-! ### The checks of APPLY -/

/-- R113, R115: where a check of APPLY fails, its fault is recorded and nothing else changes. -/
theorem exec_apply_of_check {base len width height : Word} {s : State} {c : FaultCode}
    (h : applyCheck base len width height s = some c) :
    exec (.apply base len width height) s = .next { s with status := { s.status with fault := c } } := by
  rw [exec, execApply, h]
  rfl

/-- Settles O47: each condition, with those before it excluded, is the check that fails. -/
theorem applyChecks : Obligations.ApplyChecks := by
  intro base len width height s
  refine ⟨fun hgain => ?_, fun hgain hneg => ?_, fun hgain hw hh hcount => ?_, fun hgain hw hh hcount hend => ?_⟩ <;>
    refine exec_apply_of_check ?_ <;> unfold applyCheck pixelCount signed unsigned
  · rw [if_pos hgain]
  · rw [if_neg (by simp [hgain]), if_pos hneg]
  · rw [if_neg (by simp [hgain]), if_neg (by omega), if_pos hcount]
  · rw [if_neg (by simp [hgain]), if_neg (by omega), if_neg (not_not.mpr hcount), if_pos hend]

/-! ### An accepted APPLY -/

/-- R43, R85: where GAIN is written, and the table build is due or its result is there already, it ends as TC.COMPILE does. -/
theorem compileIfNeeded_of_due {s : State} (hg : GainWritten s)
    (h : s.env.cfg.plutCache = .rebuild ∨ s.status.plutValid = false ∨ PlutOfGain s) :
    compileIfNeeded s = .ok ((s.withPlut (plutCompiled s 256)).setPlutValid true) := by
  rcases compileIfNeeded_cases s with ⟨-, hv, hc⟩ | ⟨-, -, h⟩ | ⟨hn, -⟩
  · have hp : PlutOfGain s := (h.resolve_left hc).resolve_left (by simp [hv])
    exact compileIfNeeded_of_truthful hg fun _ => hp
  · exact h
  · exact absurd hg hn

/-- Settles O48: the checks pass, the build leaves the compile of GAIN, and the pixel loop runs over the buffer with it. -/
theorem applyRemapsBuffer : Obligations.ApplyRemapsBuffer := by
  intro base len width height s ha hg hwf hdue
  obtain ⟨-, -, -, -, hend⟩ := id ha
  have hbuild := compileIfNeeded_of_due (s := latchApply base len width height s) hg hdue
  obtain ⟨t, ht, hin, hout, hframe⟩ := pixelLoop_buffer
    (s := (((latchApply base len width height s).withPlut (plutCompiled s 256)).setPlutValid true).setPixIdx 0)
    rfl rfl hend hg.plutOfGain_plutCompiled.written hwf
  have hplut : (t.setBusy false).plut = plutCompiled s 256 := by rw [hframe]; rfl
  have hexec : exec (.apply base len width height) s = .next (t.setBusy false) := by
    rw [exec, execApply, (applyCheck_none_iff base len width height s).mpr ha]
    dsimp only
    rw [applyBody, hbuild, ha.pixelCount_toNat]
    exact congrArg settle ht
  refine ⟨t.setBusy false, hexec, ?_, ?_, ?_, hout, ?_, ?_⟩
  · rw [hplut]
    exact hg.plutOfGain_plutCompiled
  · rw [hplut]
    exact fun i j => plutCompiled_above s 256
  · rw [hplut]
    exact hin
  · rw [hframe]; rfl
  · rw [hframe]; rfl

/-! ### The fields of a pixel word -/

theorem getLsbD_channel (w : Word) (p i : Nat) : (channel w p).getLsbD i = (decide (i < 8) && w.getLsbD (p + i)) :=
  BitVec.getLsbD_extractLsb' ..

theorem getLsbD_field (b : Byte) (p i : Nat) :
    (field b p).getLsbD i = (decide (i < 32) && !decide (i < p) && b.getLsbD (i - p)) := by
  rw [field, BitVec.getLsbD_shiftLeft, BitVec.getLsbD_setWidth]
  by_cases h : i < 32
  · simp [h, show i - p < 32 by omega]
  · simp [h]

/-- The channels of a union of words are the unions of theirs. -/
theorem channel_or (v w : Word) (p : Nat) : channel (v ||| w) p = channel v p ||| channel w p :=
  BitVec.extractLsb'_or

/-- A field inside the word holds what was put there. -/
theorem channel_field_same (b : Byte) {p : Nat} (hp : p ≤ 24) : channel (field b p) p = b := by
  refine BitVec.eq_of_getLsbD_eq fun i hi => ?_
  rw [getLsbD_channel, getLsbD_field]
  simp [hi, show p + i < 32 by omega]

/-- A field holds nothing of what was put into a disjoint one. -/
theorem channel_field_of_disjoint (b : Byte) {p q : Nat} (h : fieldsDisjoint p q = true) :
    channel (field b q) p = 0#8 := by
  refine BitVec.eq_of_getLsbD_eq fun i hi => ?_
  rw [getLsbD_channel, getLsbD_field, BitVec.getLsbD_zero]
  rcases (fieldsDisjoint_iff p q).mp h with hpq | hqp
  · simp [show p + i < q by omega]
  · simp [BitVec.getLsbD_of_ge b (p + i - q) (by omega)]

/-- R87, R88, R90: each channel of a packed pixel is the value packed there. -/
theorem channel_packPixel {f : PixFmt} (hf : f.legal = true) (r g b : Byte) :
    channel (packPixel f r g b) f.posR = r ∧ channel (packPixel f r g b) f.posG = g ∧
      channel (packPixel f r g b) f.posB = b ∧ channel (packPixel f r g b) f.posA = alphaOut := by
  obtain ⟨⟨hR, hG, hB, hA⟩, ⟨hRG, hRB, hRA⟩, ⟨hGB, hGA⟩, hBA⟩ := (PixFmt.legal_iff f).mp hf
  have hGR := (fieldsDisjoint_comm f.posG f.posR).trans hRG
  have hBR := (fieldsDisjoint_comm f.posB f.posR).trans hRB
  have hAR := (fieldsDisjoint_comm f.posA f.posR).trans hRA
  have hBG := (fieldsDisjoint_comm f.posB f.posG).trans hGB
  have hAG := (fieldsDisjoint_comm f.posA f.posG).trans hGA
  have hAB := (fieldsDisjoint_comm f.posA f.posB).trans hBA
  refine ⟨?_, ?_, ?_, ?_⟩ <;> simp [packPixel, channel_or, channel_field_same, channel_field_of_disjoint, *]

/-- Words that agree outside a field have the same channel in every disjoint field inside the word. -/
theorem channel_congr {w v : Word} {p q : Nat} (hp : p ≤ 24) (hpq : fieldsDisjoint p q = true)
    (h : ∀ n, n < 32 → (n < q ∨ q + 8 ≤ n) → w.getLsbD n = v.getLsbD n) : channel w p = channel v p := by
  rw [fieldsDisjoint_iff] at hpq
  refine BitVec.eq_of_getLsbD_eq fun i hi => ?_
  rw [getLsbD_channel, getLsbD_channel, h (p + i) (by omega) (by omega)]

/-! ### PX.REMAP of a word -/

/-- Settles O51: the three entries are read and packed, and each is found again in its field. -/
theorem remapChannels : Obligations.RemapChannels := by
  intro s w r2 g2 b2 hf f r g b l hr hg hb
  have hremap : remapWord s w = some (packPixel f r2 g2 b2) := by
    change plutRead s l r = some r2 at hr
    change plutRead s l g = some g2 at hg
    change plutRead s l b = some b2 at hb
    rw [remapWord, hr, hg, hb]
  exact ⟨_, hremap, channel_packPixel hf r2 g2 b2⟩

/-- Settles O52: the remapped value is formed from the three colour channels, which the alpha field does not touch. -/
theorem alphaNotRead : Obligations.AlphaNotRead := by
  intro s w v hf h
  obtain ⟨⟨hR, hG, hB, -⟩, ⟨-, -, hRA⟩, ⟨-, hGA⟩, hBA⟩ := (PixFmt.legal_iff _).mp hf
  simp only [remapWord, channel_congr hR hRA h, channel_congr hG hGA h, channel_congr hB hBA h]

/-- R89: the reference index is an upper bound of the channels. -/
theorem le_max3 (r g b : Byte) :
    r.toNat ≤ (max3 r g b).toNat ∧ g.toNat ≤ (max3 r g b).toNat ∧ b.toNat ≤ (max3 r g b).toNat := by
  simp only [max3, BitVec.lt_def]
  repeat' split
  all_goals omega

theorem max3_mem (r g b : Byte) : max3 r g b = r ∨ max3 r g b = g ∨ max3 r g b = b := by
  simp only [max3]
  repeat' split
  all_goals simp

/-- Tables that agree on the entries with `j ≤ i` read alike there. -/
theorem plutRead_withPlut {s : State} {plut : Vector (Vector (Option Byte) 256) 256}
    (h : ∀ i j : Fin 256, j ≤ i → plut[i][j] = s.plut[i][j]) {l c : Byte} (hc : c.toNat ≤ l.toNat) :
    plutRead (s.withPlut plut) l c = plutRead s l c := h l.toFin c.toFin hc

/-- Settles O53: the three reads of PX.REMAP are in the row of the maximum, at channels that are no greater. -/
theorem readsInsideTriangle : Obligations.ReadsInsideTriangle := by
  refine ⟨fun r g b => ?_, fun s plut w h => ?_⟩
  · obtain ⟨hr, hg, hb⟩ := le_max3 r g b
    exact ⟨hr, hg, hb, max3_mem r g b⟩
  · obtain ⟨hr, hg, hb⟩ := le_max3 (channel w s.env.cfg.pixfmt.posR) (channel w s.env.cfg.pixfmt.posG)
      (channel w s.env.cfg.pixfmt.posB)
    simp only [remapWord, State.withPlut_env, plutRead_withPlut h hr, plutRead_withPlut h hg, plutRead_withPlut h hb]

/-! ### The scenarios of R92 -/

/-- GX.DELIN with the table built, from its index. -/
theorem gxDelin_buildLtg {v : ExactReal} {k : Nat} (hk : delinIndex Numerics.real v = k) (hle : k ≤ 1024) :
    gxDelin Numerics.real (buildLtg Numerics.real 1024) v = ltgEntry Numerics.real 1024 k := by
  subst hk
  simp [gxDelin, ltgAt, gammaSize, buildLtg, hle]

/-- R92: the gain at entry 10 brings the channel 10 to index 12 of LTG at parameter 0 and to index 11 at parameter 5. -/
theorem delinIndex_grey_ten :
    delinIndex Numerics.real (realMul (initGain 0x00000000#32 10) (gtlEntry Numerics.real 10)) = 12 ∧
      delinIndex Numerics.real (realMul (initGain 0x40A00000#32 10) (gtlEntry Numerics.real 10)) = 11 := by
  decide +kernel

/-- The entries of LTG at the indices of R92. -/
theorem ltgEntry_grey_ten : ltgEntry Numerics.real 1024 12 = 33#8 ∧ ltgEntry Numerics.real 1024 11 = 32#8 := by
  decide +kernel

/-- Settles O55: the entry of LTG at the index that GX.DELIN forms from gain and channel. -/
theorem greyTenScenarios : Obligations.GreyTenScenarios := by
  intro s href ht
  obtain ⟨h0, h5⟩ := delinIndex_grey_ten
  obtain ⟨h12, h11⟩ := ltgEntry_grey_ten
  rw [ht.1, href.num_eq, gainEntry_buildGtl, gainEntry_buildGtl, plutEntry_reference href ht, plutEntry_reference href ht]
  exact ⟨(gxDelin_buildLtg h0 (by norm_num)).trans h12, (gxDelin_buildLtg h5 (by norm_num)).trans h11⟩

/-! ### A reset during an APPLY -/

/-- Settles O20: the step abandons the APPLY, and the reset it begins touches no word of PIXMEM. -/
theorem resetDuringApply : Obligations.ResetDuringApply := by
  intro s base len width height events hwf hend hi hp
  refine ⟨_, step_act hp (mustWait_of_due rfl (.inl rfl)), fun a => ?_⟩
  have htable (w : Word) : remapWord (plutInUse (s.setPort events)) w = remapWord (plutInUse s) w := by
    obtain ⟨p, st, hs⟩ := plutInUse_eq s
    obtain ⟨p', st', hs'⟩ := plutInUse_eq (s.setPort events)
    exact remapWord_congr (plutInUse_setPort s events) (by rw [hs, hs']; rfl) w
  have hwords := abandonCommand_words (s := s.setPort events) hwf hend hi a
  rwa [htable] at hwords

end Sys2Proof.Machine
end

section
/-!
PROOFS of the statements of spec/43_meta_accessor.md: the query commands PMIN, PMAX and DEFP (R100 to R102), and the binary32
encoder (spec/00_scope.md 6.2) on every real number below its overflow point.
-/

namespace Sys2Proof.Machine

/-! ### The commands -/

/-- R100 to R103: a query command writes RESULT, clears BUSY and changes nothing else. -/
theorem answer_eq (w : Word) (s : State) :
    answer w s = .next { s with result := some w, status := { s.status with busy := false } } := rfl

/-- Settles O56: each of the two answers its own constant. -/
theorem rangeQueries : Obligations.RangeQueries :=
  fun s => ⟨answer_eq 0x00000000#32 s, answer_eq 0x00000005#32 s⟩

/-- R102: DEFP answers the encoding of its real. -/
theorem exec_defp (lux : Word) (s : State) :
    exec (.defp lux) s = .next { s with
      result := some (f32enc (defaultParameter s.num lux.toInt)), status := { s.status with busy := false } } :=
  answer_eq _ s

/-! ### The real of DEFP -/

/-- The reading as DEFP clamps it (R102). -/
def clampedReading (lux : Int) : ExactReal := clampBy realLt (.rat lux) (lit 80 1) (lit 2500 1)

theorem defaultParameter_real (lux : Int) :
    defaultParameter Numerics.real lux =
      realAdd (realLog2 (realDiv (clampedReading lux) (lit 2500 1))) (lit 5 1) := rfl

theorem defined_clampedReading (lux : Int) : (clampedReading lux).Defined :=
  defined_clampBy (defined_rat _) (defined_lit _ _) (defined_lit _ _)

theorem val_clampedReading (lux : Int) : (clampedReading lux).val = clampReal lux 80 2500 := by
  rw [clampedReading, val_clampBy (defined_rat _) (defined_lit _ _) (defined_lit _ _)]
  norm_num

theorem val_defaultParameter (lux : Int) :
    (defaultParameter Numerics.real lux).val = Real.logb 2 (clampReal lux 80 2500 / 2500) + 5 := by
  rw [defaultParameter_real, val_realAdd, val_realLog2, val_realDiv, val_clampedReading]
  norm_num

/-- The clamped reading is a positive part of 2500, so the logarithm is in its domain. -/
theorem defined_defaultParameter (lux : Int) : (defaultParameter Numerics.real lux).Defined := by
  have hpos : 0 < (realDiv (clampedReading lux) (lit 2500 1)).val := by
    have h80 := (clampReal_mem (v := lux) (show (80 : ℝ) ≤ 2500 by norm_num)).1
    rw [val_realDiv, val_clampedReading, val_lit]
    exact div_pos (by linarith) (by norm_num)
  rw [defaultParameter_real]
  exact defined_realAdd (defined_realLog2
    (defined_realDiv (defined_clampedReading lux) (defined_lit _ _) (by norm_num)) hpos) (defined_lit _ _)

/-- R102: `80 / 2500` lies above `2^-5`, and `2500 / 2500` is 1. -/
theorem val_defaultParameter_mem (lux : Int) :
    0 < (defaultParameter Numerics.real lux).val ∧ (defaultParameter Numerics.real lux).val ≤ 5 := by
  obtain ⟨h80, h2500⟩ := clampReal_mem (v := lux) (show (80 : ℝ) ≤ 2500 by norm_num)
  have hpos : 0 < clampReal lux 80 2500 / 2500 := by linarith
  have hlo : -5 < Real.logb 2 (clampReal lux 80 2500 / 2500) := by
    rw [Real.lt_logb_iff_rpow_lt one_lt_two hpos, Real.rpow_neg zero_le_two]
    norm_num
    linarith
  have hhi : Real.logb 2 (clampReal lux 80 2500 / 2500) ≤ 0 :=
    Real.logb_nonpos one_lt_two hpos.le (by linarith)
  rw [val_defaultParameter]
  constructor <;> linarith

/-- Settles O57: the command writes the encoding of the real, which lies in (0, 5] as the reading lies in [80, 2500]. -/
theorem defaultParameter_formula : Obligations.DefaultParameter :=
  ⟨exec_defp, fun _ => ⟨defined_defaultParameter _, val_defaultParameter _, val_defaultParameter_mem _⟩⟩

/-! ### The ends of the clamp -/

/-- A reading up to 80 is clamped to the literal 80. -/
theorem clampedReading_of_le {lux : Int} (h : lux ≤ 80) : clampedReading lux = lit 80 1 := by
  rcases h.lt_or_eq with hlt | rfl
  · have hreal : (lux : ℝ) < 80 := mod_cast hlt
    have hlo : realLt (.rat lux) (lit 80 1) = true := by
      rw [realLt_iff (defined_rat _) (defined_lit _ _)]
      simpa using hreal
    exact if_pos hlo
  · decide +kernel

/-- A reading from 2500 on is clamped to the literal 2500. -/
theorem clampedReading_of_ge {lux : Int} (h : 2500 ≤ lux) : clampedReading lux = lit 2500 1 := by
  rcases h.lt_or_eq with hlt | rfl
  · have hreal : (2500 : ℝ) < lux := mod_cast hlt
    have hlo : ¬ realLt (.rat lux) (lit 80 1) = true := by
      rw [realLt_iff (defined_rat _) (defined_lit _ _), val_lit, val_rat]
      norm_num
      linarith
    have hhi : realLt (lit 2500 1) (.rat lux) = true := by
      rw [realLt_iff (defined_lit _ _) (defined_rat _)]
      simpa using hreal
    exact (if_neg hlo).trans (if_pos hhi)
  · decide +kernel

/-- The reals of DEFP at the ends of the clamp are encoded: `log2(80 / 2500) + 5` from its bounds, 5 exactly. -/
theorem f32enc_ends :
    f32enc (realAdd (realLog2 (realDiv (lit 80 1) (lit 2500 1))) (lit 5 1)) = 0x3D0C25C7#32 ∧
      f32enc (realAdd (realLog2 (realDiv (lit 2500 1) (lit 2500 1))) (lit 5 1)) = 0x40A00000#32 := by decide +kernel

/-- Settles O58: beyond an end of the clamp the real of DEFP is the one at the end. -/
theorem defaultParameterEnds : Obligations.DefaultParameterEnds := by
  intro lux s hreal
  have hnum : s.num = Numerics.real := by rw [State.num, hreal]; rfl
  obtain ⟨hleast, hgreatest⟩ := f32enc_ends
  rw [exec_defp, hnum, defaultParameter_real]
  exact ⟨fun h => by rw [clampedReading_of_ge h, hgreatest], fun h => by rw [clampedReading_of_le h, hleast]⟩

/-! ### The nearest integer, ties to even -/

/-- No integer is nearer to `y` than `n`, and where `y` lies halfway between two integers `n` is the even one. -/
def NearestInteger (y : ℝ) (n : ℕ) : Prop := |(n : ℝ) - y| ≤ 1 / 2 ∧ (|(n : ℝ) - y| = 1 / 2 → n % 2 = 0)

/-- The nearest integer from the integer part `m` of a number that is not negative. -/
theorem nearestInteger_of_floor {y : ℝ} {m : ℕ} (hlo : (m : ℝ) ≤ y) (hhi : y < m + 1) :
    NearestInteger y (if y - m < 1 / 2 then m else if 1 / 2 < y - m then m + 1 else m + m % 2) := by
  unfold NearestInteger
  split
  · rename_i h
    rw [abs_sub_comm, abs_of_nonneg (by linarith)]
    exact ⟨h.le, fun he => absurd he h.ne⟩
  · split
    · rename_i h
      push_cast
      rw [abs_of_nonneg (by linarith)]
      exact ⟨by linarith, fun he => by linarith⟩
    · have hhalf : y = m + 1 / 2 := by linarith
      refine ⟨?_, fun _ => by omega⟩
      rcases Nat.mod_two_eq_zero_or_one m with h | h <;> rw [h, hhalf] <;> norm_num [abs_le]

/-- Any other integer is at least as far from `y`. -/
theorem NearestInteger.le {y : ℝ} {n : ℕ} (h : NearestInteger y n) (k : ℕ) :
    |(n : ℝ) - y| ≤ |(k : ℝ) - y| ∧ (|(n : ℝ) - y| = |(k : ℝ) - y| → k ≠ n → n % 2 = 0) := by
  obtain ⟨hhalf, heven⟩ := h
  rcases eq_or_ne k n with rfl | hne
  · exact ⟨le_rfl, fun _ hk => absurd rfl hk⟩
  have hdist : 1 ≤ |(n : ℝ) - y| + |(k : ℝ) - y| := by
    have hint : (1 : ℝ) ≤ |(k : ℝ) - n| := by
      exact_mod_cast Int.one_le_abs (sub_ne_zero.mpr (by exact_mod_cast hne : (k : ℤ) ≠ n))
    calc (1 : ℝ) ≤ |((k : ℝ) - y) - (n - y)| := by simpa using hint
      _ ≤ |(k : ℝ) - y| + |(n : ℝ) - y| := abs_sub _ _
      _ = _ := add_comm _ _
  exact ⟨by linarith, fun he _ => heven (by linarith)⟩

/-- The rounding of a rational number that is not negative. -/
theorem nearestInteger_roundHalfEven {q : ℚ} (hq : 0 ≤ q) : NearestInteger q (roundHalfEven q) := by
  have hfloor : (q.floor.toNat : ℤ) = ⌊q⌋ := Int.toNat_of_nonneg (Int.floor_nonneg.mpr hq)
  unfold roundHalfEven
  generalize q.floor.toNat = m at hfloor
  obtain ⟨hlo, hhi⟩ := Int.floor_eq_iff.mp hfloor.symm
  have h := nearestInteger_of_floor (y := q) (m := m) (mod_cast hlo) (mod_cast hhi)
  have hlt : (q : ℝ) - m < 1 / 2 ↔ q - m < 1 / 2 := by rw [← Rat.cast_lt (K := ℝ)]; norm_num
  have hgt : 1 / 2 < (q : ℝ) - m ↔ 1 / 2 < q - m := by rw [← Rat.cast_lt (K := ℝ)]; norm_num
  simpa only [hlt, hgt] using h

/-- The rounding of an expression that stands for a number that is not negative. -/
theorem nearestInteger_realRoundHalfEven {a : ExactReal} (ha : a.Defined) (h0 : 0 ≤ a.val) :
    NearestInteger a.val (realRoundHalfEven a) := by
  obtain ⟨m, hm⟩ := Int.eq_ofNat_of_zero_le (Int.floor_nonneg.mpr h0)
  obtain ⟨hlo, hhi⟩ := Int.floor_eq_iff.mp hm
  have h := nearestInteger_of_floor (y := a.val) (m := m) (mod_cast hlo) (mod_cast hhi)
  have hr : (realSub a (.rat (m : ℤ))).Defined := defined_realSub ha (defined_rat _)
  have hlt : realLt (realSub a (.rat (m : ℤ))) (.rat (1 / 2)) = true ↔ a.val - m < 1 / 2 := by
    rw [realLt_iff hr (defined_rat _)]; norm_num
  have hgt : realLt (.rat (1 / 2)) (realSub a (.rat (m : ℤ))) = true ↔ 1 / 2 < a.val - m := by
    rw [realLt_iff (defined_rat _) hr]; norm_num
  unfold realRoundHalfEven
  rw [realFloor_eq ha, hm]
  simp only [hlt, hgt]
  convert h using 3 <;> omega

/-! ### Patterns by significand and quantum -/

theorem f32Magnitude_eq_real (w : Word) :
    (f32Magnitude w : ℝ) = f32Significand w * 2 ^ f32Quantum w := by
  rw [f32Magnitude_eq]; push_cast [pow2_eq]; rfl

theorem f32Magnitude_nonneg (w : Word) : 0 ≤ (f32Magnitude w : ℝ) := by
  rw [f32Magnitude_eq_real]; positivity

/-- The magnitude of the pattern whose magnitude bits count `n` quanta `2^q`, a carry out of the fraction included. -/
theorem f32Magnitude_of_bits {w : Word} {q : ℤ} {n : ℕ} (hq : -149 ≤ q) (hn : q = -149 ∨ 2 ^ 23 ≤ n)
    (hle : n ≤ 2 ^ 24) (hw : w.toNat % 2 ^ 31 = (q + 149).toNat * 2 ^ 23 + n) :
    (f32Magnitude w : ℝ) = n * 2 ^ q := by
  obtain ⟨hlt, hk, hm⟩ := f32Significand_bounds w
  have hbits := f32_bits_eq w
  rw [hw] at hbits
  have hcases : (f32Quantum w = q ∧ f32Significand w = n) ∨
      (f32Quantum w = q + 1 ∧ f32Significand w = 2 ^ 23 ∧ n = 2 ^ 24) := by omega
  rw [f32Magnitude_eq_real]
  rcases hcases with ⟨h1, h2⟩ | ⟨h1, h2, h3⟩
  · rw [h1, h2]
  · rw [h1, h2, h3, zpow_add₀ two_ne_zero]
    push_cast
    ring

/-! ### The nearest magnitude -/

/-- The patterns that are no NaN are those whose magnitude bits reach at most those of infinity. -/
theorem f32IsNaN_eq_false_iff (w : Word) : f32IsNaN w = false ↔ w.toNat % 2 ^ 31 ≤ 0x7F800000 := by
  rw [← Bool.not_eq_true, f32IsNaN_iff]
  omega

/-- Among the patterns that are no NaN, each read as the number `f` gives it, `w` is nearest to `x`, ties to even. Infinity
takes part with the finite formula's value, `2^128`: that makes the notion meaningful past the finite patterns. -/
def NearestPattern (f : Word → ℚ) (x : ℝ) (w : Word) : Prop :=
  f32IsNaN w = false ∧ ∀ v : Word, f32IsNaN v = false →
    |(f w : ℝ) - x| ≤ |(f v : ℝ) - x| ∧ (|(f w : ℝ) - x| = |(f v : ℝ) - x| → f v ≠ f w → w.toNat % 2 = 0)

/-- A magnitude is a number of quanta `2^q`, or it lies below the least magnitude whose top bit has that quantum. -/
theorem f32Magnitude_quanta (v : Word) (q : ℤ) :
    (∃ k : ℕ, (f32Magnitude v : ℝ) = k * 2 ^ q) ∨ (-149 < q ∧ (f32Magnitude v : ℝ) < 2 ^ 23 * 2 ^ q) := by
  obtain ⟨hlt, hk, -⟩ := f32Significand_bounds v
  rw [f32Magnitude_eq_real]
  rcases le_or_gt q (f32Quantum v) with h | h
  · left
    obtain ⟨d, hd⟩ := Int.le.dest h
    refine ⟨f32Significand v * 2 ^ d, ?_⟩
    rw [← hd, zpow_add₀ two_ne_zero]
    push_cast [zpow_natCast]
    ring
  · right
    have hsig : (f32Significand v : ℝ) < 2 ^ 24 := mod_cast hlt
    have hquantum : (2 : ℝ) ^ (f32Quantum v + 1) ≤ 2 ^ q := zpow_le_zpow_right₀ one_le_two h
    refine ⟨by omega, ?_⟩
    calc (f32Significand v : ℝ) * 2 ^ f32Quantum v < 2 ^ 24 * 2 ^ f32Quantum v := by gcongr
      _ = 2 ^ 23 * 2 ^ (f32Quantum v + 1) := by rw [zpow_add₀ two_ne_zero]; ring
      _ ≤ 2 ^ 23 * 2 ^ q := by gcongr

/-- No magnitude is above that of infinity. -/
theorem f32Magnitude_le {v : Word} (hv : f32IsNaN v = false) : (f32Magnitude v : ℝ) ≤ 2 ^ 128 := by
  obtain ⟨hlt, hk, hm⟩ := f32Significand_bounds v
  have hbits := f32_bits_eq v
  rw [f32IsNaN_eq_false_iff] at hv
  have hcases : f32Quantum v ≤ 104 ∨ (f32Quantum v = 105 ∧ f32Significand v = 2 ^ 23) := by omega
  rw [f32Magnitude_eq_real]
  rcases hcases with h | ⟨hq, hs⟩
  · have hsig : (f32Significand v : ℝ) ≤ 2 ^ 24 := mod_cast hlt.le
    have hquantum : (2 : ℝ) ^ f32Quantum v ≤ 2 ^ (104 : ℤ) := zpow_le_zpow_right₀ one_le_two h
    calc (f32Significand v : ℝ) * 2 ^ f32Quantum v ≤ 2 ^ 24 * 2 ^ (104 : ℤ) := by gcongr
      _ = 2 ^ 128 := by norm_num
  · rw [hq, hs]
    norm_num

/-- From `2^128` on infinity is the nearest. -/
theorem nearestMagnitude_of_overflow {x : ℝ} {w : Word} (hx : 2 ^ 128 ≤ x) (hw : w.toNat % 2 ^ 31 = 0x7F800000) :
    NearestPattern f32Magnitude x w := by
  have hval : (f32Magnitude w : ℝ) = 2 ^ 128 := by
    rw [f32Magnitude_of_bits (q := 105) (n := 2 ^ 23) (by norm_num) (.inr le_rfl) (by norm_num) hw]
    norm_num
  refine ⟨(f32IsNaN_eq_false_iff w).mpr hw.le, fun v hv => ?_⟩
  have hle := f32Magnitude_le hv
  rw [abs_sub_comm, abs_of_nonneg (by linarith), abs_sub_comm, abs_of_nonneg (by linarith)]
  refine ⟨by linarith, fun he hne => absurd (Rat.cast_injective (α := ℝ) ?_) hne⟩
  linarith

/-- Below infinity, the pattern of the nearest number of quanta is the nearest: the other patterns are numbers of quanta too,
or lie below the binade of `x`, whose lower end is one. -/
theorem nearestMagnitude_of_quanta {x : ℝ} {q : ℤ} {n : ℕ} {w : Word} (hlo : q = -149 ∨ 2 ^ 23 * 2 ^ q ≤ x)
    (hn : NearestInteger (x / 2 ^ q) n) (hval : (f32Magnitude w : ℝ) = n * 2 ^ q) (heven : w.toNat % 2 = n % 2)
    (hw : f32IsNaN w = false) : NearestPattern f32Magnitude x w := by
  have hpos : (0 : ℝ) < 2 ^ q := by positivity
  have hnear (k : ℕ) : |(n : ℝ) * 2 ^ q - x| ≤ |(k : ℝ) * 2 ^ q - x| ∧
      (|(n : ℝ) * 2 ^ q - x| = |(k : ℝ) * 2 ^ q - x| → k ≠ n → n % 2 = 0) := by
    have hscale (z : ℝ) : |z * 2 ^ q - x| = |z - x / 2 ^ q| * 2 ^ q := by
      rw [← abs_of_pos hpos, ← abs_mul, abs_of_pos hpos, sub_mul, div_mul_cancel₀ _ hpos.ne']
    rw [hscale, hscale, mul_le_mul_iff_left₀ hpos, mul_left_inj' hpos.ne']
    exact hn.le k
  refine ⟨hw, fun v _ => ?_⟩
  rw [hval, heven]
  rcases f32Magnitude_quanta v q with ⟨k, hk⟩ | ⟨hq, hk⟩
  · rw [hk]
    refine ⟨(hnear k).1, fun he hne => (hnear k).2 he ?_⟩
    rintro rfl
    exact hne (Rat.cast_injective (α := ℝ) (hk.trans hval.symm))
  · have hx : 2 ^ 23 * 2 ^ q ≤ x := hlo.resolve_left (by omega)
    have hend := (hnear (2 ^ 23)).1
    rw [Nat.cast_pow, Nat.cast_ofNat] at hend
    have hlt : |(2 : ℝ) ^ 23 * 2 ^ q - x| < |(f32Magnitude v : ℝ) - x| := by
      rw [abs_sub_comm, abs_of_nonneg (by linarith), abs_sub_comm, abs_of_nonneg (by linarith)]
      linarith
    exact ⟨(hend.trans_lt hlt).le, fun he => absurd he (hend.trans_lt hlt).ne⟩

/-- Rounding to a quantum whose binade holds `x` gives 24 bits, or one more by a carry. -/
theorem NearestInteger.mem_binade {x : ℝ} {q : ℤ} {n : ℕ} (hn : NearestInteger (x / 2 ^ q) n)
    (hlo : q = -149 ∨ 2 ^ 23 * 2 ^ q ≤ x) (hhi : x < 2 ^ 24 * 2 ^ q) : (q = -149 ∨ 2 ^ 23 ≤ n) ∧ n ≤ 2 ^ 24 := by
  have hpos : (0 : ℝ) < 2 ^ q := by positivity
  obtain ⟨hnlo, hnhi⟩ := abs_le.mp hn.1
  constructor
  · refine hlo.imp_right fun h => ?_
    have hy : 2 ^ 23 ≤ x / 2 ^ q := (le_div_iff₀ hpos).mpr h
    have : ((2 ^ 23 : ℕ) : ℝ) < ((n + 1 : ℕ) : ℝ) := by push_cast; linarith
    exact Nat.lt_succ_iff.mp (mod_cast this)
  · have hy : x / 2 ^ q < 2 ^ 24 := (div_lt_iff₀ hpos).mpr hhi
    have : (n : ℝ) < ((2 ^ 24 + 1 : ℕ) : ℝ) := by push_cast; linarith
    exact Nat.lt_succ_iff.mp (mod_cast this)

/-- Rounding to the quantum of the binade that `x` lies in gives the nearest magnitude. -/
theorem nearestMagnitude_of_rounded {x : ℝ} {q : ℤ} {n : ℕ} {w : Word} (hq : -149 ≤ q)
    (hlo : q = -149 ∨ 2 ^ 23 * 2 ^ q ≤ x) (hhi : x < 2 ^ 24 * 2 ^ q) (hn : NearestInteger (x / 2 ^ q) n)
    (hw : w.toNat % 2 ^ 31 = min ((q + 149).toNat * 2 ^ 23 + n) 0x7F800000) : NearestPattern f32Magnitude x w := by
  obtain ⟨hge, hle⟩ := hn.mem_binade hlo hhi
  rcases le_or_gt ((q + 149).toNat * 2 ^ 23 + n) 0x7F800000 with hfin | hover
  · rw [min_eq_left hfin] at hw
    exact nearestMagnitude_of_quanta hlo hn (f32Magnitude_of_bits hq hge hle hw) (by omega)
      ((f32IsNaN_eq_false_iff w).mpr (hw.trans_le hfin))
  · rw [min_eq_right hover.le] at hw
    refine nearestMagnitude_of_overflow ?_ hw
    have hquantum : (2 : ℝ) ^ (105 : ℤ) ≤ 2 ^ q := zpow_le_zpow_right₀ one_le_two (by omega)
    calc (2 : ℝ) ^ 128 = 2 ^ 23 * 2 ^ (105 : ℤ) := by norm_num
      _ ≤ 2 ^ 23 * 2 ^ q := by gcongr
      _ ≤ x := hlo.resolve_left (by omega)

theorem two_pow_mul_zpow (k : ℕ) (e : ℤ) : (2 : ℝ) ^ k * 2 ^ e = 2 ^ (k + e) := by
  rw [← zpow_natCast, ← zpow_add₀ two_ne_zero]

/-- The magnitude bits that both encoders form from the exponent `l` of `x`, taken as at least -126, are the nearest. -/
theorem nearestMagnitude_of_exponent {x : ℝ} {l : ℤ} {n : ℕ} {w : Word} (hlo : 2 ^ l ≤ x) (hhi : x < 2 ^ (l + 1))
    (hn : NearestInteger (x / 2 ^ (max l (-126) - 23)) n)
    (hw : w.toNat % 2 ^ 31 = min ((max l (-126) + 126).toNat * 2 ^ 23 + n) 0x7F800000) :
    NearestPattern f32Magnitude x w := by
  have hexp : max l (-126) + 126 = max l (-126) - 23 + 149 := by ring
  rw [hexp] at hw
  refine nearestMagnitude_of_rounded (by omega) ?_ ?_ hn hw <;> rw [two_pow_mul_zpow]
  · rcases le_or_gt l (-126) with h | h
    · exact .inl (by omega)
    · exact .inr ((zpow_le_zpow_right₀ one_le_two (by omega)).trans hlo)
  · exact hhi.trans_le (zpow_le_zpow_right₀ one_le_two (by omega))

/-- The encoder of rational numbers forms the nearest magnitude bits. -/
theorem nearestMagnitude_f32MagnitudeBits {q : ℚ} (hq : 0 < q) {w : Word} (hw : w.toNat % 2 ^ 31 = f32MagnitudeBits q) :
    NearestPattern f32Magnitude q w := by
  obtain ⟨hlo, hhi⟩ := floorLog2_spec hq
  rw [← Rat.cast_le (K := ℝ), pow2_eq] at hlo
  rw [← Rat.cast_lt (K := ℝ), pow2_eq] at hhi
  refine nearestMagnitude_of_exponent hlo hhi ?_ hw
  have h := nearestInteger_roundHalfEven (div_nonneg hq.le (pow2_pos (max (floorLog2 q) (-126) - 23)).le)
  rwa [Rat.cast_div, pow2_eq] at h

/-- The encoder of expressions forms the nearest magnitude bits. -/
theorem nearestMagnitude_realMagnitudeBits {a : ExactReal} (ha : a.Defined) (h0 : 0 < a.val) {w : Word}
    (hw : w.toNat % 2 ^ 31 = realMagnitudeBits a) : NearestPattern f32Magnitude a.val w := by
  have hfloor : realFloor (realLog2 a) = ⌊Real.logb 2 a.val⌋ := by
    rw [realFloor_eq (defined_realLog2 ha h0), val_realLog2]
  have hlo : (2 : ℝ) ^ ⌊Real.logb 2 a.val⌋ ≤ a.val := by
    rw [← Real.rpow_intCast, ← Real.le_logb_iff_rpow_le one_lt_two h0]
    exact Int.floor_le _
  have hhi : a.val < (2 : ℝ) ^ (⌊Real.logb 2 a.val⌋ + 1) := by
    rw [← Real.rpow_intCast, ← Real.logb_lt_iff_lt_rpow one_lt_two h0]
    push_cast
    exact Int.lt_floor_add_one _
  unfold realMagnitudeBits at hw
  rw [hfloor] at hw
  refine nearestMagnitude_of_exponent hlo hhi ?_ hw
  generalize max ⌊Real.logb 2 a.val⌋ (-126) - 23 = q
  have hval : (realDiv a (.rat (pow2 q))).val = a.val / 2 ^ q := by rw [val_realDiv, val_rat, pow2_eq]
  have hne : (ExactReal.rat (pow2 q)).val ≠ 0 := by rw [val_rat, pow2_eq]; positivity
  rw [← hval]
  refine nearestInteger_realRoundHalfEven (defined_realDiv ha (defined_rat _) hne) ?_
  rw [hval]
  positivity

/-! ### The nearest pattern -/

/-- The magnitude is the value without its sign. -/
theorem abs_f32Value (w : Word) : |(f32Value w : ℝ)| = (f32Magnitude w : ℝ) := by
  unfold f32Value
  split <;> push_cast
  · rw [abs_neg, abs_of_nonneg (f32Magnitude_nonneg w)]
  · exact abs_of_nonneg (f32Magnitude_nonneg w)

/-- Numbers of one sign are as far apart as their magnitudes. -/
theorem abs_abs_sub_abs_eq {x y : ℝ} (h : 0 ≤ y * x) : |(|y| - |x|)| = |y - x| := by
  rcases mul_nonneg_iff.mp h with ⟨hy, hx⟩ | ⟨hy, hx⟩
  · rw [abs_of_nonneg hy, abs_of_nonneg hx]
  · rw [abs_of_nonpos hy, abs_of_nonpos hx, neg_sub_neg, abs_sub_comm]

/-- With the sign of the number, the nearest magnitude makes the nearest pattern. -/
theorem nearestValue_of_magnitude {x : ℝ} {w : Word} (h : NearestPattern f32Magnitude |x| w) (hx : x ≠ 0)
    (hsign : 0 ≤ (f32Value w : ℝ) * x) : NearestPattern f32Value x w := by
  obtain ⟨hw, hnear⟩ := h
  refine ⟨hw, fun v hv => ?_⟩
  obtain ⟨hle, heven⟩ := hnear v hv
  rw [← abs_f32Value, ← abs_f32Value, abs_abs_sub_abs_eq hsign] at hle heven
  have hv' := abs_abs_sub_abs_le (f32Value v : ℝ) x
  refine ⟨hle.trans hv', fun he hne => heven (le_antisymm hle (he ▸ hv')) fun hmag => ?_⟩
  have hopp : (f32Value v : ℝ) = -(f32Value w : ℝ) := by
    refine (abs_eq_abs.mp ?_).resolve_left (fun h => hne (Rat.cast_injective h))
    rw [abs_f32Value, abs_f32Value, hmag]
  have hsq := sq_eq_sq_iff_abs_eq_abs _ _ |>.mpr he
  have hprod : (f32Value w : ℝ) * x = 0 := by
    rw [hopp] at hsq
    linarith
  have h0 := (mul_eq_zero.mp hprod).resolve_right hx
  exact hne (Rat.cast_injective (α := ℝ) (by rw [hopp, h0, neg_zero]))

/-- Which of two numbers is nearer to `y` is told by a product that is linear in `y`. -/
theorem abs_sub_le_abs_sub_iff (g f y : ℝ) : |g - y| ≤ |f - y| ↔ 0 ≤ (f - g) * (f + g - 2 * y) := by
  rw [← sq_le_sq, ← sub_nonneg]
  ring_nf

theorem abs_sub_eq_abs_sub_iff (g f y : ℝ) : |g - y| = |f - y| ↔ (f - g) * (f + g - 2 * y) = 0 := by
  rw [← sq_eq_sq_iff_abs_eq_abs, eq_comm, ← sub_eq_zero]
  ring_nf

/-- The numbers to which a pattern is nearest form an interval, with ties at its ends only. -/
theorem NearestPattern.between {f : Word → ℚ} {l h x : ℝ} {w : Word} (hl : NearestPattern f l w)
    (hh : NearestPattern f h w) (hlx : l ≤ x) (hxh : x ≤ h) : NearestPattern f x w := by
  refine ⟨hl.1, fun v hv => ?_⟩
  obtain ⟨hle, hleven⟩ := hl.2 v hv
  obtain ⟨hhe, hheven⟩ := hh.2 v hv
  rw [abs_sub_le_abs_sub_iff] at hle hhe ⊢
  rw [abs_sub_eq_abs_sub_iff] at hleven hheven ⊢
  rcases lt_trichotomy (f w) (f v) with hlt | heq | hgt
  · have hpos : (0 : ℝ) < f v - f w := sub_pos.mpr (mod_cast hlt)
    have hstep := mul_le_mul_of_nonneg_left
      (show (f v + f w - 2 * h : ℝ) ≤ f v + f w - 2 * x by linarith) hpos.le
    exact ⟨hhe.trans hstep, fun he => hheven (le_antisymm (hstep.trans he.le) hhe)⟩
  · exact ⟨by simp [heq], fun _ hne => absurd heq.symm hne⟩
  · have hneg : (f v - f w : ℝ) < 0 := sub_neg.mpr (mod_cast hgt)
    have hstep := mul_le_mul_of_nonpos_left
      (show (f v + f w - 2 * x : ℝ) ≤ f v + f w - 2 * l by linarith) hneg.le
    exact ⟨hle.trans hstep, fun he => hleven (le_antisymm (hstep.trans he.le) hle)⟩

/-! ### The encoder -/

/-- For a positive number the nearest magnitude bits are the nearest pattern. -/
theorem nearestValue_ofNat {x : ℝ} {m : ℕ} (hx : 0 < x) (hm : m < 2 ^ 31)
    (h : ∀ w : Word, w.toNat % 2 ^ 31 = m → NearestPattern f32Magnitude x w) :
    NearestPattern f32Value x (BitVec.ofNat 32 m) := by
  have hbits : (BitVec.ofNat 32 m).toNat = m := by rw [BitVec.toNat_ofNat]; omega
  have hpos : ¬ f32Negative (BitVec.ofNat 32 m) = true := by rw [f32Negative_iff]; omega
  have hmag := h _ (by rw [hbits]; omega)
  rw [← abs_of_pos hx] at hmag
  refine nearestValue_of_magnitude hmag hx.ne' ?_
  rw [f32Value, if_neg hpos]
  exact mul_nonneg (f32Magnitude_nonneg _) hx.le

/-- For a negative number the nearest magnitude bits below the sign bit are the nearest pattern. -/
theorem nearestValue_ofNat_neg {x : ℝ} {m : ℕ} (hx : x < 0) (hm : m < 2 ^ 31)
    (h : ∀ w : Word, w.toNat % 2 ^ 31 = m → NearestPattern f32Magnitude (-x) w) :
    NearestPattern f32Value x (BitVec.ofNat 32 (2 ^ 31 + m)) := by
  have hbits : (BitVec.ofNat 32 (2 ^ 31 + m)).toNat = 2 ^ 31 + m := by rw [BitVec.toNat_ofNat]; omega
  have hneg : f32Negative (BitVec.ofNat 32 (2 ^ 31 + m)) = true := by rw [f32Negative_iff]; omega
  have hmag := h _ (by rw [hbits]; omega)
  rw [← abs_of_neg hx] at hmag
  refine nearestValue_of_magnitude hmag hx.ne ?_
  rw [f32Value, if_pos hneg, Rat.cast_neg]
  exact mul_nonneg_of_nonpos_of_nonpos (neg_nonpos.mpr (f32Magnitude_nonneg _)) hx.le

theorem nearestValue_zero : NearestPattern f32Value 0 0x00000000#32 :=
  ⟨by decide, fun _ _ => ⟨by simp [f32Value_zero (.inl rfl)], fun _ _ => rfl⟩⟩

theorem f32MagnitudeBits_lt (q : ℚ) : f32MagnitudeBits q < 2 ^ 31 := (min_le_right _ _).trans_lt (by norm_num)

theorem realMagnitudeBits_lt (a : ExactReal) : realMagnitudeBits a < 2 ^ 31 := (min_le_right _ _).trans_lt (by norm_num)

/-- The pattern that a rational number is encoded as is the nearest, ties to even. -/
theorem nearestValue_f32OfRat (q : ℚ) : NearestPattern f32Value q (f32OfRat q) := by
  unfold f32OfRat
  rcases lt_trichotomy q 0 with hneg | rfl | hpos
  · rw [if_neg hneg.ne, if_pos hneg]
    refine nearestValue_ofNat_neg (mod_cast hneg) (f32MagnitudeBits_lt _) fun w hw => ?_
    exact_mod_cast nearestMagnitude_f32MagnitudeBits (neg_pos.mpr hneg) hw
  · rw [if_pos rfl]
    exact_mod_cast nearestValue_zero
  · rw [if_neg hpos.ne', if_neg hpos.not_gt]
    exact nearestValue_ofNat (mod_cast hpos) (f32MagnitudeBits_lt _) fun w => nearestMagnitude_f32MagnitudeBits hpos

/-- What is constant over known bounds is the value at both. -/
theorem Bounds.constant_eq_some {α : Type} [DecidableEq α] {f : ℚ → α} {b : Bounds} {v : α}
    (h : b.constant f = some v) : ∃ lo hi, b.lo = some lo ∧ b.hi = some hi ∧ f lo = v ∧ f hi = v := by
  unfold Bounds.constant at h
  split at h
  · rename_i lo hi hlo hhi
    split at h
    · rename_i heq
      obtain rfl : f lo = v := by simpa using h
      exact ⟨lo, hi, hlo, hhi, rfl, heq.symm⟩
    · cases h
  · cases h

/-- What the fast bounds decide of a pattern is right: it is the nearest at both bounds. -/
theorem nearestValue_f32encDecided {a : ExactReal} {w : Word} (h : f32encDecided a = some w) :
    NearestPattern f32Value a.val w := by
  unfold f32encDecided at h
  split at h
  · rename_i q
    obtain rfl : f32OfRat q = w := by simpa using h
    exact nearestValue_f32OfRat q
  · refine decideAt_right (P := NearestPattern f32Value a.val) (fun b v hb hv => ?_) _ w h
    obtain ⟨lo, hi, hlo, hhi, hvlo, hvhi⟩ := Bounds.constant_eq_some hv
    exact (hvlo ▸ nearestValue_f32OfRat lo).between (hvhi ▸ nearestValue_f32OfRat hi) (hb.1 lo hlo) (hb.2 hi hhi)

/-- The pattern that the encoder gives is the nearest, ties to even. -/
theorem nearestValue_f32enc {a : ExactReal} (ha : a.Defined) : NearestPattern f32Value a.val (f32enc a) := by
  unfold f32enc
  split
  · rename_i w hw
    exact nearestValue_f32encDecided hw
  · have hneg : realLt a (.rat 0) = true ↔ a.val < 0 := by simpa using realLt_iff ha (defined_rat 0)
    have hpos : realLt (.rat 0) a = true ↔ 0 < a.val := by simpa using realLt_iff (defined_rat 0) ha
    have hval : (realSub (.rat 0) a).val = -a.val := by simp
    simp only [hneg, hpos]
    split
    · rename_i h
      refine nearestValue_ofNat_neg h (realMagnitudeBits_lt _) fun w hw => ?_
      rw [← hval]
      exact nearestMagnitude_realMagnitudeBits (defined_realSub (defined_rat 0) ha) (by linarith) hw
    · split
      · rename_i h
        exact nearestValue_ofNat h (realMagnitudeBits_lt _) fun w => nearestMagnitude_realMagnitudeBits ha h
      · have : a.val = 0 := by linarith
        rw [this]
        exact nearestValue_zero

/-- The values of the two infinities under the finite formula, and of the greatest and the least finite pattern. -/
theorem f32Value_extremes :
    f32Value 0x7F800000#32 = 2 ^ 128 ∧ f32Value 0xFF800000#32 = -2 ^ 128 ∧
      f32Value 0x7F7FFFFF#32 = 2 ^ 128 - 2 ^ 104 ∧ f32Value 0xFF7FFFFF#32 = -(2 ^ 128 - 2 ^ 104) := by decide +kernel

/-- Below the middle between the greatest finite value and `2^128` no infinity is the nearest. -/
theorem NearestPattern.finite {x : ℝ} {w : Word} (h : NearestPattern f32Value x w) (hx : |x| < 2 ^ 128 - 2 ^ 103) :
    w.toNat / 2 ^ 23 % 256 ≠ 255 := by
  intro hexp
  obtain ⟨hw, hnear⟩ := h
  obtain ⟨hlo, hhi⟩ := abs_lt.mp hx
  obtain ⟨hposInf, hnegInf, hmax, hmin⟩ := f32Value_extremes
  have hcases : w = 0x7F800000#32 ∨ w = 0xFF800000#32 := by
    have hlt := w.isLt
    rw [f32IsNaN_eq_false_iff] at hw
    simp only [← BitVec.toNat_inj, BitVec.toNat_ofNat]
    omega
  rcases hcases with rfl | rfl
  · have hle := (hnear 0x7F7FFFFF#32 (by decide)).1
    rw [abs_sub_le_abs_sub_iff, hposInf, hmax] at hle
    norm_num at hle hhi
    linarith
  · have hle := (hnear 0xFF7FFFFF#32 (by decide)).1
    rw [abs_sub_le_abs_sub_iff, hnegInf, hmin] at hle
    norm_num at hle hlo
    linarith

/-- Settles O60: the encoder's pattern is the nearest of all that are no NaN, and below the overflow point it is finite. -/
theorem encodeNearestEven : Obligations.EncodeNearestEven := by
  intro a ha hlt
  have hnear := nearestValue_f32enc ha
  refine ⟨hnear.finite hlt, fun v hv => ?_⟩
  obtain ⟨hle, heven⟩ := hnear.2 v ((f32IsNaN_eq_false_iff v).mpr (by omega))
  refine ⟨hle, fun he hne => ?_⟩
  rw [BitVec.getLsbD, Nat.testBit_zero, heven he hne]
  rfl

end Sys2Proof.Machine
end

section
/-!
PROOFS of the statements of spec/60_exceptions.md: a block with nothing to do (R113), every command answers and its faults are
precise (R113, R117), the first fault is kept (R115, R116), and F_OVERLAP, what it leaves and when it cannot occur (R114, R135).
-/

namespace Sys2Proof.Machine

/-! ### Commands answer, and their faults are precise -/

/-- Settles O9: with the queue empty the step is the sequencer's own, and that has nothing to do. -/
theorem nothingToDo : Obligations.NothingToDo := by
  intro s hr hi hp
  rw [step_nil hp]
  simp [progress, hr, hi]

/-- Settles O15: each rule ends by `settle`, which always answers. -/
theorem everyCommandAnswers : Obligations.EveryCommandAnswers := by
  intro i s
  cases i with
  | init => exact settle_isNext _
  | apply => exact settle_isNext _
  | pmin | pmax | defp => exact ⟨_, answer_eq _ s⟩

/-- The table build of APPLY, where it runs through, records no fault. -/
theorem compileIfNeeded_fault {s t : State} (h : compileIfNeeded s = .ok t) : t.status.fault = s.status.fault := by
  rcases compileIfNeeded_cases s with ⟨he, -⟩ | ⟨-, -, he⟩ | ⟨-, he⟩ <;> cases he.symm.trans h <;> rfl

/-- R113, R115: APPLY records F_UNWRITTEN, or replaces FAULT alone, or leaves FAULT as it was. -/
theorem execApply_fault {base len width height : Word} {s t : State} (h : execApply base len width height s = .next t) :
    t.status.fault = s.status.fault ∨ t.status.fault = .unwritten ∨ ∃ c, t = s.setFault c := by
  rcases execApply_cases base len width height s with ⟨c, -, he⟩ | ⟨-, -, he⟩ | ⟨-, u, hu, ⟨v, hv, he⟩ | ⟨v, hv, he⟩⟩ <;>
    cases he.symm.trans h
  · exact .inr (.inr ⟨c, rfl⟩)
  · exact .inr (.inl rfl)
  · obtain ⟨hframe, -⟩ := (pixelLoop_frame _ _).2 t hv
    exact .inr (.inl (by rw [hframe]))
  · obtain ⟨hframe, -⟩ := (pixelLoop_frame _ _).1 v hv
    exact .inl (by rw [hframe]; exact (compileIfNeeded_fault hu :))

/-- R113: every command records F_UNWRITTEN, or replaces FAULT alone, or leaves FAULT as it was. -/
theorem exec_fault {i : Instr} {s t : State} (h : exec i s = .next t) :
    t.status.fault = s.status.fault ∨ t.status.fault = .unwritten ∨ ∃ c, t = s.setFault c := by
  cases i with
  | init p gains matrix =>
    rcases execInit_cases p gains matrix s with ⟨-, he⟩ | ⟨-, u, he, -, -, hst, -⟩ <;> cases he.symm.trans h
    · exact .inr (.inr ⟨.param, rfl⟩)
    · exact .inl (by rw [hst])
  | apply base len width height => exact execApply_fault h
  | pmin | pmax | defp => cases h; exact .inl rfl

/-- Settles O14: of the ways a command can end, the fault recorded leaves the one that replaces FAULT alone. -/
theorem faultsArePrecise : Obligations.FaultsArePrecise := by
  intro i s t h hf hne hu
  rcases exec_fault h with hsame | hunw | ⟨c, rfl⟩
  · exact absurd (hsame.trans hf) hne
  · exact absurd hunw hu
  · rfl

/-! ### A recorded fault is kept -/

/-- R113: with a fault recorded the block is ready, and no command is in flight. -/
theorem Sequenced.of_fault {s : State} (hs : Sequenced s) (hf : s.status.fault ≠ .none) :
    s.status.ready = true ∧ s.status.busy = true ∧ s.env.inFlight = none := by
  obtain ⟨-, -, hfault, -⟩ := id hs
  obtain ⟨hready, hbusy⟩ := hfault hf
  refine ⟨hready, hbusy, Option.eq_none_iff_forall_ne_some.mpr fun i hi => ?_⟩
  obtain ⟨-, hnone, -⟩ := hs.of_inFlight hi
  exact hf hnone

/-- Settles O13: with a fault recorded nothing runs, ends or is issued, so a step that begins no reset drops words or is a
read or a write of the host's. -/
theorem firstFaultKept : Obligations.FirstFaultKept := by
  intro s t hs hf hreset hst
  obtain ⟨hready, hbusy, hflight⟩ := hs.of_fault hf
  cases stepped_of_step hst with
  | resetEnds hr => exact absurd (hr.symm.trans hready) Bool.noConfusion
  | runs i _ _ hi => exact absurd (hi.symm.trans hflight) (Option.some_ne_none i)
  | stays | crRead | pixRead | pixWrite => exact ⟨rfl, hbusy, rfl⟩
  | dropped => simpa using hbusy
  | overlaps _ _ _ _ _ _ hnone | issued _ _ _ _ _ _ _ _ _ hnone | started _ _ _ _ _ _ _ _ hnone
    | illegal _ _ _ _ _ hnone => exact absurd hnone hf
  | resetBegins h rest hp => exact absurd hp (hreset h rest)

/-! ### A host that waits -/

/-- Whether the host waits is a matter of its queue and the command in flight. -/
theorem Waiting.congr {s t : State} (hw : Waiting s) (hi : t.env.inFlight = s.env.inFlight)
    (hp : t.env.port = s.env.port) : Waiting t := by
  rwa [Waiting, hi, hp]

/-- A host that waits goes on waiting when it has fewer actions left. -/
theorem Waiting.setPort {s : State} {port : List HostEvent} (hw : Waiting s) (hp : ∀ e ∈ port, e ∈ s.env.port) :
    Waiting (s.setPort port) := by
  obtain ⟨hflight, hwait⟩ := hw
  exact ⟨hflight, fun e he => hwait e (hp e he)⟩

/-- A host that waits goes on waiting once its next action is taken. -/
theorem Waiting.tail {s : State} {e : HostEvent} {rest : List HostEvent} (hw : Waiting s) (hp : s.env.port = e :: rest) :
    Waiting (s.setPort rest) := hw.setPort fun _ he => hp ▸ List.mem_cons_of_mem e he

/-- The host waits before it presents again the words that a descriptor did not take. -/
theorem Waiting.keepWords {s : State} (hw : Waiting s) (ws : List Word) : Waiting (s.keepWords ws) := by
  obtain ⟨hflight, hwait⟩ := hw
  rw [State.keepWords_eq]
  refine ⟨hflight, ?_⟩
  rw [State.setPort_env]
  split
  · exact hwait
  · exact List.forall_mem_cons.mpr ⟨rfl, hwait⟩

/-- The next action of a host that waits is not hasty. -/
theorem Waiting.nextHasty {s : State} (hw : Waiting s) : s.nextHasty = false := by
  obtain ⟨-, hwait⟩ := hw
  unfold State.nextHasty
  split
  · rfl
  · rename_i e rest hp
    exact hwait e (by simp [hp])

/-- R113, R119: with nothing in flight BUSY = 1 tells of a recorded fault. -/
theorem Sequenced.fault_of_busy {s : State} (hs : Sequenced s) (hi : s.env.inFlight = none) (hb : s.status.busy = true) :
    s.status.fault ≠ .none := by
  obtain ⟨-, hbusy, -⟩ := hs
  exact (hbusy hb).resolve_left (by simp [hi])

/-- A command leaves the host's side alone, and F_OVERLAP is no fault of its own. -/
theorem exec_waiting {i : Instr} {s t : State} (hw : Waiting s) (hf : s.status.fault ≠ .overlap)
    (h : exec i s = .next t) : Waiting t ∧ t.status.fault ≠ .overlap := by
  obtain ⟨henv, -, -, -, -, -, hend⟩ := exec_frame h
  refine ⟨hw.congr (by rw [henv]) (by rw [henv]), ?_⟩
  rcases hend with ⟨hsame, -⟩ | ⟨-, hne, -⟩
  · rwa [hsame]
  · exact hne

/-- Settles O12: a host that waits never leaves a command in flight, and with none in flight a descriptor meets BUSY = 1 only
after a fault, which drops it. -/
theorem noOverlapForWaitingHost : Obligations.NoOverlapForWaitingHost := by
  intro s t hs hw hf hst
  obtain ⟨hflight, -⟩ := id hw
  cases stepped_of_step hst with
  | resetEnds => rw [resetFinish_eq]; exact ⟨hw, hf⟩
  | runs i _ _ hi => exact absurd (hi.symm.trans hflight) (Option.some_ne_none i)
  | stays port hp => exact ⟨hw.setPort hp, hf⟩
  | dropped ws h rest hp => exact ⟨(hw.tail hp).keepWords _, by simpa using hf⟩
  | overlaps ws h rest hp _ _ hnone hb => exact absurd hnone (hs.fault_of_busy hflight hb)
  | issued i _ ws ws' h rest hp _ _ _ _ ht =>
    have hissued : Waiting ((((s.setPort rest).keepWords ws').setBusy true).setBuffer (bufferOf i)) :=
      ((hw.tail hp).keepWords ws').congr rfl rfl
    exact exec_waiting hissued (by simpa using hf) ht
  | started i ws ws' h rest hp _ _ _ _ hn =>
    exact absurd (((hw.tail hp).keepWords ws').nextHasty.symm.trans hn) Bool.noConfusion
  | illegal ws h rest hp => exact ⟨(hw.tail hp).keepWords _, FaultCode.noConfusion⟩
  | crRead n h rest hp => exact ⟨hw.tail hp, hf⟩
  | resetBegins h rest hp =>
    obtain ⟨-, hwait⟩ := hw.tail hp
    rw [resetBegin_abandon]
    exact ⟨⟨rfl, hwait⟩, FaultCode.noConfusion⟩
  | pixRead a h rest hp => exact ⟨hw.tail hp, hf⟩
  | pixWrite a v h rest hp => exact ⟨hw.tail hp, hf⟩

/-! ### F_OVERLAP -/

/-- What stays presented is put in front of the actions that remain. -/
theorem State.setPort_keepWords (s : State) (events : List HostEvent) (ws : List Word) :
    (s.setPort events).keepWords ws = s.setPort (if ws = [] then events else ⟨.present ws, false⟩ :: events) := by
  rw [State.keepWords_eq]
  rfl

/-- R114: words presented in haste while a command is in flight record F_OVERLAP. -/
theorem step_of_overlap {s : State} {i : Instr} {ws : List Word} {events : List HostEvent} (hs : Sequenced s)
    (hi : s.env.inFlight = some i) (hws : ws ≠ []) (hp : s.env.port = ⟨.present ws, true⟩ :: events) :
    step s = .next (overlap (s.setPort (if ws.drop (descriptorLength ws) = [] then events
      else ⟨.present (ws.drop (descriptorLength ws)), false⟩ :: events))) := by
  obtain ⟨hready, hfault, hbusy⟩ := hs.of_inFlight hi
  rw [step_act hp (by simp [mustWait, hready]), ← State.setPort_keepWords]
  simp [hostAct, issue, hws, hfault, hbusy]

/-- What was written stays written where its content is left unspecified. -/
theorem anyContent_isSome {α : Type} (v : α) (written : Bool) {x : Option α} (hx : x.isSome = true) :
    (anyContent v written x).isSome = true := by
  obtain ⟨y, rfl⟩ := Option.isSome_iff_exists.mp hx
  rfl

/-- F_OVERLAP un-writes nothing of GAIN (R132), and in the model nothing of PARAM and PLUT (notes/assumptions/11.md). -/
theorem overlap_written (s : State) :
    (s.param.isSome = true → (overlap s).param.isSome = true) ∧
      (∀ k : Fin 256, (s.gain[k]).isSome = true → ((overlap s).gain[k]).isSome = true) ∧
      (∀ k j : Fin 256, (s.plut[k][j]).isSome = true → ((overlap s).plut[k][j]).isSome = true) := by
  obtain ⟨hframe, -⟩ := abandonCommand_frame s
  have hparam : (abandonCommand s).param = s.param := by rw [hframe]
  have hgain : (abandonCommand s).gain = s.gain := by rw [hframe]
  have hplut : (abandonCommand s).plut = s.plut := by rw [hframe]
  refine ⟨fun h => ?_, fun k h => ?_, fun k j h => ?_⟩
  · exact anyContent_isSome _ _ (hparam ▸ h)
  · show ((gainFree (abandonCommand s))[k]).isSome = true
    simp only [gainFree, tabulate_getElem_fin, hgain]
    exact anyContent_isSome _ _ h
  · show ((plutFree (abandonCommand s))[k][j]).isSome = true
    simp only [plutFree, tabulate_getElem_fin, hplut]
    split
    · exact anyContent_isSome _ _ h
    · exact h

/-- R18: only a query command writes RESULT. -/
theorem exec_result {i : Instr} {s t : State} (h : exec i s = .next t) :
    t.result = s.result ∨ i = .pmin ∨ i = .pmax ∨ ∃ lux, i = .defp lux := by
  cases i with
  | init p gains matrix =>
    rcases execInit_cases p gains matrix s with ⟨-, he⟩ | ⟨-, u, he, -, -, -, hu⟩ <;> cases he.symm.trans h
    · exact .inl rfl
    · exact .inl (by rw [hu])
  | apply base len width height =>
    obtain ⟨hframe, -⟩ := execApply_frame h
    exact .inl (by rw [hframe])
  | pmin => exact .inr (.inl rfl)
  | pmax => exact .inr (.inr (.inl rfl))
  | defp lux => exact .inr (.inr (.inr ⟨lux, rfl⟩))

/-- What a command in flight was about to leave in RESULT does not depend on what the host does. -/
theorem pendingResult_setPort {i : Instr} {s u : State} (h : exec i s = .next u) (port : List HostEvent) :
    pendingResult i (s.setPort port) = u.result := by
  have hport : exec i (s.setPort port) = .next (u.withEnv { s.env with port := port }) := exec_withEnv rfl h
  rw [pendingResult, hport]
  rfl

/-- R114: an abandoned command leaves RESULT as it was, or as it was about to leave it. -/
theorem abandonCommand_result {s : State} {i : Instr} (hi : s.env.inFlight = some i) :
    (abandonCommand s).result = s.result ∨ (abandonCommand s).result = pendingResult i s := by
  unfold abandonCommand
  rw [hi]
  split
  · exact .inl rfl
  · rename_i heq
    cases heq
    split
    · exact .inr rfl
    · exact .inl rfl
  · exact .inl rfl

/-- R114: F_OVERLAP leaves RESULT as it was, or as the query command it abandons would have left it. -/
theorem overlap_result {s : State} {i : Instr} (hi : s.env.inFlight = some i) (port : List HostEvent) :
    (overlap (s.setPort port)).result = s.result ∨
      (i = .pmin ∨ i = .pmax ∨ ∃ lux, i = .defp lux) ∧
        ∃ u, exec i s = .next u ∧ (overlap (s.setPort port)).result = u.result := by
  have habandon : (overlap (s.setPort port)).result = (abandonCommand (s.setPort port)).result := rfl
  obtain ⟨u, hu⟩ := everyCommandAnswers i s
  rw [habandon]
  rcases abandonCommand_result (s := s.setPort port) hi with hkept | hpending
  · exact .inl hkept
  · rw [pendingResult_setPort hu] at hpending
    exact (exec_result hu).imp hpending.trans fun hquery => ⟨hquery, u, hu, hpending⟩

/-- What an APPLY makes of a word does not depend on what the host does. -/
theorem remapWord_plutInUse_setPort (s : State) (port : List HostEvent) (w : Word) :
    remapWord (plutInUse (s.setPort port)) w = remapWord (plutInUse s) w := by
  obtain ⟨p, st, hs⟩ := plutInUse_eq s
  obtain ⟨p', st', hs'⟩ := plutInUse_eq (s.setPort port)
  exact remapWord_congr (plutInUse_setPort s port) (by rw [hs, hs']; rfl) w

/-- R94, R114: F_OVERLAP leaves each word as it was, or a word of the abandoned APPLY's buffer remapped. -/
theorem overlap_words {s : State} {i : Instr} (hwf : Pixmem.wf s.pixmem = true) (hi : s.env.inFlight = some i)
    (hend : ∀ base len width height, i = .apply base len width height → base.toNat + len.toNat ≤ 2 ^ 32)
    (port : List HostEvent) (a : Word) :
    memRead (overlap (s.setPort port)) a = memRead s a ∨
      ∃ base len width height, i = .apply base len width height ∧ InBuffer base len a ∧
        remapWord (plutInUse s) (memRead s a) = some (memRead (overlap (s.setPort port)) a) := by
  have habandon : memRead (overlap (s.setPort port)) a = memRead (abandonCommand (s.setPort port)) a := rfl
  rw [habandon]
  by_cases happly : ∃ base len width height, i = .apply base len width height
  · obtain ⟨base, len, width, height, rfl⟩ := happly
    have hwords := abandonCommand_words (s := s.setPort port) hwf (hend _ _ _ _ rfl) hi a
    rw [remapWord_plutInUse_setPort] at hwords
    exact hwords.imp_right fun h => ⟨base, len, width, height, rfl, h⟩
  · refine .inl (memRead_congr (abandonCommand_pixmem (s := s.setPort port) fun base len width height h => ?_) a)
    exact happly ⟨base, len, width, height, Option.some.inj (hi.symm.trans h)⟩

/-- Settles O11: the step is `overlap`, whose frame, written tables, RESULT and words are the clauses. -/
theorem overlapRecorded : Obligations.OverlapRecorded := by
  intro s i ws events hs hwf htri hi hend hws hp
  obtain ⟨hready, -, hbusy⟩ := hs.of_inFlight hi
  refine ⟨_, step_of_overlap hs hi hws hp, ?_⟩
  generalize (if ws.drop (descriptorLength ws) = [] then events
    else ⟨.present (ws.drop (descriptorLength ws)), false⟩ :: events) = port
  obtain ⟨hgtl, hltg, hr, hb, hfault, -, henv, hplut⟩ := overlap_frame (s.setPort port)
  obtain ⟨hparam, hgain, hwritten⟩ := overlap_written (s.setPort port)
  rw [henv]
  exact ⟨hfault, hb.trans hbusy, hr.trans hready, rfl, rfl, rfl, rfl, hgtl, hltg, htri.congr hplut, hparam, hgain, hwritten,
    overlap_result hi port, overlap_words hwf hi hend port⟩

end Sys2Proof.Machine
end

section
/-!
PROOF of the statement of spec/70_reset_and_hazards.md on the command port during a reset (R131).
-/

namespace Sys2Proof.Machine

/-- R131: words presented while READY = 0 wait for the end of the reset, in haste or not. -/
theorem mustWait_present_of_not_ready {s : State} (hr : s.status.ready = false) (ws : List Word) (h : Bool) :
    mustWait ⟨.present ws, h⟩ s = true := by
  simp [mustWait, HostAction.presents, hr]

/-- R130: with READY = 0 the sequencer's own step ends the reset. -/
theorem progress_of_not_ready {s : State} (hr : s.status.ready = false) : progress s = .next (resetFinish s) :=
  if_pos hr

/-- Settles O21: the words must wait, so the step is the sequencer's own, which ends the reset. -/
theorem portClosedDuringReset : Obligations.PortClosedDuringReset := by
  intro s ws h events hr hp
  have hstep : step s = .next (resetFinish s) :=
    (step_wait hp (mustWait_present_of_not_ready hr ws h)).trans (progress_of_not_ready hr)
  refine ⟨_, hstep, rfl, tablesBuilt_resetFinish s, rfl, ?_⟩
  rw [resetFinish_eq]

end Sys2Proof.Machine
end
